-- ==== Sys2Proof/Word.lean ====
section
/-! DEFINITION. The widths of the MTMC (00_scope.md R5) and the signed and modular readings of a word (R8). -/

namespace Sys2Proof

/-- A byte, the unit of addressing (R5, R50). -/
abbrev Byte := BitVec 8

/-- A word: the contents of a register, an instruction word or two bytes of memory (R5, R8). -/
abbrev Word := BitVec 16

/-- One of the four groups of binary digits of an instruction form (R7). -/
abbrev Nibble := BitVec 4

/-- `sint(v)`: the two's-complement reading of a word (R8). -/
def sint (v : Word) : Int := v.toInt

/-- `u16(n)`: an integer reduced modulo 65536 (R8). -/
def u16 (n : Int) : Word := BitVec.ofInt 16 n

end Sys2Proof
end

