-- ==== Sys2Proof/Config.lean ====
section
/-! DEFINITION. What an implementation of the MTMC fixes (the named parameters of 00_scope.md R6) and the values the
spec leaves free (its "draws", R9), the latter as constants without a body. -/

namespace Sys2Proof

/-- The parameters of R6 that the running machine consults. They stand in `State.params`, so a statement about every
state is a statement about every value of every parameter (log 28). -/
structure Params where
  /-- `BIG_ENDIAN` (R52, D1). -/
  bigEndian : Bool
  /-- `SHR_ARITHMETIC` (R121, D12). -/
  shrArithmetic : Bool
  /-- `LB_SIGN_EXTEND` (R193, D15). -/
  lbSignExtend : Bool
  /-- `INC_DEC_WRITE_TEST` (R113, D8). -/
  incDecWriteTest : Bool
  /-- `RSTR_WRITES_NUL` (R249, D25). -/
  rstrWritesNul : Bool
  /-- `SYS_FBDS` (R259, D24). -/
  sysFbds : BitVec 8
  /-- `SYS_FBSYNC` (R260, D24). -/
  sysFbsync : BitVec 8
deriving DecidableEq, Repr

/-- `DIV0_RESULT(a)`, a draw: what `div` and `mod` by zero leave, for draw number `n` and left operand `a` (R121, D11). -/
opaque Config.div0Result (n : Nat) (a : Word) : Word

/-- `ConsoleReadInt()`: the host's answer number `n` (R247, R262). -/
opaque Config.consoleInt (n : Nat) : Word

/-- `ConsoleReadString(max)` before it is cut to `max` bytes: the host's answer number `n` (R249, R262). -/
opaque Config.consoleString (n : Nat) (max : Nat) : List Byte

/-- `FileRead(name, max)` before it is cut to `max` bytes; `none` is the answer `Fail` (R251, R265). -/
opaque Config.fileRead (n : Nat) (name : List Byte) (max : Nat) : Option (List Byte)

/-- `FileWrite(name, d)`: true is `Ok`, false is `Fail` (R252, R265). -/
opaque Config.fileWrite (n : Nat) (name : List Byte) (contents : List Byte) : Bool

/-- The random source: draw number `n`, not yet brought into the range asked for (R253, R263). -/
opaque Config.random (n : Nat) : Nat

/-- The pixel with key `k` of the frame buffer that draw number `n` leaves after `fbss` or `fbds` (R258, R259). -/
opaque Config.spritePixel (n : Nat) (k : Nat) : BitVec 2

/-- What `ir` holds after a fault, draw number `n` (R271: unspecified). -/
opaque Config.irAfterFault (n : Nat) : Word

/-- What `dr` holds after a fault, draw number `n` (R271: unspecified). -/
opaque Config.drAfterFault (n : Nat) : Word

end Sys2Proof
end

