-- ==== Sys2Proof/Machine/Bytes.lean ====
section
/-! DEFINITION. The bytes of a word, in either byte order (20_memory.md R52), and the fields of an instruction word
(30_encoding.md R7). -/

namespace Sys2Proof

/-- `w[15:8]`. -/
def hiByte (w : Word) : Byte := w.extractLsb' 8 8

/-- `w[7:0]`. -/
def loByte (w : Word) : Byte := w.extractLsb' 0 8

/-- The byte of `w` stored at the lower address (R52, R57). -/
def firstByte (bigEndian : Bool) (w : Word) : Byte := if bigEndian then hiByte w else loByte w

/-- The byte of `w` stored at the higher address (R52, R57). -/
def secondByte (bigEndian : Bool) (w : Word) : Byte := if bigEndian then loByte w else hiByte w

/-- The word whose bytes lie at an address (`b0`) and at the next one (`b1`) (R52, R55). -/
def wordOfBytes (bigEndian : Bool) (b0 b1 : Byte) : Word := if bigEndian then b0 ++ b1 else b1 ++ b0

/-- Nibble 1, `w[15:12]`. -/
def nib1 (w : Word) : Nibble := w.extractLsb' 12 4

/-- Nibble 2, `w[11:8]`. -/
def nib2 (w : Word) : Nibble := w.extractLsb' 8 4

/-- Nibble 3, `w[7:4]`. -/
def nib3 (w : Word) : Nibble := w.extractLsb' 4 4

/-- Nibble 4, `w[3:0]`. -/
def nib4 (w : Word) : Nibble := w.extractLsb' 0 4

end Sys2Proof
end

