-- ==== Sys2Proof/Machine/Defaults.lean ====
section
/-! DEFINITION. The spec's default values of the parameters (00_scope.md R6) and of the launch values (10_state.md R45). -/

namespace Sys2Proof

/-- The "spec default" column of R6 (D1, D8, D12, D15, D24, D25). -/
def Params.default : Params where
  bigEndian := true
  shrArithmetic := false
  lbSignExtend := false
  incDecWriteTest := false
  rstrWritesNul := false
  sysFbds := 0x15#8
  sysFbsync := 0x16#8

/-- `INIT_PC` (R6, D26). -/
def initPc : Word := 0x0000#16

/-- `INIT_SP` (R6, D26): one past the last byte, so the first push lands at 0x0FFE. -/
def initSp : Word := 0x1000#16

/-- `INIT_FP` (R6, D26). -/
def initFp : Word := 0x1000#16

/-- `INIT_REG[i]`, `INIT_BP`, `INIT_CB`, `INIT_DB` for an empty image, and `ir` and `dr` (R45; log 19, 20). -/
def initWord : Word := 0x0000#16

end Sys2Proof
end

