-- ==== Sys2Proof/Syntax.lean ====
section
/-! DEFINITION. The instructions of the MTMC: one constructor of `Instr` for each row of spec/opcode_table.json, the
operands in the assembler's order (30_encoding.md R101). -/

namespace Sys2Proof

/-- The sixteen user-facing registers, in the order of their index (10_state.md R20). -/
inductive Reg where
  | t0 | t1 | t2 | t3 | t4 | t5
  | a0 | a1 | a2 | a3
  | rv | ra | fp | sp | bp | pc
deriving DecidableEq, Repr

/-- The ALU operations 0x0 to 0xE, in the order of their number (41_alu.md R120). -/
inductive AluOp where
  | add | sub | mul | div | mod | and | or | xor | shl | shr | min | max
  | not | lnot | neg
deriving DecidableEq, Repr

/-- A binary operation: number 0x0 to 0xB (R120). -/
def AluOp.isBinary : AluOp → Bool
  | .not | .lnot | .neg => false
  | _ => true

/-- The 61 instructions (30_encoding.md R86). A data word is the instruction's last operand. -/
inductive Instr where
  -- MISC (40_misc.md)
  | sys (code : BitVec 8)
  | mov (r q : Reg)
  | inc (r : Reg) (v : Nibble)
  | dec (r : Reg) (v : Nibble)
  | seti (r : Reg) (v : Nibble)
  | nop
  -- ALU (41_alu.md)
  | add (r q : Reg)
  | sub (r q : Reg)
  | mul (r q : Reg)
  | div (r q : Reg)
  | mod (r q : Reg)
  | and (r q : Reg)
  | or (r q : Reg)
  | xor (r q : Reg)
  | shl (r q : Reg)
  | shr (r q : Reg)
  | min (r q : Reg)
  | max (r q : Reg)
  | not (r : Reg)
  | lnot (r : Reg)
  | neg (r : Reg)
  | imm (op : AluOp) (r : Reg) (value : Word)
  -- STACK (42_stack.md); `p` is the register that serves as stack pointer
  | push (r p : Reg)
  | pop (r p : Reg)
  | dup (p : Reg)
  | swap (p : Reg)
  | drop (p : Reg)
  /-- `over`, a word Lean keeps for itself. -/
  | overWord (p : Reg)
  | rot (p : Reg)
  | sop (op : AluOp) (p : Reg)
  | pushi (value : Word) (p : Reg)
  -- TEST (43_test.md)
  | eq (r q : Reg)
  | neq (r q : Reg)
  | gt (r q : Reg)
  | gte (r q : Reg)
  | lt (r q : Reg)
  | lte (r q : Reg)
  | eqi (r : Reg) (v : Nibble)
  | neqi (r : Reg) (v : Nibble)
  | gti (r : Reg) (v : Nibble)
  | gtei (r : Reg) (v : Nibble)
  | lti (r : Reg) (v : Nibble)
  | ltei (r : Reg) (v : Nibble)
  -- LOAD/STORE REGISTER (44_load_store_register.md): data, address and offset registers
  | lwr (r a o : Reg)
  | lbr (r a o : Reg)
  | swr (r a o : Reg)
  | sbr (r a o : Reg)
  -- LOAD/STORE (45_load_store.md): data register, address word, offset register
  | lw (r : Reg) (addr : Word)
  | lwo (r : Reg) (addr : Word) (o : Reg)
  | lb (r : Reg) (addr : Word)
  | lbo (r : Reg) (addr : Word) (o : Reg)
  | sw (r : Reg) (addr : Word)
  | swo (r : Reg) (addr : Word) (o : Reg)
  | sb (r : Reg) (addr : Word)
  | sbo (r : Reg) (addr : Word) (o : Reg)
  | li (r : Reg) (value : Word)
  -- JUMP REGISTER (46_jump_register.md)
  | jr (r : Reg)
  -- JUMP (47_jump.md)
  | j (target : BitVec 12)
  | jz (target : BitVec 12)
  | jnz (target : BitVec 12)
  | jal (target : BitVec 12)
deriving DecidableEq, Repr

end Sys2Proof
end

