-- ==== Sys2Proof/WellFormed.lean ====
section
/-! DEFINITION. Which terms of `Instr` are instructions: the types bound every field but one, the operation of `imm`. -/

namespace Sys2Proof

/-- An `imm` applies a binary operation (30_encoding.md R88, 41_alu.md R139); every other term is an instruction. -/
def Instr.wellFormed : Instr → Bool
  | .imm op _ _ => op.isBinary
  | _ => true

end Sys2Proof
end

