-- ==== Sys2Proof/Decode.lean ====
section
/-! DEFINITION. The decoder (30_encoding.md R80 to R91), total and rejecting by name, and after it the encoder, both
written from the encoding tables of the spec. -/

namespace Sys2Proof

/-- The register a 4-bit field names (10_state.md R20). -/
def Reg.ofNibble (n : Nibble) : Reg :=
  match n.toNat with
  | 0 => .t0 | 1 => .t1 | 2 => .t2 | 3 => .t3 | 4 => .t4 | 5 => .t5
  | 6 => .a0 | 7 => .a1 | 8 => .a2 | 9 => .a3
  | 10 => .rv | 11 => .ra | 12 => .fp | 13 => .sp | 14 => .bp | _ => .pc

/-- The field value of a register (10_state.md R20). -/
def Reg.toNibble : Reg → Nibble
  | .t0 => 0x0#4 | .t1 => 0x1#4 | .t2 => 0x2#4 | .t3 => 0x3#4 | .t4 => 0x4#4 | .t5 => 0x5#4
  | .a0 => 0x6#4 | .a1 => 0x7#4 | .a2 => 0x8#4 | .a3 => 0x9#4
  | .rv => 0xA#4 | .ra => 0xB#4 | .fp => 0xC#4 | .sp => 0xD#4 | .bp => 0xE#4 | .pc => 0xF#4

/-- The ALU operation a 4-bit field names (41_alu.md R120); 0xF, `imm` itself, is none (30_encoding.md R88). -/
def AluOp.ofNibble (n : Nibble) : Option AluOp :=
  match n.toNat with
  | 0 => some .add | 1 => some .sub | 2 => some .mul | 3 => some .div | 4 => some .mod
  | 5 => some .and | 6 => some .or | 7 => some .xor | 8 => some .shl | 9 => some .shr
  | 10 => some .min | 11 => some .max | 12 => some .not | 13 => some .lnot | 14 => some .neg
  | _ => none

/-- The number of an ALU operation (41_alu.md R120). -/
def AluOp.toNibble : AluOp → Nibble
  | .add => 0x0#4 | .sub => 0x1#4 | .mul => 0x2#4 | .div => 0x3#4 | .mod => 0x4#4
  | .and => 0x5#4 | .or => 0x6#4 | .xor => 0x7#4 | .shl => 0x8#4 | .shr => 0x9#4
  | .min => 0xA#4 | .max => 0xB#4 | .not => 0xC#4 | .lnot => 0xD#4 | .neg => 0xE#4

/-- The register of nibble 2. -/
def reg2 (w : Word) : Reg := Reg.ofNibble (nib2 w)

/-- The register of nibble 3. -/
def reg3 (w : Word) : Reg := Reg.ofNibble (nib3 w)

/-- The register of nibble 4. -/
def reg4 (w : Word) : Reg := Reg.ofNibble (nib4 w)

/-- MISC words, type nibble 0 (R86, 40_misc.md R110). -/
def decodeMisc (w : Word) : Option Instr :=
  match (nib2 w).toNat with
  | 0 => some (.sys (w.extractLsb' 0 8))
  | 1 => some (.mov (reg3 w) (reg4 w))
  | 2 => some (.inc (reg3 w) (nib4 w))
  | 3 => some (.dec (reg3 w) (nib4 w))
  | 4 => some (.seti (reg3 w) (nib4 w))
  | 15 => if nib3 w = 0xF#4 ∧ nib4 w = 0xF#4 then some .nop else none
  | _ => none

/-- The operation field of `imm`: nibble 4, a binary operation (R86, R88). -/
def decodeImm (w : Word) : Option Instr :=
  match AluOp.ofNibble (nib4 w) with
  | some op => if op.isBinary then some (.imm op (reg3 w) 0#16) else none
  | none => none

/-- ALU words, type nibble 1 (R86, 41_alu.md R120). -/
def decodeAlu (w : Word) : Option Instr :=
  match (nib2 w).toNat with
  | 0 => some (.add (reg3 w) (reg4 w))
  | 1 => some (.sub (reg3 w) (reg4 w))
  | 2 => some (.mul (reg3 w) (reg4 w))
  | 3 => some (.div (reg3 w) (reg4 w))
  | 4 => some (.mod (reg3 w) (reg4 w))
  | 5 => some (.and (reg3 w) (reg4 w))
  | 6 => some (.or (reg3 w) (reg4 w))
  | 7 => some (.xor (reg3 w) (reg4 w))
  | 8 => some (.shl (reg3 w) (reg4 w))
  | 9 => some (.shr (reg3 w) (reg4 w))
  | 10 => some (.min (reg3 w) (reg4 w))
  | 11 => some (.max (reg3 w) (reg4 w))
  | 12 => if nib4 w = 0x0#4 then some (.not (reg3 w)) else none
  | 13 => if nib4 w = 0x0#4 then some (.lnot (reg3 w)) else none
  | 14 => if nib4 w = 0x0#4 then some (.neg (reg3 w)) else none
  | _ => decodeImm w

/-- The operation field of `sop`: nibble 3, any operation but 0xF (R86, R88). -/
def decodeSop (w : Word) : Option Instr :=
  match AluOp.ofNibble (nib3 w) with
  | some op => some (.sop op (reg4 w))
  | none => none

/-- STACK words, type nibble 2 (R86, 42_stack.md R150). -/
def decodeStack (w : Word) : Option Instr :=
  match (nib2 w).toNat with
  | 0 => some (.push (reg3 w) (reg4 w))
  | 1 => some (.pop (reg3 w) (reg4 w))
  | 2 => if nib3 w = 0x0#4 then some (.dup (reg4 w)) else none
  | 3 => if nib3 w = 0x0#4 then some (.swap (reg4 w)) else none
  | 4 => if nib3 w = 0x0#4 then some (.drop (reg4 w)) else none
  | 5 => if nib3 w = 0x0#4 then some (.overWord (reg4 w)) else none
  | 6 => if nib3 w = 0x0#4 then some (.rot (reg4 w)) else none
  | 7 => decodeSop w
  | 15 => if nib3 w = 0x0#4 then some (.pushi 0#16 (reg4 w)) else none
  | _ => none

/-- TEST words, type nibble 3 (R86, 43_test.md R170). -/
def decodeTest (w : Word) : Option Instr :=
  match (nib2 w).toNat with
  | 0 => some (.eq (reg3 w) (reg4 w))
  | 1 => some (.neq (reg3 w) (reg4 w))
  | 2 => some (.gt (reg3 w) (reg4 w))
  | 3 => some (.gte (reg3 w) (reg4 w))
  | 4 => some (.lt (reg3 w) (reg4 w))
  | 5 => some (.lte (reg3 w) (reg4 w))
  | 8 => some (.eqi (reg3 w) (nib4 w))
  | 9 => some (.neqi (reg3 w) (nib4 w))
  | 10 => some (.gti (reg3 w) (nib4 w))
  | 11 => some (.gtei (reg3 w) (nib4 w))
  | 12 => some (.lti (reg3 w) (nib4 w))
  | 13 => some (.ltei (reg3 w) (nib4 w))
  | _ => none

/-- LOAD/STORE words, type nibble 8 (R86, 45_load_store.md R200). -/
def decodeLoadStore (w : Word) : Option Instr :=
  match (nib2 w).toNat with
  | 0 => if nib4 w = 0x0#4 then some (.lw (reg3 w) 0#16) else none
  | 1 => some (.lwo (reg3 w) 0#16 (reg4 w))
  | 2 => if nib4 w = 0x0#4 then some (.lb (reg3 w) 0#16) else none
  | 3 => some (.lbo (reg3 w) 0#16 (reg4 w))
  | 4 => if nib4 w = 0x0#4 then some (.sw (reg3 w) 0#16) else none
  | 5 => some (.swo (reg3 w) 0#16 (reg4 w))
  | 6 => if nib4 w = 0x0#4 then some (.sb (reg3 w) 0#16) else none
  | 7 => some (.sbo (reg3 w) 0#16 (reg4 w))
  | 15 => if nib4 w = 0x0#4 then some (.li (reg3 w) 0#16) else none
  | _ => none

/-- The instruction of a first word by R86, its data word (if it has one) taken as 0; none is an illegal word (R87). -/
def decodeFirst (w : Word) : Option Instr :=
  match (nib1 w).toNat with
  | 0 => decodeMisc w
  | 1 => decodeAlu w
  | 2 => decodeStack w
  | 3 => decodeTest w
  | 4 => some (.lwr (reg2 w) (reg3 w) (reg4 w))
  | 5 => some (.lbr (reg2 w) (reg3 w) (reg4 w))
  | 6 => some (.swr (reg2 w) (reg3 w) (reg4 w))
  | 7 => some (.sbr (reg2 w) (reg3 w) (reg4 w))
  | 8 => decodeLoadStore w
  | 9 => if nib2 w = 0x0#4 ∧ nib3 w = 0x0#4 then some (.jr (reg4 w)) else none
  | 12 => some (.j (w.extractLsb' 0 12))
  | 13 => some (.jz (w.extractLsb' 0 12))
  | 14 => some (.jnz (w.extractLsb' 0 12))
  | 15 => some (.jal (w.extractLsb' 0 12))
  | _ => none

/-- The eleven two-word instructions (R84). -/
def Instr.twoWords : Instr → Bool
  | .imm _ _ _ | .pushi _ _ => true
  | .lw _ _ | .lwo _ _ _ | .lb _ _ | .lbo _ _ _ => true
  | .sw _ _ | .swo _ _ _ | .sb _ _ | .sbo _ _ _ => true
  | .li _ _ => true
  | _ => false

/-- The instruction with `d` as its data word; a one-word instruction has none (R84). -/
def Instr.withData (i : Instr) (d : Word) : Instr :=
  match i with
  | .imm op r _ => .imm op r d
  | .pushi _ p => .pushi d p
  | .lw r _ => .lw r d
  | .lwo r _ o => .lwo r d o
  | .lb r _ => .lb r d
  | .lbo r _ o => .lbo r d o
  | .sw r _ => .sw r d
  | .swo r _ o => .swo r d o
  | .sb r _ => .sb r d
  | .sbo r _ o => .sbo r d o
  | .li r _ => .li r d
  | i => i

/-- The data word of an instruction; 0 where it has none. -/
def Instr.dataWord : Instr → Word
  | .imm _ _ d | .pushi d _ => d
  | .lw _ d | .lwo _ d _ | .lb _ d | .lbo _ d _ => d
  | .sw _ d | .swo _ d _ | .sb _ d | .sbo _ d _ => d
  | .li _ d => d
  | _ => 0#16

/-- What the decoder answers on a string of bytes. -/
inductive Decoded where
  /-- An instruction and the bytes after it. -/
  | instr (i : Instr) (rest : List Byte)
  /-- The first word matches no row of R86 (R87). -/
  | illegal (w : Word)
  /-- Fewer than two bytes: there is no first word. -/
  | noFirstWord
  /-- The first word is that of a two-word instruction and no second word follows (R84). -/
  | noDataWord (w : Word)
deriving DecidableEq, Repr

/-- The decoder on bytes: the first word decides alone, and the length follows from it (R84, R90, R91). -/
def decode (bigEndian : Bool) : List Byte → Decoded
  | b0 :: b1 :: rest =>
    let w := wordOfBytes bigEndian b0 b1
    match decodeFirst w with
    | none => .illegal w
    | some i =>
      if i.twoWords then
        match rest with
        | d0 :: d1 :: rest' => .instr (i.withData (wordOfBytes bigEndian d0 d1)) rest'
        | _ => .noDataWord w
      else .instr i rest
  | _ => .noFirstWord

/-! The encoder. -/

/-- A word from its four nibbles, nibble 1 first (R7, R82). -/
def ofNibbles (n1 n2 n3 n4 : Nibble) : Word := n1 ++ n2 ++ n3 ++ n4

/-- Format RR: type, operation, two registers (R82). -/
def encodeRR (n1 n2 : Nibble) (r q : Reg) : Word := ofNibbles n1 n2 r.toNibble q.toNibble

/-- Format RI4: type, operation, register, 4-bit immediate (R82). -/
def encodeRI (n1 n2 : Nibble) (r : Reg) (v : Nibble) : Word := ofNibbles n1 n2 r.toNibble v

/-- The formats with a register in nibble 3 and 0 in nibble 4 (R, LS; R82). -/
def encodeR3 (n1 n2 : Nibble) (r : Reg) : Word := ofNibbles n1 n2 r.toNibble 0x0#4

/-- The formats with 0 in nibble 3 and a register in nibble 4 (S, SI, JR; R82). -/
def encodeR4 (n1 n2 : Nibble) (r : Reg) : Word := ofNibbles n1 n2 0x0#4 r.toNibble

/-- Format LSR: type, data register, address register, offset register (R82). -/
def encodeRRR (n1 : Nibble) (r a o : Reg) : Word := ofNibbles n1 r.toNibble a.toNibble o.toNibble

/-- Format J: type and 12-bit target (R82). -/
def encodeJ (n1 : Nibble) (target : BitVec 12) : Word := n1 ++ target

/-- The first (or only) word of an instruction (R82, opcode_table.json). -/
def encodeFirst : Instr → Word
  | .sys code => 0x00#8 ++ code
  | .mov r q => encodeRR 0x0#4 0x1#4 r q
  | .inc r v => encodeRI 0x0#4 0x2#4 r v
  | .dec r v => encodeRI 0x0#4 0x3#4 r v
  | .seti r v => encodeRI 0x0#4 0x4#4 r v
  | .nop => 0x0FFF#16
  | .add r q => encodeRR 0x1#4 0x0#4 r q
  | .sub r q => encodeRR 0x1#4 0x1#4 r q
  | .mul r q => encodeRR 0x1#4 0x2#4 r q
  | .div r q => encodeRR 0x1#4 0x3#4 r q
  | .mod r q => encodeRR 0x1#4 0x4#4 r q
  | .and r q => encodeRR 0x1#4 0x5#4 r q
  | .or r q => encodeRR 0x1#4 0x6#4 r q
  | .xor r q => encodeRR 0x1#4 0x7#4 r q
  | .shl r q => encodeRR 0x1#4 0x8#4 r q
  | .shr r q => encodeRR 0x1#4 0x9#4 r q
  | .min r q => encodeRR 0x1#4 0xA#4 r q
  | .max r q => encodeRR 0x1#4 0xB#4 r q
  | .not r => encodeR3 0x1#4 0xC#4 r
  | .lnot r => encodeR3 0x1#4 0xD#4 r
  | .neg r => encodeR3 0x1#4 0xE#4 r
  | .imm op r _ => encodeRI 0x1#4 0xF#4 r op.toNibble
  | .push r p => encodeRR 0x2#4 0x0#4 r p
  | .pop r p => encodeRR 0x2#4 0x1#4 r p
  | .dup p => encodeR4 0x2#4 0x2#4 p
  | .swap p => encodeR4 0x2#4 0x3#4 p
  | .drop p => encodeR4 0x2#4 0x4#4 p
  | .overWord p => encodeR4 0x2#4 0x5#4 p
  | .rot p => encodeR4 0x2#4 0x6#4 p
  | .sop op p => ofNibbles 0x2#4 0x7#4 op.toNibble p.toNibble
  | .pushi _ p => encodeR4 0x2#4 0xF#4 p
  | .eq r q => encodeRR 0x3#4 0x0#4 r q
  | .neq r q => encodeRR 0x3#4 0x1#4 r q
  | .gt r q => encodeRR 0x3#4 0x2#4 r q
  | .gte r q => encodeRR 0x3#4 0x3#4 r q
  | .lt r q => encodeRR 0x3#4 0x4#4 r q
  | .lte r q => encodeRR 0x3#4 0x5#4 r q
  | .eqi r v => encodeRI 0x3#4 0x8#4 r v
  | .neqi r v => encodeRI 0x3#4 0x9#4 r v
  | .gti r v => encodeRI 0x3#4 0xA#4 r v
  | .gtei r v => encodeRI 0x3#4 0xB#4 r v
  | .lti r v => encodeRI 0x3#4 0xC#4 r v
  | .ltei r v => encodeRI 0x3#4 0xD#4 r v
  | .lwr r a o => encodeRRR 0x4#4 r a o
  | .lbr r a o => encodeRRR 0x5#4 r a o
  | .swr r a o => encodeRRR 0x6#4 r a o
  | .sbr r a o => encodeRRR 0x7#4 r a o
  | .lw r _ => encodeR3 0x8#4 0x0#4 r
  | .lwo r _ o => encodeRR 0x8#4 0x1#4 r o
  | .lb r _ => encodeR3 0x8#4 0x2#4 r
  | .lbo r _ o => encodeRR 0x8#4 0x3#4 r o
  | .sw r _ => encodeR3 0x8#4 0x4#4 r
  | .swo r _ o => encodeRR 0x8#4 0x5#4 r o
  | .sb r _ => encodeR3 0x8#4 0x6#4 r
  | .sbo r _ o => encodeRR 0x8#4 0x7#4 r o
  | .li r _ => encodeR3 0x8#4 0xF#4 r
  | .jr r => encodeR4 0x9#4 0x0#4 r
  | .j target => encodeJ 0xC#4 target
  | .jz target => encodeJ 0xD#4 target
  | .jnz target => encodeJ 0xE#4 target
  | .jal target => encodeJ 0xF#4 target

/-- The words of an instruction (R80, R84). -/
def encode (i : Instr) : List Word :=
  if i.twoWords then [encodeFirst i, i.dataWord] else [encodeFirst i]

/-- The bytes of a list of words as they lie in memory (R52, R80). -/
def bytesOfWords (bigEndian : Bool) : List Word → List Byte
  | [] => []
  | w :: ws => firstByte bigEndian w :: secondByte bigEndian w :: bytesOfWords bigEndian ws

/-! The table's numbering of an instruction's bits: bit 0 is the least significant bit of the first word, the second word
is bits 31..16. -/

/-- The first word of an instruction whose bits are `w`, the bits from `nbits` up taken as 0. -/
def tableFirst (nbits w : Nat) : Word := BitVec.ofNat 16 (w % 2 ^ nbits)

/-- The second word of an instruction whose bits are `w`, the bits from `nbits` up taken as 0. -/
def tableSecond (nbits w : Nat) : Word := BitVec.ofNat 16 (w % 2 ^ nbits / 65536)

/-- The instruction the decoder reads from the bits `w`, its words laid out under the default byte order. -/
def decodeTableWord (nbits w : Nat) : Option Instr :=
  match decode Params.default.bigEndian
      (bytesOfWords Params.default.bigEndian [tableFirst nbits w, tableSecond nbits w]) with
  | .instr i _ => some i
  | _ => none

/-! The pseudo-instructions and operand defaults of the assembler (30_encoding.md R102, R103). -/

/-- `ret` is `jr ra` (46_jump_register.md R217). -/
def Asm.ret : Instr := .jr .ra

/-- `inc r` with no value is `inc r 1` (R103). -/
def Asm.inc (r : Reg) : Instr := .inc r 1#4

/-- `dec r` with no value is `dec r 1` (R103). -/
def Asm.dec (r : Reg) : Instr := .dec r 1#4

/-- `push r` with no stack register uses `sp` (R102). -/
def Asm.push (r : Reg) : Instr := .push r .sp

/-- `pop r` with no stack register uses `sp` (R102). -/
def Asm.pop (r : Reg) : Instr := .pop r .sp

/-- The one-operand stack instructions with no stack register use `sp` (R102). -/
def Asm.onSp (make : Reg → Instr) : Instr := make .sp

end Sys2Proof
end

