-- ==== Sys2Proof/Machine/Sparse.lean ====
section
/-! DEFINITION. Arrays kept as lists of (key, value) with a default of 0, in one canonical form: keys strictly rising, no
value 0 listed. Main memory (8-bit values) and the pixel arrays (2-bit values) are kept so. -/

namespace Sys2Proof.Machine

/-- The value at a key; an unlisted key reads 0 (70_reset_and_hazards.md R301 for memory; log 21, 25). -/
def Sparse.read {w : Nat} : List (Nat × BitVec w) → Nat → BitVec w
  | [], _ => 0
  | (k, v) :: rest, a => if k = a then v else Sparse.read rest a

/-- Put a value other than 0 in front of a list whose keys are above its key, or nothing for the value 0. -/
def Sparse.put {w : Nat} (a : Nat) (v : BitVec w) (rest : List (Nat × BitVec w)) : List (Nat × BitVec w) :=
  if v = 0 then rest else (a, v) :: rest

/-- The list with `v` at key `a`, in canonical form if it was: writing 0 removes the entry. -/
def Sparse.write {w : Nat} : List (Nat × BitVec w) → Nat → BitVec w → List (Nat × BitVec w)
  | [], a, v => Sparse.put a v []
  | (k, x) :: rest, a, v =>
    if a < k then Sparse.put a v ((k, x) :: rest)
    else if a = k then Sparse.put a v rest
    else (k, x) :: Sparse.write rest a v

/-- Keys from `lo` on, strictly rising and below `bound`, no value 0. -/
def Sparse.wfFrom {w : Nat} (bound : Nat) : Nat → List (Nat × BitVec w) → Bool
  | _, [] => true
  | lo, (k, v) :: rest => decide (lo ≤ k) && decide (k < bound) && decide (v ≠ 0) && Sparse.wfFrom bound (k + 1) rest

/-- The canonical form of an array of `bound` entries. -/
def Sparse.wf {w : Nat} (bound : Nat) (m : List (Nat × BitVec w)) : Bool := Sparse.wfFrom bound 0 m

/-- The canonical list of the array whose value at key `k` is `f k`, for the `n` keys from `lo` on. -/
def Sparse.tabulateFrom {w : Nat} (f : Nat → BitVec w) : Nat → Nat → List (Nat × BitVec w)
  | _, 0 => []
  | lo, n + 1 => Sparse.put lo (f lo) (Sparse.tabulateFrom f (lo + 1) n)

/-- The canonical list of the array of `bound` entries whose value at key `k` is `f k`. -/
def Sparse.tabulate {w : Nat} (bound : Nat) (f : Nat → BitVec w) : List (Nat × BitVec w) :=
  Sparse.tabulateFrom f 0 bound

end Sys2Proof.Machine
end

