-- ==== Sys2Proof/Machine/State.lean ====
section
/-! DEFINITION. The state of the MTMC (00_scope.md R12, 10_state.md), as plain data, and its value at launch (R45). -/

namespace Sys2Proof.Machine

/-- The five faults with their arguments (60_exceptions.md R270, R279), as the status `Errored` carries them (R271). -/
inductive FaultReport where
  /-- The first word matches no row of the decode map (R272). -/
  | illegalInstruction (w : Word)
  /-- An access out of range, with the address it started at (R273). -/
  | addressFault (addr : Word)
  /-- `sys` with a code that names no service (R274). -/
  | unknownSyscall (code : BitVec 8)
  /-- `sys error`, with the bytes of its message (R275). -/
  | programAbort (message : List Byte)
  /-- The host could not carry out `rfile` or `wfile` (R277). -/
  | hostError (code : BitVec 8)
deriving DecidableEq, Repr

/-- The run status (10_state.md R40); `errored` carries the fault that ended the run (60_exceptions.md R271). -/
inductive RunStatus where
  | running
  | halted
  | errored (report : FaultReport)
deriving DecidableEq, Repr

/-- An item of the console's output history (48_io_and_syscalls.md R262). -/
inductive ConsoleItem where
  | int (n : Int)
  | str (bytes : List Byte)
  | error (bytes : List Byte)
deriving DecidableEq, Repr

/-- A file write the host carried out (48_io_and_syscalls.md R252, R265). -/
structure FileEffect where
  name : List Byte
  contents : List Byte
deriving DecidableEq, Repr

/-- The flags register as four Booleans (10_state.md R30). -/
structure Flags where
  test : Bool
  overflow : Bool
  nan : Bool
  error : Bool
deriving DecidableEq, Repr

/-- The sixteen general registers (10_state.md R20). -/
structure Regs where
  t0 : Word
  t1 : Word
  t2 : Word
  t3 : Word
  t4 : Word
  t5 : Word
  a0 : Word
  a1 : Word
  a2 : Word
  a3 : Word
  rv : Word
  ra : Word
  fp : Word
  sp : Word
  bp : Word
  pc : Word
deriving DecidableEq, Repr

/-- The whole state (R12). Memory and the two pixel arrays are lists of (key, value) in the canonical form of
Machine/Sparse.lean; `draws` and `params` are the model's own fields (log 27, 28). -/
structure State where
  regs : Regs
  flags : Flags
  /-- "the current instruction to execute" (R35). -/
  ir : Word
  /-- "data associated with the current instruction if it is multi-word" (R36). -/
  dr : Word
  /-- The code boundary (R37). -/
  cb : Word
  /-- The data boundary (R37). -/
  db : Word
  /-- Main memory (20_memory.md R50). -/
  mem : List Host.Cell
  /-- The frame buffer `FB` (R42). -/
  frameBuffer : List (Nat × BitVec 2)
  /-- The screen `SC` (R42). -/
  screen : List (Nat × BitVec 2)
  /-- The run status (R40). -/
  status : RunStatus
  /-- The console's output history, oldest item first (R262). -/
  console : List ConsoleItem
  /-- The file writes carried out, oldest first (R265). -/
  fileEffects : List FileEffect
  /-- How many free values ("draws", R9) the run has used: the index of the next one. -/
  draws : Nat
  /-- The parameters of R6; no step changes them. -/
  params : Params
deriving DecidableEq, Repr

/-- Why `step` has no next state. Neither is raised by an instruction: a fault of the MTMC is a next state whose status is
`Errored` (60_exceptions.md R271). -/
inductive Fault where
  /-- Raised by `step` alone, in status `Halted`: the spec gives no step there (R40, 93_implementation_defined.md U29).
  Safe. -/
  | noStepHalted
  /-- Raised by `step` alone, in status `Errored`: the spec gives no step there (R40, U30). Safe. -/
  | noStepErrored (report : FaultReport)
deriving DecidableEq, Repr

/-- Why the model gives an instruction no meaning. -/
inductive Refusal where
  /-- Raised by `exec` for an instruction not modelled yet; no arm raises it now. Safe. -/
  | notModelled (mnemonic : String)
deriving DecidableEq, Repr

/-- What a meaning and a step answer. -/
abbrev Result := Host.Outcome State Fault Refusal

/-- The machine at launch (10_state.md R45, 70_reset_and_hazards.md R300) with the spec's default launch values (R6) and no
program loaded: the flags, the status and the histories are the spec's, every other value is one the spec leaves to a
parameter or unspecified (log 19, 20, 21, 25). -/
def State.reset : State where
  regs :=
    { t0 := initWord, t1 := initWord, t2 := initWord, t3 := initWord, t4 := initWord, t5 := initWord
      a0 := initWord, a1 := initWord, a2 := initWord, a3 := initWord
      rv := initWord, ra := initWord, fp := initFp, sp := initSp, bp := initWord, pc := initPc }
  flags := { test := false, overflow := false, nan := false, error := false }
  ir := initWord
  dr := initWord
  cb := initWord
  db := initWord
  mem := []
  frameBuffer := []
  screen := []
  status := .running
  console := []
  fileEffects := []
  draws := 0
  params := Params.default

end Sys2Proof.Machine
end

