-- ==== Sys2Proof/Machine/Ops.lean ====
section
/-! DEFINITION. The named operations over registers, memory, pixels and the run: what every meaning is made of, and the
one way a fault is taken (60_exceptions.md R271). -/

namespace Sys2Proof.Machine

/-! ## Registers (10_state.md R20 to R26) -/

/-- Read a register of the file. -/
def Regs.get (f : Regs) : Reg → Word
  | .t0 => f.t0 | .t1 => f.t1 | .t2 => f.t2 | .t3 => f.t3 | .t4 => f.t4 | .t5 => f.t5
  | .a0 => f.a0 | .a1 => f.a1 | .a2 => f.a2 | .a3 => f.a3
  | .rv => f.rv | .ra => f.ra | .fp => f.fp | .sp => f.sp | .bp => f.bp | .pc => f.pc

/-- Write a register of the file. -/
def Regs.set (f : Regs) (r : Reg) (v : Word) : Regs :=
  match r with
  | .t0 => { f with t0 := v }
  | .t1 => { f with t1 := v }
  | .t2 => { f with t2 := v }
  | .t3 => { f with t3 := v }
  | .t4 => { f with t4 := v }
  | .t5 => { f with t5 := v }
  | .a0 => { f with a0 := v }
  | .a1 => { f with a1 := v }
  | .a2 => { f with a2 := v }
  | .a3 => { f with a3 := v }
  | .rv => { f with rv := v }
  | .ra => { f with ra := v }
  | .fp => { f with fp := v }
  | .sp => { f with sp := v }
  | .bp => { f with bp := v }
  | .pc => { f with pc := v }

/-- `x[r]` (00_scope.md R9). -/
def State.reg (s : State) (r : Reg) : Word := s.regs.get r

/-- `x[r] <- v` (R9); a write to `pc` is a jump (10_state.md R25). -/
def State.setReg (s : State) (r : Reg) (v : Word) : State := { s with regs := s.regs.set r v }

/-- Move the pc past an instruction of `bytes` bytes before its operands are read (R25, 30_encoding.md R90 step 5). -/
def State.advance (s : State) (bytes : Word) : State := s.setReg .pc (s.reg .pc + bytes)

/-- The four flags as the 4-bit register a host displays, test in bit 3 (10_state.md R30). -/
def Flags.toBits (f : Flags) : BitVec 4 :=
  BitVec.ofBool f.test ++ BitVec.ofBool f.overflow ++ BitVec.ofBool f.nan ++ BitVec.ofBool f.error

/-! ## Memory (20_memory.md R50 to R63) -/

/-- MEM_SIZE (00_scope.md R5). -/
def memSize : Nat := 4096

/-- The canonical form of main memory. -/
def Memory.wf (m : List Host.Cell) : Bool := Sparse.wf memSize m

/-- An access of `n` bytes at `addr` is in range: `addr + n - 1 <= 0x0FFF`, without wrap-around (R53). -/
def inRange (addr : Word) (n : Nat) : Bool := decide (addr.toNat + n ≤ memSize)

/-- The byte `M[a]`, for the index `a` of a byte (R50). -/
def State.byteAt (s : State) (a : Nat) : Byte := Sparse.read s.mem a

/-- The state with `M[a] = b`. -/
def State.setByte (s : State) (a : Nat) (b : Byte) : State := { s with mem := Sparse.write s.mem a b }

/-- `MemRead(addr, 1)` (R54). -/
def State.readByte (s : State) (addr : Word) : Except FaultReport Byte :=
  if inRange addr 1 then .ok (s.byteAt addr.toNat) else .error (.addressFault addr)

/-- `MemRead(addr, 2)` (R55). -/
def State.readWord (s : State) (addr : Word) : Except FaultReport Word :=
  if inRange addr 2 then
    .ok (wordOfBytes s.params.bigEndian (s.byteAt addr.toNat) (s.byteAt (addr.toNat + 1)))
  else .error (.addressFault addr)

/-- `MemWrite(addr, 1, v)`: the low byte of `v` (R56). -/
def State.writeByte (s : State) (addr : Word) (v : Word) : Except FaultReport State :=
  if inRange addr 1 then .ok (s.setByte addr.toNat (loByte v)) else .error (.addressFault addr)

/-- `MemWrite(addr, 2, v)` (R57). -/
def State.writeWord (s : State) (addr : Word) (v : Word) : Except FaultReport State :=
  if inRange addr 2 then
    .ok ((s.setByte addr.toNat (firstByte s.params.bigEndian v)).setByte (addr.toNat + 1)
      (secondByte s.params.bigEndian v))
  else .error (.addressFault addr)

/-! ## Byte sequences, as MTOS reads and writes them (48_io_and_syscalls.md R244) -/

/-- The `n` bytes from `addr` on, each address taken modulo 65536. -/
def State.readBytes (s : State) : Nat → Word → Except FaultReport (List Byte)
  | 0, _ => .ok []
  | n + 1, addr => do
    let b ← s.readByte addr
    let rest ← s.readBytes n (addr + 1)
    pure (b :: rest)

/-- Store the bytes from `addr` on, each address taken modulo 65536; nothing is stored if one is out of range. -/
def State.writeBytes (s : State) (addr : Word) : List Byte → Except FaultReport State
  | [] => .ok s
  | b :: rest => do
    let t ← s.writeByte addr (b.setWidth 16)
    t.writeBytes (addr + 1) rest

/-- The null terminated string at `addr`, looking at no more than `fuel` bytes. -/
def State.readStringFuel (s : State) : Nat → Word → Except FaultReport (List Byte)
  | 0, addr => .error (.addressFault addr)
  | fuel + 1, addr => do
    let b ← s.readByte addr
    if b = 0 then pure []
    else do
      let rest ← s.readStringFuel fuel (addr + 1)
      pure (b :: rest)

/-- "A null terminated string at address p" (R244). The 4096 bytes of memory and the address after them are all that a
string can reach, so the fuel never runs out first. -/
def State.readString (s : State) (addr : Word) : Except FaultReport (List Byte) :=
  s.readStringFuel (memSize + 1) addr

/-! ## The display (10_state.md R42) -/

/-- Columns of the display. -/
def screenWidth : Nat := 160

/-- Rows of the display. -/
def screenHeight : Nat := 140

/-- The number of pixels. -/
def pixelCount : Nat := screenWidth * screenHeight

/-- The canonical form of a pixel array. -/
def Pixels.wf (m : List (Nat × BitVec 2)) : Bool := Sparse.wf pixelCount m

/-- The key of pixel (x, y): row by row. -/
def pixelKey (x y : Nat) : Nat := y * screenWidth + x

/-- The location (x, y) names a pixel (R42, 48_io_and_syscalls.md R256). -/
def onScreen (x y : Int) : Bool := decide (0 ≤ x ∧ x ≤ 159 ∧ 0 ≤ y ∧ y ≤ 139)

/-- `FB[x][y]`, or 0 outside the display (R256). -/
def State.pixel (s : State) (x y : Int) : BitVec 2 :=
  if onScreen x y then Sparse.read s.frameBuffer (pixelKey x.toNat y.toNat) else 0

/-- `FB[x][y] <- c`, or nothing outside the display (R257). -/
def State.setPixel (s : State) (x y : Int) (c : BitVec 2) : State :=
  if onScreen x y then
    { s with frameBuffer := Sparse.write s.frameBuffer (pixelKey x.toNat y.toNat) c }
  else s

/-! ## Draws (00_scope.md R9) -/

/-- Use one draw. -/
def State.drawn (s : State) : State := { s with draws := s.draws + 1 }

/-! ## Taking a fault (60_exceptions.md R271) -/

/-- What a fault adds to the console: `ProgramAbort` alone adds an item (R271, R275; log 30). -/
def FaultReport.consoleItems : FaultReport → List ConsoleItem
  | .programAbort message => [.error message]
  | .illegalInstruction _ | .addressFault _ | .unknownSyscall _ | .hostError _ => []

/-- Take a fault. `s` is the state before the step, but for `ir` and `dr`, which a fault leaves unspecified: registers,
memory, the display and the other flags keep their values, the error bit is set, the status becomes `Errored` (R271). There
is no handler and no way back (R282): the run is over, so no operation of the machine stands beside this one. -/
def State.raise (s : State) (f : FaultReport) : State :=
  { s with
    flags := { s.flags with error := true }
    status := .errored f
    ir := Config.irAfterFault s.draws
    dr := Config.drAfterFault s.draws
    console := s.console ++ f.consoleItems
    draws := s.draws + 1 }

/-- End a meaning: the state it computed, or the fault it met, taken from the state `s` before the instruction, so that a
fault leaves no partial effect (20_memory.md R63). -/
def finish (s : State) (r : Except FaultReport State) : Result :=
  match r with
  | .ok t => .next t
  | .error f => .next (s.raise f)

end Sys2Proof.Machine
end

