-- ==== Sys2Proof/Machine/Operands.lean ====
section
/-! DEFINITION. The operand forms: immediates (30_encoding.md R85), effective addresses (20_memory.md R58) and the value
of a byte load. -/

namespace Sys2Proof.Machine

/-- The length in bytes of a one-word instruction (30_encoding.md R84, R90). -/
def oneWord : Word := 2#16

/-- The length in bytes of a two-word instruction (R84, R90). -/
def twoWord : Word := 4#16

/-- A 4-bit immediate: `zext_4`, 0 to 15 (R85). -/
def imm4 (v : Nibble) : Word := v.setWidth 16

/-- A 12-bit jump target: `zext_12`, an absolute byte address (R85). -/
def target12 (t : BitVec 12) : Word := t.setWidth 16

/-- The address of LOAD/STORE REGISTER: address register plus offset register, modulo 65536 (44_load_store_register.md
R191). -/
def State.regAddr (s : State) (a o : Reg) : Word := s.reg a + s.reg o

/-- The address of the offset forms of LOAD/STORE: data word plus offset register, modulo 65536 (45_load_store.md R201). -/
def State.offsetAddr (s : State) (addr : Word) (o : Reg) : Word := addr + s.reg o

/-- The address of the word number `n` from the top of the stack whose pointer is `top` (42_stack.md R150). -/
def stackSlot (top : Word) (n : Nat) : Word := top + BitVec.ofNat 16 (2 * n)

/-- The address a push stores to (42_stack.md R150). -/
def pushSlot (top : Word) : Word := top - 2#16

/-- The value a byte load leaves in its register (44_load_store_register.md R193). -/
def extendByte (p : Params) (b : Byte) : Word :=
  if p.lbSignExtend then b.signExtend 16 else b.setWidth 16

/-- The byte at `addr`, extended (R193, 45_load_store.md R204, R205). -/
def State.loadByte (s : State) (addr : Word) : Except FaultReport Word := do
  let b ← s.readByte addr
  pure (extendByte s.params b)

end Sys2Proof.Machine
end

