-- ==== Sys2Proof/Machine/Flags.lean ====
section
/-! DEFINITION. `AluOp`, the function every ALU instruction applies (41_alu.md R121), and every computation of a flag. -/

namespace Sys2Proof.Machine

/-- What `AluOp` returns (R121). -/
structure AluResult where
  res : Word
  ovf : Bool
  nan : Bool
deriving DecidableEq, Repr

/-- An integer lies outside the signed 16-bit range: `not fits(n)` (R121). -/
def outOfRange16 (n : Int) : Bool := decide (n < -32768 ∨ 32767 < n)

/-- A result with neither overflow nor nan. -/
def plainResult (res : Word) : AluResult := { res := res, ovf := false, nan := false }

/-- `add`, R121. -/
def aluAdd (a b : Word) : AluResult := { res := a + b, ovf := outOfRange16 (sint a + sint b), nan := false }

/-- `sub`, R121. -/
def aluSub (a b : Word) : AluResult := { res := a - b, ovf := outOfRange16 (sint a - sint b), nan := false }

/-- `mul`: the low 16 bits of the signed product, R121. -/
def aluMul (a b : Word) : AluResult :=
  { res := u16 (sint a * sint b), ovf := outOfRange16 (sint a * sint b), nan := false }

/-- `div`: signed, rounded toward zero; by zero the result is a draw and nan is set, R121. -/
def aluDiv (div0 : Word) (a b : Word) : AluResult :=
  if b = 0 then { res := div0, ovf := false, nan := true }
  else { res := u16 ((sint a).tdiv (sint b)), ovf := outOfRange16 ((sint a).tdiv (sint b)), nan := false }

/-- `mod`: the remainder of the truncating division; by zero the result is a draw and nan is set, R121. -/
def aluMod (div0 : Word) (a b : Word) : AluResult :=
  if b = 0 then { res := div0, ovf := false, nan := true }
  else plainResult (u16 (sint a - sint b * (sint a).tdiv (sint b)))

/-- `shl`: zeros shifted in; the amount is unsigned and 16 or more gives 0, R121, R132. -/
def aluShl (a b : Word) : AluResult := plainResult (if b.toNat < 16 then a <<< b.toNat else 0)

/-- `shr`: zeros or, under `SHR_ARITHMETIC`, copies of the sign bit shifted in, R121, R133. -/
def aluShr (p : Params) (a b : Word) : AluResult :=
  plainResult <|
    if p.shrArithmetic then
      if b.toNat < 16 then a.sshiftRight b.toNat else if a.msb then 0xFFFF#16 else 0
    else if b.toNat < 16 then a >>> b.toNat else 0

/-- `min`, signed, R121, R134. -/
def aluMin (a b : Word) : AluResult := plainResult (if sint a ≤ sint b then a else b)

/-- `max`, signed, R121, R135. -/
def aluMax (a b : Word) : AluResult := plainResult (if sint a ≥ sint b then a else b)

/-- `lnot`, R121, R137. -/
def aluLnot (a : Word) : AluResult := plainResult (if a = 0 then 1 else 0)

/-- `neg`, R121, R138. -/
def aluNeg (a : Word) : AluResult := { res := 0 - a, ovf := decide (a = 0x8000#16), nan := false }

/-- `AluOp(op, a, b)` (R121); `div0` is what a division by zero leaves, and a unary operation ignores `b`. -/
def aluOp (p : Params) (div0 : Word) (op : AluOp) (a b : Word) : AluResult :=
  match op with
  | .add => aluAdd a b
  | .sub => aluSub a b
  | .mul => aluMul a b
  | .div => aluDiv div0 a b
  | .mod => aluMod div0 a b
  | .and => plainResult (a &&& b)
  | .or => plainResult (a ||| b)
  | .xor => plainResult (a ^^^ b)
  | .shl => aluShl a b
  | .shr => aluShr p a b
  | .min => aluMin a b
  | .max => aluMax a b
  | .not => plainResult (a ^^^ 0xFFFF#16)
  | .lnot => aluLnot a
  | .neg => aluNeg a

/-- `AluOp` with the machine's parameters and its next draw. -/
def State.alu (s : State) (op : AluOp) (a b : Word) : AluResult :=
  aluOp s.params (Config.div0Result s.draws a) op a b

/-- `WriteAluFlags(res, ovf, nan)` (R122); a division by zero has used one draw. -/
def State.writeAluFlags (s : State) (r : AluResult) : State :=
  { s with
    flags := { s.flags with test := decide (r.res ≠ 0), overflow := r.ovf, nan := r.nan }
    draws := if r.nan then s.draws + 1 else s.draws }

/-- The flags `inc` and `dec` write: overflow, and test only under `INC_DEC_WRITE_TEST` (40_misc.md R113, R114). -/
def State.writeIncDecFlags (s : State) (res : Word) (exact : Int) : State :=
  { s with
    flags :=
      { s.flags with
        overflow := outOfRange16 exact
        test := if s.params.incDecWriteTest then decide (res ≠ 0) else s.flags.test } }

/-- The one flag a TEST instruction writes (43_test.md R170). -/
def State.writeTest (s : State) (outcome : Bool) : State := { s with flags := { s.flags with test := outcome } }

end Sys2Proof.Machine
end

