-- ==== Sys2Proof/Machine/Alu.lean ====
section
/-! DEFINITION. The ALU instructions (41_alu.md). -/

namespace Sys2Proof.Machine

/-- The binary register form: `rrrr = rrrr OP ssss`, both operands read before the write (R123). -/
def aluBinary (op : AluOp) (r q : Reg) (s : State) : Result :=
  let t := s.advance oneWord
  let result := t.alu op (t.reg r) (t.reg q)
  .next ((t.setReg r result.res).writeAluFlags result)

/-- The unary register form (R123). -/
def aluUnary (op : AluOp) (r : Reg) (s : State) : Result :=
  let t := s.advance oneWord
  let result := t.alu op (t.reg r) 0
  .next ((t.setReg r result.res).writeAluFlags result)

/-- `add` (R124). -/
def execAdd (r q : Reg) (s : State) : Result := aluBinary .add r q s

/-- `sub` (R125). -/
def execSub (r q : Reg) (s : State) : Result := aluBinary .sub r q s

/-- `mul` (R126). -/
def execMul (r q : Reg) (s : State) : Result := aluBinary .mul r q s

/-- `div` (R127). -/
def execDiv (r q : Reg) (s : State) : Result := aluBinary .div r q s

/-- `mod` (R128). -/
def execMod (r q : Reg) (s : State) : Result := aluBinary .mod r q s

/-- `and` (R129). -/
def execAnd (r q : Reg) (s : State) : Result := aluBinary .and r q s

/-- `or` (R130). -/
def execOr (r q : Reg) (s : State) : Result := aluBinary .or r q s

/-- `xor` (R131). -/
def execXor (r q : Reg) (s : State) : Result := aluBinary .xor r q s

/-- `shl` (R132). -/
def execShl (r q : Reg) (s : State) : Result := aluBinary .shl r q s

/-- `shr` (R133). -/
def execShr (r q : Reg) (s : State) : Result := aluBinary .shr r q s

/-- `min` (R134). -/
def execMin (r q : Reg) (s : State) : Result := aluBinary .min r q s

/-- `max` (R135). -/
def execMax (r q : Reg) (s : State) : Result := aluBinary .max r q s

/-- `not` (R136). -/
def execNot (r : Reg) (s : State) : Result := aluUnary .not r s

/-- `lnot` (R137). -/
def execLnot (r : Reg) (s : State) : Result := aluUnary .lnot r s

/-- `neg` (R138). -/
def execNeg (r : Reg) (s : State) : Result := aluUnary .neg r s

/-- `imm` (R139): the register is the left operand, the data word the right. The decoder gives a binary operation alone; a
term with a unary one is the illegal word it encodes to (30_encoding.md R88; log 13). -/
def execImm (op : AluOp) (r : Reg) (value : Word) (s : State) : Result :=
  if op.isBinary then
    let t := s.advance twoWord
    let result := t.alu op (t.reg r) value
    .next ((t.setReg r result.res).writeAluFlags result)
  else .next (s.raise (.illegalInstruction (encodeFirst (.imm op r value))))

end Sys2Proof.Machine
end

