-- ==== Sys2Proof/Machine/Compare.lean ====
section
/-! DEFINITION. The TEST instructions (43_test.md). -/

namespace Sys2Proof.Machine

/-- Compare a register with the value `b` the operands give, and write the test bit alone (R170, R171). -/
def testWith (rel : Word → Word → Bool) (r : Reg) (b : State → Word) (s : State) : Result :=
  let t := s.advance oneWord
  .next (t.writeTest (rel (t.reg r) (b t)))

/-- The register forms: compare with a register (R170). -/
def testRegister (rel : Word → Word → Bool) (r q : Reg) (s : State) : Result := testWith rel r (fun t => t.reg q) s

/-- The immediate forms: compare with an unsigned 4-bit value (R171). -/
def testImmediate (rel : Word → Word → Bool) (r : Reg) (v : Nibble) (s : State) : Result :=
  testWith rel r (fun _ => imm4 v) s

/-- Equal (R172, R178). -/
def relEq (a b : Word) : Bool := decide (a = b)

/-- Not equal (R173, R179). -/
def relNeq (a b : Word) : Bool := decide (a ≠ b)

/-- Greater, signed (R174, R180). -/
def relGt (a b : Word) : Bool := decide (sint a > sint b)

/-- Greater or equal, signed (R175, R181). -/
def relGte (a b : Word) : Bool := decide (sint a ≥ sint b)

/-- Less, signed (R176, R182). -/
def relLt (a b : Word) : Bool := decide (sint a < sint b)

/-- Less or equal, signed (R177, R183). -/
def relLte (a b : Word) : Bool := decide (sint a ≤ sint b)

/-- `eq` (R172). -/
def execEq (r q : Reg) (s : State) : Result := testRegister relEq r q s

/-- `neq` (R173). -/
def execNeq (r q : Reg) (s : State) : Result := testRegister relNeq r q s

/-- `gt` (R174). -/
def execGt (r q : Reg) (s : State) : Result := testRegister relGt r q s

/-- `gte` (R175). -/
def execGte (r q : Reg) (s : State) : Result := testRegister relGte r q s

/-- `lt` (R176). -/
def execLt (r q : Reg) (s : State) : Result := testRegister relLt r q s

/-- `lte` (R177). -/
def execLte (r q : Reg) (s : State) : Result := testRegister relLte r q s

/-- `eqi` (R178). -/
def execEqi (r : Reg) (v : Nibble) (s : State) : Result := testImmediate relEq r v s

/-- `neqi` (R179). -/
def execNeqi (r : Reg) (v : Nibble) (s : State) : Result := testImmediate relNeq r v s

/-- `gti` (R180). -/
def execGti (r : Reg) (v : Nibble) (s : State) : Result := testImmediate relGt r v s

/-- `gtei` (R181). -/
def execGtei (r : Reg) (v : Nibble) (s : State) : Result := testImmediate relGte r v s

/-- `lti` (R182). -/
def execLti (r : Reg) (v : Nibble) (s : State) : Result := testImmediate relLt r v s

/-- `ltei` (R183). -/
def execLtei (r : Reg) (v : Nibble) (s : State) : Result := testImmediate relLte r v s

end Sys2Proof.Machine
end

