-- ==== Sys2Proof/Machine/Jump.lean ====
section
/-! DEFINITION. `jr` (46_jump_register.md) and the JUMP instructions (47_jump.md). A bad target faults at the next fetch,
never at the jump (47_jump.md R225). -/

namespace Sys2Proof.Machine

/-- `jr` (R216): the whole register, read after the pc has advanced. -/
def execJr (r : Reg) (s : State) : Result :=
  let t := s.advance oneWord
  .next (t.setReg .pc (t.reg r))

/-- `j` (R221). -/
def execJ (target : BitVec 12) (s : State) : Result := .next ((s.advance oneWord).setReg .pc (target12 target))

/-- Jump if the test bit has the value asked for (R222, R223). -/
def jumpIfTest (wanted : Bool) (target : BitVec 12) (s : State) : Result :=
  let t := s.advance oneWord
  .next (if t.flags.test = wanted then t.setReg .pc (target12 target) else t)

/-- `jz` (R222). -/
def execJz (target : BitVec 12) (s : State) : Result := jumpIfTest false target s

/-- `jnz` (R223). -/
def execJnz (target : BitVec 12) (s : State) : Result := jumpIfTest true target s

/-- `jal` (R224): `ra` gets the address of the next instruction. -/
def execJal (target : BitVec 12) (s : State) : Result :=
  let t := s.advance oneWord
  .next ((t.setReg .ra (t.reg .pc)).setReg .pc (target12 target))

end Sys2Proof.Machine
end

