-- ==== Sys2Proof/Machine/LoadStore.lean ====
section
/-! DEFINITION. The LOAD/STORE REGISTER instructions (44_load_store_register.md) and the LOAD/STORE instructions
(45_load_store.md). -/

namespace Sys2Proof.Machine

/-- Load the word at `addr` into a register (R192, R202, R203); `t` has its pc advanced, a fault is taken from `s`. -/
def loadWordInto (s t : State) (r : Reg) (addr : Word) : Result :=
  finish s <| do
    let v ← t.readWord addr
    pure (t.setReg r v)

/-- Load the byte at `addr`, extended, into a register (R193, R204, R205). -/
def loadByteInto (s t : State) (r : Reg) (addr : Word) : Result :=
  finish s <| do
    let v ← t.loadByte addr
    pure (t.setReg r v)

/-- Store a register's word at `addr` (R194, R206, R207). -/
def storeWordFrom (s t : State) (r : Reg) (addr : Word) : Result := finish s (t.writeWord addr (t.reg r))

/-- Store the low byte of a register at `addr` (R195, R208, R209). -/
def storeByteFrom (s t : State) (r : Reg) (addr : Word) : Result := finish s (t.writeByte addr (t.reg r))

/-- `lwr` (R192). -/
def execLwr (r a o : Reg) (s : State) : Result :=
  let t := s.advance oneWord
  loadWordInto s t r (t.regAddr a o)

/-- `lbr` (R193). -/
def execLbr (r a o : Reg) (s : State) : Result :=
  let t := s.advance oneWord
  loadByteInto s t r (t.regAddr a o)

/-- `swr` (R194). -/
def execSwr (r a o : Reg) (s : State) : Result :=
  let t := s.advance oneWord
  storeWordFrom s t r (t.regAddr a o)

/-- `sbr` (R195). -/
def execSbr (r a o : Reg) (s : State) : Result :=
  let t := s.advance oneWord
  storeByteFrom s t r (t.regAddr a o)

/-- `lw` (R202): the address is the data word. -/
def execLw (r : Reg) (addr : Word) (s : State) : Result :=
  loadWordInto s (s.advance twoWord) r addr

/-- `lwo` (R203): the address is the data word plus an offset register. -/
def execLwo (r : Reg) (addr : Word) (o : Reg) (s : State) : Result :=
  let t := s.advance twoWord
  loadWordInto s t r (t.offsetAddr addr o)

/-- `lb` (R204): the address is the data word. -/
def execLb (r : Reg) (addr : Word) (s : State) : Result :=
  loadByteInto s (s.advance twoWord) r addr

/-- `lbo` (R205): the address is the data word plus an offset register. -/
def execLbo (r : Reg) (addr : Word) (o : Reg) (s : State) : Result :=
  let t := s.advance twoWord
  loadByteInto s t r (t.offsetAddr addr o)

/-- `sw` (R206): the address is the data word. -/
def execSw (r : Reg) (addr : Word) (s : State) : Result :=
  storeWordFrom s (s.advance twoWord) r addr

/-- `swo` (R207): the address is the data word plus an offset register. -/
def execSwo (r : Reg) (addr : Word) (o : Reg) (s : State) : Result :=
  let t := s.advance twoWord
  storeWordFrom s t r (t.offsetAddr addr o)

/-- `sb` (R208): the address is the data word. -/
def execSb (r : Reg) (addr : Word) (s : State) : Result :=
  storeByteFrom s (s.advance twoWord) r addr

/-- `sbo` (R209): the address is the data word plus an offset register. -/
def execSbo (r : Reg) (addr : Word) (o : Reg) (s : State) : Result :=
  let t := s.advance twoWord
  storeByteFrom s t r (t.offsetAddr addr o)

/-- `li` (R210): the data word is the value. -/
def execLi (r : Reg) (value : Word) (s : State) : Result := .next ((s.advance twoWord).setReg r value)

end Sys2Proof.Machine
end

