-- ==== Sys2Proof/Machine/Misc.lean ====
section
/-! DEFINITION. The MISC instructions but for `sys` (40_misc.md). A meaning is given the state before the pc moves: it
advances the pc first (30_encoding.md R90 step 5), so a read of `pc` sees the advanced value (10_state.md R25). -/

namespace Sys2Proof.Machine

/-- `mov` (R112). -/
def execMov (r q : Reg) (s : State) : Result :=
  let t := s.advance oneWord
  .next (t.setReg r (t.reg q))

/-- `inc` (R113). -/
def execInc (r : Reg) (v : Nibble) (s : State) : Result :=
  let t := s.advance oneWord
  let a := t.reg r
  let res := a + imm4 v
  .next ((t.setReg r res).writeIncDecFlags res (sint a + (v.toNat : Int)))

/-- `dec` (R114). -/
def execDec (r : Reg) (v : Nibble) (s : State) : Result :=
  let t := s.advance oneWord
  let a := t.reg r
  let res := a - imm4 v
  .next ((t.setReg r res).writeIncDecFlags res (sint a - (v.toNat : Int)))

/-- `seti` (R115). -/
def execSeti (r : Reg) (v : Nibble) (s : State) : Result :=
  .next ((s.advance oneWord).setReg r (imm4 v))

/-- `nop` (R116). -/
def execNop (s : State) : Result := .next (s.advance oneWord)

end Sys2Proof.Machine
end

