-- ==== Sys2Proof/Machine/Services.lean ====
section
/-! DEFINITION. `sys` (40_misc.md R111) and the sixteen MTOS services (48_io_and_syscalls.md R240 to R266). A service runs
inside the step of its `sys` (R245), with the pc already advanced; each is given the state `t` so advanced and answers the
state it leaves, or the fault it meets. -/

namespace Sys2Proof.Machine

/-- The services of R241. -/
inductive Service where
  | halt | rint | wint | rstr | wstr | rfile | wfile | rnd | sleep
  | fbreset | fbstat | fbset | fbss | fbds | fbsync | error
deriving DecidableEq, Repr

/-- The service of a code whose number the source prints (R241). -/
def printedService (code : BitVec 8) : Option Service :=
  match code.toNat with
  | 0x00 => some .halt
  | 0x01 => some .rint
  | 0x02 => some .wint
  | 0x03 => some .rstr
  | 0x04 => some .wstr
  | 0x05 => some .rfile
  | 0x06 => some .wfile
  | 0x07 => some .rnd
  | 0x08 => some .sleep
  | 0x11 => some .fbreset
  | 0x12 => some .fbstat
  | 0x13 => some .fbset
  | 0x14 => some .fbss
  | 0xF0 => some .error
  | _ => none

/-- The service of a code: those printed, then `fbds` and `fbsync`, whose codes are parameters (R241, R258). -/
def serviceOf (p : Params) (code : BitVec 8) : Option Service :=
  match printedService code with
  | some v => some v
  | none => if code = p.sysFbds then some .fbds else if code = p.sysFbsync then some .fbsync else none

/-- The codes of `fbds` and `fbsync` are different and outside the other assigned codes
(93_implementation_defined.md U6). -/
def validParams (p : Params) : Bool :=
  decide (p.sysFbds ≠ p.sysFbsync) && (printedService p.sysFbds).isNone && (printedService p.sysFbsync).isNone

/-- Append an item to the console's output history (R262). -/
def State.consoleOut (t : State) (item : ConsoleItem) : State := { t with console := t.console ++ [item] }

/-- `halt` (R246). -/
def svcHalt (t : State) : State := { t with status := .halted }

/-- `rint` (R247): any 16-bit value. -/
def svcRint (t : State) : State := (t.setReg .rv (Config.consoleInt t.draws)).drawn

/-- `wint` (R248). -/
def svcWint (t : State) : State := t.consoleOut (.int (sint (t.reg .a0)))

/-- The bytes a read service stores and their number in `rv` (R249, R251). -/
def State.deliver (t : State) (bytes : List Byte) (stored : List Byte) : Except FaultReport State := do
  let u ← t.writeBytes (t.reg .a0) stored
  pure (u.setReg .rv (BitVec.ofNat 16 bytes.length)).drawn

/-- `ConsoleReadString(max)`: at most `max` bytes (R249, R262). -/
def State.consoleString (t : State) (max : Nat) : List Byte := (Config.consoleString t.draws max).take max

/-- `rstr` (R249). -/
def svcRstr (t : State) : Except FaultReport State :=
  let bytes := t.consoleString (t.reg .a1).toNat
  t.deliver bytes (if t.params.rstrWritesNul then bytes ++ [0] else bytes)

/-- `wstr` (R250). DESIGN CHOICE (log 40): the pseudocode appends `Str(s)` without a condition and the corner case says an
empty string "writes nothing"; the model appends the item `.str []`, an item that holds no bytes. -/
def svcWstr (t : State) : Except FaultReport State := do
  let bytes ← t.readString (t.reg .a0)
  pure (t.consoleOut (.str bytes))

/-- `FileRead(name, max)`: `Fail` (none) or at most `max` bytes (R251, R265). -/
def State.fileRead (t : State) (name : List Byte) (max : Nat) : Option (List Byte) :=
  (Config.fileRead t.draws name max).map (List.take max)

/-- `rfile` (R251). -/
def svcRfile (t : State) : Except FaultReport State := do
  let name ← t.readString (t.reg .a2)
  match t.fileRead name (t.reg .a1).toNat with
  | none => .error (.hostError 0x05#8)
  | some bytes => t.deliver bytes bytes

/-- Record a file write that the host has carried out (R252, R265). -/
def State.fileWritten (t : State) (e : FileEffect) : State := { t with fileEffects := t.fileEffects ++ [e] }

/-- `wfile` (R252). -/
def svcWfile (t : State) : Except FaultReport State := do
  let name ← t.readString (t.reg .a2)
  let contents ← t.readBytes (t.reg .a1).toNat (t.reg .a0)
  if Config.fileWrite t.draws name contents then
    pure (t.fileWritten { name := name, contents := contents }).drawn
  else .error (.hostError 0x06#8)

/-- A number drawn between two bounds, both included, or any 16-bit value if the bounds are in the wrong order (R253):
every number of the range is the answer for some `d`. -/
def randomBetween (lo hi : Int) (d : Nat) : Word :=
  if lo ≤ hi then u16 (lo + ((d % ((hi - lo).toNat + 1) : Nat) : Int)) else BitVec.ofNat 16 d

/-- `rnd` (R253). -/
def svcRnd (t : State) : State :=
  (t.setReg .rv (randomBetween (sint (t.reg .a0)) (sint (t.reg .a1)) (Config.random t.draws))).drawn

/-- `sleep` (R254): no change of state. -/
def svcSleep (t : State) : State := t

/-- Replace the whole frame buffer. -/
def State.withFrame (t : State) (frame : List (Nat × BitVec 2)) : State := { t with frameBuffer := frame }

/-- `fbreset` (R255). -/
def svcFbreset (t : State) : State := t.withFrame []

/-- `fbstat` (R256). -/
def svcFbstat (t : State) : State :=
  t.setReg .rv ((t.pixel (sint (t.reg .a0)) (sint (t.reg .a1))).setWidth 16)

/-- The pixel value of `fbset`: 0 to 3, anything else is 0 (R257). -/
def pixelValue (v : Word) : BitVec 2 := if v.toNat < 4 then v.setWidth 2 else 0

/-- `fbset` (R257): the value is in `a3`. -/
def svcFbset (t : State) : State := t.setPixel (sint (t.reg .a0)) (sint (t.reg .a1)) (pixelValue (t.reg .a3))

/-- `FB <- any value` (R258, R259): every pixel is the draw's. -/
def State.anyFrame (t : State) : State :=
  (t.withFrame (Sparse.tabulate pixelCount (Config.spritePixel t.draws))).drawn

/-- `fbss` (R258). -/
def svcFbss (t : State) : State := t.anyFrame

/-- `fbds` (R259). -/
def svcFbds (t : State) : State := t.anyFrame

/-- `fbsync` (R260). -/
def svcFbsync (t : State) : State := { t with screen := t.frameBuffer }

/-- `error` (R261): it always ends in a fault. -/
def svcError (t : State) : Except FaultReport State := do
  let message ← t.readString (t.reg .a0)
  .error (.programAbort message)

/-- Perform a service (R241). -/
def Service.perform (v : Service) (t : State) : Except FaultReport State :=
  match v with
  | .halt => .ok (svcHalt t)
  | .rint => .ok (svcRint t)
  | .wint => .ok (svcWint t)
  | .rstr => svcRstr t
  | .wstr => svcWstr t
  | .rfile => svcRfile t
  | .wfile => svcWfile t
  | .rnd => .ok (svcRnd t)
  | .sleep => .ok (svcSleep t)
  | .fbreset => .ok (svcFbreset t)
  | .fbstat => .ok (svcFbstat t)
  | .fbset => .ok (svcFbset t)
  | .fbss => .ok (svcFbss t)
  | .fbds => .ok (svcFbds t)
  | .fbsync => .ok (svcFbsync t)
  | .error => svcError t

/-- `sys` (R111, R242). -/
def execSys (code : BitVec 8) (s : State) : Result :=
  match serviceOf s.params code with
  | some v => finish s (v.perform (s.advance oneWord))
  | none => .next (s.raise (.unknownSyscall code))

end Sys2Proof.Machine
end

