-- ==== Sys2Proof/Machine/Stack.lean ====
section
/-! DEFINITION. The STACK instructions (42_stack.md). Every word they touch is read, or its address checked, before any
write; a fault is taken from the state before the instruction (20_memory.md R63). -/

namespace Sys2Proof.Machine

/-- Store a word below the top and move the pointer to it (R150). -/
def State.pushWord (t : State) (p : Reg) (v : Word) : Except FaultReport State := do
  let slot := pushSlot (t.reg p)
  let u ← t.writeWord slot v
  pure (u.setReg p slot)

/-- `push` (R151): the value is read before the pointer moves. -/
def execPush (r p : Reg) (s : State) : Result :=
  let t := s.advance oneWord
  finish s (t.pushWord p (t.reg r))

/-- `pop` (R152): the destination is written last. -/
def execPop (r p : Reg) (s : State) : Result :=
  let t := s.advance oneWord
  let top := t.reg p
  finish s <| do
    let v ← t.readWord top
    pure ((t.setReg p (stackSlot top 1)).setReg r v)

/-- `dup` (R153). -/
def execDup (p : Reg) (s : State) : Result :=
  let t := s.advance oneWord
  finish s <| do
    let v ← t.readWord (t.reg p)
    t.pushWord p v

/-- `swap` (R154). -/
def execSwap (p : Reg) (s : State) : Result :=
  let t := s.advance oneWord
  let top := t.reg p
  finish s <| do
    let v0 ← t.readWord top
    let v1 ← t.readWord (stackSlot top 1)
    let t ← t.writeWord top v1
    t.writeWord (stackSlot top 1) v0

/-- `drop` (R155): no memory access. -/
def execDrop (p : Reg) (s : State) : Result :=
  let t := s.advance oneWord
  .next (t.setReg p (stackSlot (t.reg p) 1))

/-- `over` (R156). -/
def execOver (p : Reg) (s : State) : Result :=
  let t := s.advance oneWord
  finish s <| do
    let v1 ← t.readWord (stackSlot (t.reg p) 1)
    t.pushWord p v1

/-- `rot` (R157). -/
def execRot (p : Reg) (s : State) : Result :=
  let t := s.advance oneWord
  let top := t.reg p
  finish s <| do
    let v0 ← t.readWord top
    let v1 ← t.readWord (stackSlot top 1)
    let v2 ← t.readWord (stackSlot top 2)
    let t ← t.writeWord top v2
    let t ← t.writeWord (stackSlot top 1) v0
    t.writeWord (stackSlot top 2) v1

/-- `sop` with a binary operation: the second word is the left operand, the top the right one (R158). -/
def State.sopBinary (t : State) (op : AluOp) (p : Reg) : Except FaultReport State := do
  let top := t.reg p
  let b ← t.readWord top
  let a ← t.readWord (stackSlot top 1)
  let result := t.alu op a b
  let u ← t.writeWord (stackSlot top 1) result.res
  pure ((u.setReg p (stackSlot top 1)).writeAluFlags result)

/-- `sop` with a unary operation (R158). -/
def State.sopUnary (t : State) (op : AluOp) (p : Reg) : Except FaultReport State := do
  let top := t.reg p
  let a ← t.readWord top
  let result := t.alu op a 0
  let u ← t.writeWord top result.res
  pure (u.writeAluFlags result)

/-- `sop` (R158). -/
def execSop (op : AluOp) (p : Reg) (s : State) : Result :=
  let t := s.advance oneWord
  finish s (if op.isBinary then t.sopBinary op p else t.sopUnary op p)

/-- `pushi` (R159). -/
def execPushi (value : Word) (p : Reg) (s : State) : Result :=
  finish s ((s.advance twoWord).pushWord p value)

end Sys2Proof.Machine
end

