-- ==== Sys2Proof/Machine/Dispatch.lean ====
section
/-! DEFINITION. One arm for each constructor of Instr: its meaning, given the state before the pc moves. -/

namespace Sys2Proof.Machine

def exec (i : Instr) (s : State) : Host.Outcome State Fault Refusal :=
  match i with
  | .sys code => Sys2Proof.Machine.execSys code s
  | .mov r q => Sys2Proof.Machine.execMov r q s
  | .inc r v => Sys2Proof.Machine.execInc r v s
  | .dec r v => Sys2Proof.Machine.execDec r v s
  | .seti r v => Sys2Proof.Machine.execSeti r v s
  | .nop => Sys2Proof.Machine.execNop s
  | .add r q => Sys2Proof.Machine.execAdd r q s
  | .sub r q => Sys2Proof.Machine.execSub r q s
  | .mul r q => Sys2Proof.Machine.execMul r q s
  | .div r q => Sys2Proof.Machine.execDiv r q s
  | .mod r q => Sys2Proof.Machine.execMod r q s
  | .and r q => Sys2Proof.Machine.execAnd r q s
  | .or r q => Sys2Proof.Machine.execOr r q s
  | .xor r q => Sys2Proof.Machine.execXor r q s
  | .shl r q => Sys2Proof.Machine.execShl r q s
  | .shr r q => Sys2Proof.Machine.execShr r q s
  | .min r q => Sys2Proof.Machine.execMin r q s
  | .max r q => Sys2Proof.Machine.execMax r q s
  | .not r => Sys2Proof.Machine.execNot r s
  | .lnot r => Sys2Proof.Machine.execLnot r s
  | .neg r => Sys2Proof.Machine.execNeg r s
  | .imm op r value => Sys2Proof.Machine.execImm op r value s
  | .push r p => Sys2Proof.Machine.execPush r p s
  | .pop r p => Sys2Proof.Machine.execPop r p s
  | .dup p => Sys2Proof.Machine.execDup p s
  | .swap p => Sys2Proof.Machine.execSwap p s
  | .drop p => Sys2Proof.Machine.execDrop p s
  | .overWord p => Sys2Proof.Machine.execOver p s
  | .rot p => Sys2Proof.Machine.execRot p s
  | .sop op p => Sys2Proof.Machine.execSop op p s
  | .pushi value p => Sys2Proof.Machine.execPushi value p s
  | .eq r q => Sys2Proof.Machine.execEq r q s
  | .neq r q => Sys2Proof.Machine.execNeq r q s
  | .gt r q => Sys2Proof.Machine.execGt r q s
  | .gte r q => Sys2Proof.Machine.execGte r q s
  | .lt r q => Sys2Proof.Machine.execLt r q s
  | .lte r q => Sys2Proof.Machine.execLte r q s
  | .eqi r v => Sys2Proof.Machine.execEqi r v s
  | .neqi r v => Sys2Proof.Machine.execNeqi r v s
  | .gti r v => Sys2Proof.Machine.execGti r v s
  | .gtei r v => Sys2Proof.Machine.execGtei r v s
  | .lti r v => Sys2Proof.Machine.execLti r v s
  | .ltei r v => Sys2Proof.Machine.execLtei r v s
  | .lwr r a o => Sys2Proof.Machine.execLwr r a o s
  | .lbr r a o => Sys2Proof.Machine.execLbr r a o s
  | .swr r a o => Sys2Proof.Machine.execSwr r a o s
  | .sbr r a o => Sys2Proof.Machine.execSbr r a o s
  | .lw r addr => Sys2Proof.Machine.execLw r addr s
  | .lwo r addr o => Sys2Proof.Machine.execLwo r addr o s
  | .lb r addr => Sys2Proof.Machine.execLb r addr s
  | .lbo r addr o => Sys2Proof.Machine.execLbo r addr o s
  | .sw r addr => Sys2Proof.Machine.execSw r addr s
  | .swo r addr o => Sys2Proof.Machine.execSwo r addr o s
  | .sb r addr => Sys2Proof.Machine.execSb r addr s
  | .sbo r addr o => Sys2Proof.Machine.execSbo r addr o s
  | .li r value => Sys2Proof.Machine.execLi r value s
  | .jr r => Sys2Proof.Machine.execJr r s
  | .j target => Sys2Proof.Machine.execJ target s
  | .jz target => Sys2Proof.Machine.execJz target s
  | .jnz target => Sys2Proof.Machine.execJnz target s
  | .jal target => Sys2Proof.Machine.execJal target s

end Sys2Proof.Machine
end

