-- ==== Sys2Proof/Machine/Fetch.lean ====
section
/-! DEFINITION. Fetching and decoding one instruction (30_encoding.md R90 steps 1 to 4, R91). -/

namespace Sys2Proof.Machine

/-- What a fetch answers. -/
inductive Fetched where
  /-- The fetch met a fault: of the first word, of the decoding, or of the data word, in this order (60_exceptions.md
  R280). -/
  | faulted (f : FaultReport)
  /-- An instruction, with what `ir` and `dr` hold while it executes (10_state.md R35, R36). -/
  | got (i : Instr) (ir dr : Word)
deriving DecidableEq, Repr

/-- The data word of a two-word instruction, from the address after its first word (R84, R90 step 4). -/
def State.fetchData (s : State) (i : Instr) (w : Word) : Fetched :=
  match s.readWord (s.reg .pc + 2#16) with
  | .ok d => .got (i.withData d) w d
  | .error f => .faulted f

/-- Fetch at the pc; a one-word instruction leaves `dr` as it was (10_state.md R36; log 29). -/
def State.fetch (s : State) : Fetched :=
  match s.readWord (s.reg .pc) with
  | .error f => .faulted f
  | .ok w =>
    match decodeFirst w with
    | none => .faulted (.illegalInstruction w)
    | some i => if i.twoWords then s.fetchData i w else .got i w s.dr

/-- The state in which a fetched instruction executes: `ir` and `dr` hold its words (R90). -/
def State.withFetched (s : State) (ir dr : Word) : State := { s with ir := ir, dr := dr }

end Sys2Proof.Machine
end

