-- ==== Sys2Proof/Machine/Launch.lean ====
section
/-! DEFINITION. Launch with any value of the launch parameters (10_state.md R45, 70_reset_and_hazards.md R300, R301).
`State.reset` is the launch with the spec's defaults and an empty image. -/

namespace Sys2Proof.Machine

/-- The launch parameters of 00_scope.md R6; `regs` holds INIT_REG, INIT_FP, INIT_SP, INIT_BP and INIT_PC, the image is a
list of addresses with the bytes that lie from there on. -/
structure LaunchParams where
  regs : Regs
  cb : Word
  db : Word
  ir : Word
  dr : Word
  image : List (Nat × List Byte)
  frame : List (Nat × BitVec 2)
  params : Params
deriving DecidableEq, Repr

/-- Memory with the bytes from `addr` on. -/
def placeBytes (m : List Host.Cell) (addr : Nat) : List Byte → List Host.Cell
  | [] => m
  | b :: rest => placeBytes (Sparse.write m addr b) (addr + 1) rest

/-- Memory with an image, every byte it does not cover 0; none if a part of it does not fit the 4096 bytes
(R301, 93_implementation_defined.md U33). -/
def placeImage (m : List Host.Cell) : List (Nat × List Byte) → Option (List Host.Cell)
  | [] => some m
  | (addr, bytes) :: rest =>
    if addr + bytes.length ≤ memSize then placeImage (placeBytes m addr bytes) rest else none

/-- The state at launch (R300): flags 0, status `Running`, histories empty, the rest as the parameters say; none if the
loader refuses the image. -/
def launch (l : LaunchParams) : Option State :=
  match placeImage [] l.image with
  | none => none
  | some m =>
    some
      { regs := l.regs
        flags := { test := false, overflow := false, nan := false, error := false }
        ir := l.ir
        dr := l.dr
        cb := l.cb
        db := l.db
        mem := m
        frameBuffer := l.frame
        screen := l.frame
        status := .running
        console := []
        fileEffects := []
        draws := 0
        params := l.params }

/-- The spec's default layout of a program (R301): loaded at 0x0000, code and then data, `cb` past the code, `db` and `bp`
past the data. -/
def LaunchParams.ofProgram (code data : List Byte) : LaunchParams where
  regs :=
    { t0 := initWord, t1 := initWord, t2 := initWord, t3 := initWord, t4 := initWord, t5 := initWord
      a0 := initWord, a1 := initWord, a2 := initWord, a3 := initWord
      rv := initWord, ra := initWord, fp := initFp, sp := initSp
      bp := BitVec.ofNat 16 (code.length + data.length), pc := initPc }
  cb := BitVec.ofNat 16 code.length
  db := BitVec.ofNat 16 (code.length + data.length)
  ir := initWord
  dr := initWord
  image := [(0, code ++ data)]
  frame := []
  params := Params.default

end Sys2Proof.Machine
end

