-- ==== Sys2Proof/Machine/Load.lean ====
section
/-! DEFINITION. Storing words where the next instruction is fetched. -/

namespace Sys2Proof.Machine

/-- Store a word at an address, or leave the state alone if it is out of range. -/
def State.pokeWord (s : State) (addr : Word) (v : Word) : State :=
  match s.writeWord addr v with
  | .ok t => t
  | .error _ => s

/-- Store the two words of an instruction at the pc and at the address after it. -/
def State.pokeInstr (s : State) (w0 w1 : Word) : State :=
  (s.pokeWord (s.reg .pc) w0).pokeWord (s.reg .pc + 2#16) w1

end Sys2Proof.Machine
end

