-- ==== Sys2Proof/Machine/Step.lean ====
section
/-! DEFINITION. One step of the processor (30_encoding.md R90). -/

namespace Sys2Proof.Machine

/-- A step exists only in status `Running` (10_state.md R40): fetch, decode and execute one instruction, or take the fault
the fetch met (R90, 60_exceptions.md R271). -/
def step (s : State) : Host.Outcome State Fault Refusal :=
  match s.status with
  | .halted => .fault .noStepHalted
  | .errored report => .fault (.noStepErrored report)
  | .running =>
    match s.fetch with
    | .faulted f => .next (s.raise f)
    | .got i ir dr => exec i (s.withFetched ir dr)

/-- The state with the instruction whose bits the opcode table numbers `w` (the bits from `nbits` up taken as 0) stored
where the next step fetches: at the pc (log 36). -/
def State.withFetchWord (s : State) (nbits w : Nat) : State := s.pokeInstr (tableFirst nbits w) (tableSecond nbits w)

end Sys2Proof.Machine
end

