-- ==== Sys2Proof/Safety.lean ====
section
/-! DEFINITION. The terms claims are made in: how a run ends, the invariant of the machine, the classes of instructions the
spec's whole-machine rules speak of, and what a frame says. -/

namespace Sys2Proof

/-! ## Classes of instructions -/

/-- `sys`, the one instruction that reaches MTOS and its devices (10_state.md R41). -/
def Instr.isSys : Instr → Bool
  | .sys _ => true
  | _ => false

/-- The instructions that apply `AluOp` and write test, overflow and nan (10_state.md R31 to R33). -/
def Instr.isAlu : Instr → Bool
  | .add _ _ | .sub _ _ | .mul _ _ | .div _ _ | .mod _ _ | .and _ _ | .or _ _ | .xor _ _ => true
  | .shl _ _ | .shr _ _ | .min _ _ | .max _ _ | .not _ | .lnot _ | .neg _ => true
  | .imm _ _ _ | .sop _ _ => true
  | _ => false

/-- The TEST instructions (43_test.md R170). -/
def Instr.isTest : Instr → Bool
  | .eq _ _ | .neq _ _ | .gt _ _ | .gte _ _ | .lt _ _ | .lte _ _ => true
  | .eqi _ _ | .neqi _ _ | .gti _ _ | .gtei _ _ | .lti _ _ | .ltei _ _ => true
  | _ => false

/-- `inc` and `dec`. -/
def Instr.isIncDec : Instr → Bool
  | .inc _ _ | .dec _ _ => true
  | _ => false

/-- The instructions of the "data write" rows of 20_memory.md R61, and `sys`, on whose behalf MTOS may write. -/
def Instr.mayWriteMemory : Instr → Bool
  | .swr _ _ _ | .sw _ _ | .swo _ _ _ | .sbr _ _ _ | .sb _ _ | .sbo _ _ _ => true
  | .push _ _ | .dup _ | .swap _ | .overWord _ | .rot _ | .sop _ _ | .pushi _ _ => true
  | .sys _ => true
  | _ => false

/-- The operations that divide. -/
def AluOp.divides : AluOp → Bool
  | .div | .mod => true
  | _ => false

end Sys2Proof

namespace Sys2Proof.Machine

/-! ## How a run ends -/

/-- The status of a run that a fault ended (10_state.md R40). -/
def RunStatus.isErrored : RunStatus → Bool
  | .errored _ => true
  | _ => false

/-- "It ended well only if the status is `Halted` and `flags.error` = 0" (10_state.md R40, 60_exceptions.md R276). -/
def State.endedWell (s : State) : Bool := decide (s.status = .halted) && !s.flags.error

/-- What holds of every state of a run: memory and both pixel arrays are in canonical form, and the error bit is set
exactly when a fault has ended the run (10_state.md R34, R40). -/
def State.Inv (s : State) : Prop :=
  Memory.wf s.mem = true ∧ Pixels.wf s.frameBuffer = true ∧ Pixels.wf s.screen = true ∧
    s.flags.error = s.status.isErrored

/-! ## The calling conventions (47_jump.md R230), which bind software alone -/

/-- "t0-ra: caller saved". -/
def callerSaved : Reg → Bool
  | .fp | .sp | .bp | .pc => false
  | _ => true

/-- "fp, sp: callee saved". -/
def calleeSaved : Reg → Bool
  | .fp | .sp => true
  | _ => false

/-- "parameters passed in `a0`-`a3`". -/
def parameterRegs : List Reg := [.a0, .a1, .a2, .a3]

/-! ## What an instruction reads and leaves -/

/-- The value a register has for an instruction of `len` bytes: the pc reads as the address after it (10_state.md R25). -/
def State.operand (s : State) (len : Word) (q : Reg) : Word :=
  if q = .pc then s.reg .pc + len else s.reg q

/-- The word at a byte index (20_memory.md R55). -/
def State.wordAt (s : State) (a : Nat) : Word :=
  wordOfBytes s.params.bigEndian (s.byteAt a) (s.byteAt (a + 1))

/-- The two bytes a word store writes, with their indices (20_memory.md R57). -/
def State.wordBytes (s : State) (a : Nat) (v : Word) : List (Nat × Byte) :=
  [(a, firstByte s.params.bigEndian v), (a + 1, secondByte s.params.bigEndian v)]

/-- Registers after an instruction of `len` bytes: those listed hold the value listed first for them, the pc (unless listed)
the address of the next instruction, every other one its old value. -/
def RegsBecome (s t : State) (len : Word) (writes : List (Reg × Word)) : Prop :=
  ∀ q, t.reg q = (writes.lookup q).getD (s.operand len q)

/-- Memory after an instruction: the bytes listed hold the value listed first for them, every other byte its old value. -/
def BytesBecome (s t : State) (writes : List (Nat × Byte)) : Prop :=
  ∀ a, t.byteAt a = (writes.lookup a).getD (s.byteAt a)

/-- What lies outside registers, flags and memory and an instruction may change: the display, the histories and the
status. -/
structure Outside where
  frameBuffer : List (Nat × BitVec 2)
  screen : List (Nat × BitVec 2)
  console : List ConsoleItem
  fileEffects : List FileEffect
  status : RunStatus
deriving DecidableEq, Repr

/-- The outside of a state. -/
def State.outside (s : State) : Outside where
  frameBuffer := s.frameBuffer
  screen := s.screen
  console := s.console
  fileEffects := s.fileEffects
  status := s.status

/-- The hidden registers and the parameters, which no instruction that completes changes. -/
def SameHidden (s t : State) : Prop :=
  t.ir = s.ir ∧ t.dr = s.dr ∧ t.cb = s.cb ∧ t.db = s.db ∧ t.params = s.params

/-- The whole difference between the states before and after an instruction of `len` bytes that used `used` draws. -/
def Effect (s t : State) (len : Word) (regs : List (Reg × Word)) (bytes : List (Nat × Byte)) (flags : Flags)
    (outside : Outside) (used : Nat) : Prop :=
  RegsBecome s t len regs ∧ BytesBecome s t bytes ∧ t.flags = flags ∧ t.outside = outside ∧
    t.draws = s.draws + used ∧ SameHidden s t

/-- `exec` answers a next state, and the whole difference is the one given. -/
def Completes (i : Instr) (s : State) (len : Word) (regs : List (Reg × Word)) (bytes : List (Nat × Byte))
    (flags : Flags) (outside : Outside) (used : Nat) : Prop :=
  ∃ t, exec i s = .next t ∧ Effect s t len regs bytes flags outside used

/-- An instruction that completes and changes registers and bytes of memory alone. -/
def Moves (i : Instr) (s : State) (len : Word) (regs : List (Reg × Word)) (bytes : List (Nat × Byte)) : Prop :=
  Completes i s len regs bytes s.flags s.outside 0

/-- The flags after an ALU operation (41_alu.md R122). -/
def State.aluFlags (s : State) (res : Word) (ovf nan : Bool) : Flags :=
  { test := decide (res ≠ 0), overflow := ovf, nan := nan, error := s.flags.error }

/-- An ALU instruction that completes with a result in a register. -/
def Computes (i : Instr) (s : State) (len : Word) (r : Reg) (res : Word) (ovf : Bool) : Prop :=
  Completes i s len [(r, res)] [] (s.aluFlags res ovf false) s.outside 0

/-- A TEST instruction that completes with an outcome. -/
def Tests (i : Instr) (s : State) (outcome : Bool) : Prop :=
  Completes i s 2 [] [] { s.flags with test := outcome } s.outside 0

/-- The console item a fault adds (60_exceptions.md R271). -/
def faultItems : FaultReport → List ConsoleItem
  | .programAbort message => [.error message]
  | _ => []

/-- The effect of a fault (60_exceptions.md R271): everything keeps its value but the error bit, the status, the console
item of a program abort, and `ir` and `dr`, which are unspecified. -/
def FaultTaken (s t : State) (f : FaultReport) : Prop :=
  t.regs = s.regs ∧ t.mem = s.mem ∧ t.flags = { s.flags with error := true } ∧
    t.outside = { s.outside with status := .errored f, console := s.console ++ faultItems f } ∧
    t.cb = s.cb ∧ t.db = s.db ∧ t.params = s.params

/-- `exec` answers a next state, and it is that of a fault. -/
def Faults (i : Instr) (s : State) (f : FaultReport) : Prop := ∃ t, exec i s = .next t ∧ FaultTaken s t f

/-- An integer is a signed 16-bit number: `fits(n)` (41_alu.md R121). -/
abbrev fits16 (n : Int) : Prop := -32768 ≤ n ∧ n ≤ 32767

/-- The table of 41_alu.md R121 in the integers: the result of an operation and whether it overflows. The rows of `div` and
`mod` are those of a divisor other than 0. -/
def aluTable (p : Params) (op : AluOp) (a b : Word) : Word × Bool :=
  match op with
  | .add => (u16 (sint a + sint b), decide (¬ fits16 (sint a + sint b)))
  | .sub => (u16 (sint a - sint b), decide (¬ fits16 (sint a - sint b)))
  | .mul => (u16 (sint a * sint b), decide (¬ fits16 (sint a * sint b)))
  | .div => (u16 ((sint a).tdiv (sint b)), decide (¬ fits16 ((sint a).tdiv (sint b))))
  | .mod => (u16 ((sint a).tmod (sint b)), false)
  | .and => (a &&& b, false)
  | .or => (a ||| b, false)
  | .xor => (a ^^^ b, false)
  | .shl => (if b.toNat < 16 then u16 (a.toNat * 2 ^ b.toNat) else 0, false)
  | .shr =>
    (if p.shrArithmetic then
        if b.toNat < 16 then u16 (sint a / 2 ^ b.toNat) else if sint a < 0 then 0xFFFF#16 else 0
      else if b.toNat < 16 then u16 (a.toNat / 2 ^ b.toNat) else 0, false)
  | .min => (u16 (min (sint a) (sint b)), false)
  | .max => (u16 (max (sint a) (sint b)), false)
  | .not => (u16 (-1 - sint a), false)
  | .lnot => (if a = 0 then 1 else 0, false)
  | .neg => (u16 (0 - sint a), decide (a = 0x8000#16))

/-- The bytes of memory from an address to its end, as a list. -/
def State.bytesFrom (s : State) (a : Nat) : List Byte := (List.range (4096 - a)).map fun k => s.byteAt (a + k)

/-- A sequence of bytes stored from an index on, with their indices. -/
def bytesAt (a : Nat) : List Byte → List (Nat × Byte)
  | [] => []
  | b :: rest => (a, b) :: bytesAt (a + 1) rest

/-- Every byte of a sequence of `n` bytes from `addr` on is in memory (48_io_and_syscalls.md R244). -/
def spanInRange (addr : Word) (n : Nat) : Prop := n = 0 ∨ addr.toNat + n ≤ 4096

/-- The pixel (x, y) of an array of pixels (10_state.md R42). -/
def pixelOf (frame : List (Nat × BitVec 2)) (x y : Nat) : BitVec 2 := Sparse.read frame (pixelKey x y)

/-- A null terminated string lies at `addr` (48_io_and_syscalls.md R244): its bytes, none of them 0, and a 0 after them,
all inside memory. -/
def State.StringAt (s : State) (addr : Word) (bytes : List Byte) : Prop :=
  addr.toNat + bytes.length < 4096 ∧ (∀ b ∈ bytes, b ≠ 0) ∧
    (∀ i, i < bytes.length → bytes[i]? = some (s.byteAt (addr.toNat + i))) ∧
    s.byteAt (addr.toNat + bytes.length) = 0

/-- No 0 byte lies between `addr` and the end of memory. -/
def State.Unterminated (s : State) (addr : Word) : Prop :=
  ∀ a, addr.toNat ≤ a → a < 4096 → s.byteAt a ≠ 0

/-- The first address out of range met by a sequence of bytes from `addr` on that leaves memory (R244). -/
def firstBeyond (addr : Word) : Word := if addr.toNat < 4096 then 0x1000#16 else addr

end Sys2Proof.Machine
end

