-- ==== Sys2Proof/Certificates/Slice0/Obligations.lean ====
section
/-! DEFINITION. The statements for the provers, in the order of OBLIGATIONS.json. Where a docstring says "the spec's
decision D<n>", the clause is the spec's own choice (92_eei_decisions.md) and not the source's; where it names a log entry,
the choice is the model's. -/

open Sys2Proof Sys2Proof.Machine

/-! ## Launch -/

/-- The state at launch, whatever the launch parameters (10_state.md, table of the reset values; decisions D26, D29, D31),
and the spec's default values in `State.reset`, which is the launch of an empty program (log 19, 20, 21, 25). -/
def Obligations.LaunchStateValues : Prop :=
  (∀ (l : LaunchParams) (s : State), launch l = some s →
    s.regs = l.regs ∧ s.cb = l.cb ∧ s.db = l.db ∧ s.ir = l.ir ∧ s.dr = l.dr ∧ s.params = l.params ∧
      s.flags = { test := false, overflow := false, nan := false, error := false } ∧
      s.outside = { frameBuffer := l.frame, screen := l.frame, console := [], fileEffects := [], status := .running }) ∧
    launch (LaunchParams.ofProgram [] []) = some State.reset ∧
    State.reset.reg .pc = 0x0000#16 ∧ State.reset.reg .sp = 0x1000#16 ∧ State.reset.reg .fp = 0x1000#16 ∧
    (∀ a, State.reset.byteAt a = 0)

/-- The default layout of a program (70_reset_and_hazards.md section 1; decision D26): the code from address 0 on, the data
after it, every other byte 0, `cb` past the code, `db` and `bp` past the data; and an image that does not fit is refused
(93_implementation_defined.md U33). -/
def Obligations.LaunchPlacesProgram : Prop :=
  ∀ code data : List Byte,
    (code.length + data.length ≤ 4096 →
      ∃ s, launch (LaunchParams.ofProgram code data) = some s ∧ Memory.wf s.mem = true ∧
        (∀ a, s.byteAt a = ((code ++ data)[a]?).getD 0) ∧ s.reg .pc = 0 ∧ s.cb.toNat = code.length ∧
        s.db.toNat = code.length + data.length ∧ (s.reg .bp).toNat = code.length + data.length) ∧
    (4096 < code.length + data.length → launch (LaunchParams.ofProgram code data) = none)

/-- The invariant of Safety.lean holds at reset. -/
def Obligations.ResetMeetsInvariant : Prop := State.reset.Inv

/-! ## Fetch, decode, encode -/

/-- The step cycle (30_encoding.md section 5; decision D5): where the bytes at the pc decode to an instruction, the step is
that instruction's meaning in the state whose `ir` and `dr` hold its words; `dr` keeps its value under a one-word
instruction (log 29). A meaning moves the pc itself: every statement below says to where (log 5). -/
def Obligations.StepRunsDecodedInstruction : Prop :=
  ∀ (s : State) (i : Instr) (rest : List Byte), s.status = .running →
    decode s.params.bigEndian (s.bytesFrom (s.reg .pc).toNat) = .instr i rest →
    i.wellFormed = true ∧
      step s = exec i (s.withFetched (s.wordAt (s.reg .pc).toNat)
        (if i.twoWords then s.wordAt ((s.reg .pc).toNat + 2) else s.dr))

/-- Where the bytes at the pc do not decode, the step takes the fault the step cycle names, in its order: the first word
out of range, the illegal word, the data word out of range (30_encoding.md sections 4 and 5; decisions D3, D16, D20). -/
def Obligations.FetchFaults : Prop :=
  ∀ s : State, s.status = .running →
    match decode s.params.bigEndian (s.bytesFrom (s.reg .pc).toNat) with
    | .instr _ _ => True
    | .noFirstWord => ∃ t, step s = .next t ∧ FaultTaken s t (.addressFault (s.reg .pc))
    | .illegal w =>
      w = s.wordAt (s.reg .pc).toNat ∧ ∃ t, step s = .next t ∧ FaultTaken s t (.illegalInstruction w)
    | .noDataWord w =>
      w = s.wordAt (s.reg .pc).toNat ∧
        ∃ t, step s = .next t ∧ FaultTaken s t (.addressFault (s.reg .pc + 2#16))

/-- One word of each family, written out from the encoding tables (95_test_vectors.md section 1), decodes to the
instruction it stands for. -/
def Obligations.SampleWordsDecode : Prop :=
  decodeFirst 0x0160#16 = some (.mov .a0 .t0) ∧
  decodeFirst 0x1101#16 = some (.sub .t0 .t1) ∧
  decode true [0x1F#8, 0x00#8, 0x04#8, 0x00#8] = .instr (.imm .add .t0 0x0400#16) [] ∧
  decodeFirst 0x21B4#16 = some (.pop .ra .t4) ∧
  decodeFirst 0x271D#16 = some (.sop .sub .sp) ∧
  decodeFirst 0x3911#16 = some (.neqi .t1 1#4) ∧
  decodeFirst 0x40C3#16 = some (.lwr .t0 .fp .t3) ∧
  decode true [0x85#8, 0x01#8, 0x03#8, 0x00#8] = .instr (.swo .t0 0x0300#16 .t1) [] ∧
  decodeFirst 0x900B#16 = some (.jr .ra) ∧
  decodeFirst 0xF010#16 = some (.jal 0x010#12)

/-- Decode and encode agree: the bytes of any well-formed instruction, in either byte order and whatever follows them,
decode to it, with every operand at every value (30_encoding.md sections 2 and 4). -/
def Obligations.DecodeOfEncode : Prop :=
  ∀ (bigEndian : Bool) (i : Instr) (rest : List Byte), i.wellFormed = true →
    decode bigEndian (bytesOfWords bigEndian (encode i) ++ rest) = .instr i rest

/-- Encode and decode agree: bytes that decode to an instruction begin with the bytes of its encoding, so no bit of an
encoding is dropped and no two encodings are one instruction (30_encoding.md section 4). -/
def Obligations.EncodeOfDecode : Prop :=
  ∀ (bigEndian : Bool) (bytes rest : List Byte) (i : Instr), decode bigEndian bytes = .instr i rest →
    i.wellFormed = true ∧ bytes = bytesOfWords bigEndian (encode i) ++ rest

/-- The illegal first words are exactly those of the table of illegal encodings (30_encoding.md section 4; the spec's
decisions D16 and D17). -/
def Obligations.IllegalWordsExactly : Prop :=
  ∀ w : Word, decodeFirst w = none ↔
    match (nib1 w).toNat with
    | 0 => (5 ≤ (nib2 w).toNat ∧ (nib2 w).toNat ≤ 14) ∨ (nib2 w = 0xF#4 ∧ loByte w ≠ 0xFF#8)
    | 1 =>
      (12 ≤ (nib2 w).toNat ∧ (nib2 w).toNat ≤ 14 ∧ nib4 w ≠ 0#4) ∨ (nib2 w = 0xF#4 ∧ 12 ≤ (nib4 w).toNat)
    | 2 =>
      (2 ≤ (nib2 w).toNat ∧ (nib2 w).toNat ≤ 6 ∧ nib3 w ≠ 0#4) ∨ (nib2 w = 7#4 ∧ nib3 w = 0xF#4) ∨
        (8 ≤ (nib2 w).toNat ∧ (nib2 w).toNat ≤ 14) ∨ (nib2 w = 0xF#4 ∧ nib3 w ≠ 0#4)
    | 3 => (nib2 w).toNat ∈ [6, 7, 14, 15]
    | 8 =>
      ((nib2 w).toNat ∈ [0, 2, 4, 6, 15] ∧ nib4 w ≠ 0#4) ∨ (8 ≤ (nib2 w).toNat ∧ (nib2 w).toNat ≤ 14)
    | 9 => nib2 w ≠ 0#4 ∨ nib3 w ≠ 0#4
    | 10 | 11 => True
    | _ => False

/-- The two-word instructions are `imm`, `pushi` and the LOAD/STORE family, told from the first word alone; their data word
is the word after the first, taken as it stands (30_encoding.md section 2). -/
def Obligations.TwoWordInstructionsExactly : Prop :=
  ∀ (w : Word) (i : Instr), decodeFirst w = some i →
    (i.twoWords = true ↔ hiByte w = 0x1F#8 ∨ hiByte w = 0x2F#8 ∨ nib1 w = 8#4) ∧
    (encode i).length = (if i.twoWords then 2 else 1) ∧
    ∀ (bigEndian : Bool) (d : Word) (rest : List Byte),
      decode bigEndian (bytesOfWords bigEndian [w, d] ++ rest) =
        if i.twoWords then .instr (i.withData d) rest
        else .instr i (bytesOfWords bigEndian [d] ++ rest)

/-! ## The whole machine -/

/-- Every step keeps the invariant: memory and both pixel arrays stay canonical, and the error bit stays set exactly when a
fault has ended the run (10_state.md sections 3 and 5; log 21, 25). -/
def Obligations.StepKeepsInvariant : Prop := ∀ s t : State, s.Inv → step s = .next t → t.Inv

/-- Every fault is precise: a step that ends in `Errored` changes nothing but the error bit, the status, `ir`, `dr`, the
console item of a program abort and the model's own counter of draws (log 27), whatever the instruction (60_exceptions.md
section 1; decision D20). -/
def Obligations.FaultsArePrecise : Prop :=
  ∀ (s t : State) (f : FaultReport), step s = .next t → t.status = .errored f → FaultTaken s t f

/-- A step exists exactly in status `Running`, and no step is refused (10_state.md section 5; decisions D20, D29). -/
def Obligations.StepExistsExactlyWhileRunning : Prop :=
  ∀ s : State,
    (s.status = .running → ∃ t, step s = .next t) ∧
    (s.status = .halted → step s = .fault .noStepHalted) ∧
    (∀ f, s.status = .errored f → step s = .fault (.noStepErrored f))

/-- A run halts exactly at the word 0x0000, `sys halt`, and then with the error bit as it was (48_io_and_syscalls.md
section 3, `halt`; decision D29). -/
def Obligations.OnlyHaltHalts : Prop :=
  ∀ s t : State, step s = .next t →
    (t.status = .halted ↔ (s.reg .pc).toNat ≤ 4094 ∧ s.wordAt (s.reg .pc).toNat = 0x0000#16) ∧
    (t.status = .halted → t.flags = s.flags)

/-- No step changes `cb`, `db` or a parameter (10_state.md section 4; decision D27, log 28). -/
def Obligations.LaunchConstantsNeverChange : Prop :=
  ∀ s t : State, step s = .next t → t.cb = s.cb ∧ t.db = s.db ∧ t.params = s.params

/-- Only `sys` reaches the display, the console, the files and the end of the run: any other instruction leaves them, but
for a fault, which is an address fault (or, for a term that is no instruction, an illegal one) (10_state.md section 6;
60_exceptions.md section 1; decisions D3, D20, log 13). -/
def Obligations.OnlySysReachesDevices : Prop :=
  ∀ (i : Instr) (s t : State), i.isSys = false → exec i s = .next t →
    t.outside = s.outside ∨
      ∃ f, t.outside = { s.outside with status := .errored f } ∧
        ((∃ a, f = .addressFault a) ∨ (i.wellFormed = false ∧ f = .illegalInstruction (encodeFirst i)))

/-- Only the storing instructions write memory, and of the services only `rstr` and `rfile` (20_memory.md section 3). -/
def Obligations.OnlyStoresWriteMemory : Prop :=
  ∀ (i : Instr) (s t : State), exec i s = .next t →
    (i.mayWriteMemory = false → t.mem = s.mem) ∧
    (∀ code, i = .sys code → code ≠ 0x03#8 → code ≠ 0x05#8 → t.mem = s.mem)

/-- Who writes the test, overflow and nan bits: the ALU instructions all three, the TEST instructions test, `inc` and `dec`
overflow (and test under `INC_DEC_WRITE_TEST`), nothing else any of the three; and the error bit only ever becomes 1, by a
fault (10_state.md section 3; decisions D8, D20). -/
def Obligations.FlagWriters : Prop :=
  ∀ (i : Instr) (s t : State), exec i s = .next t →
    (i.isAlu = false → i.isTest = false → (i.isIncDec && s.params.incDecWriteTest) = false →
      t.flags.test = s.flags.test) ∧
    (i.isAlu = false → i.isIncDec = false → t.flags.overflow = s.flags.overflow) ∧
    (i.isAlu = false → t.flags.nan = s.flags.nan) ∧
    (t.flags.error = s.flags.error ∨ (t.flags.error = true ∧ t.status.isErrored = true))

/-! ## Memory -/

/-- A word or byte access in range completes, a read after a write gives the value written, and every other byte keeps its
value; an access out of range is an address fault at the address it started at (20_memory.md section 1; decision D3). -/
def Obligations.MemoryReadAfterWrite : Prop :=
  ∀ (s : State) (addr v : Word), Memory.wf s.mem = true →
    (addr.toNat ≤ 4094 →
      ∃ t, s.writeWord addr v = .ok t ∧ t.readWord addr = .ok v ∧ Memory.wf t.mem = true ∧
        (∀ a, a ≠ addr.toNat → a ≠ addr.toNat + 1 → t.byteAt a = s.byteAt a) ∧
        t = { s with mem := t.mem }) ∧
    (addr.toNat ≤ 4095 →
      ∃ t, s.writeByte addr v = .ok t ∧ t.readByte addr = .ok (v.setWidth 8) ∧ Memory.wf t.mem = true ∧
        (∀ a, a ≠ addr.toNat → t.byteAt a = s.byteAt a) ∧ t = { s with mem := t.mem }) ∧
    (4094 < addr.toNat → s.readWord addr = .error (.addressFault addr) ∧
      s.writeWord addr v = .error (.addressFault addr)) ∧
    (4095 < addr.toNat → s.readByte addr = .error (.addressFault addr) ∧
      s.writeByte addr v = .error (.addressFault addr))

/-- The byte order, and a byte access that overlaps a word: with `BIG_ENDIAN` the high byte lies at the lower address,
without it the low byte does (20_memory.md section 1; decision D1, log 1). -/
def Obligations.ByteOrderOfWords : Prop :=
  ∀ (s t : State) (addr v : Word), Memory.wf s.mem = true → s.writeWord addr v = .ok t →
    (s.params.bigEndian = true →
      t.readByte addr = .ok (v.extractLsb' 8 8) ∧ t.byteAt (addr.toNat + 1) = v.extractLsb' 0 8 ∧
        (addr.toNat ≤ 4093 →
          t.readWord (addr + 1#16) = .ok (v.extractLsb' 0 8 ++ s.byteAt (addr.toNat + 2)))) ∧
    (s.params.bigEndian = false →
      t.readByte addr = .ok (v.extractLsb' 0 8) ∧ t.byteAt (addr.toNat + 1) = v.extractLsb' 8 8 ∧
        (addr.toNat ≤ 4093 →
          t.readWord (addr + 1#16) = .ok (s.byteAt (addr.toNat + 2) ++ v.extractLsb' 8 8)))

/-- A store is seen by the very next fetch: an instruction word stored over the next instruction is what the next step runs
(20_memory.md section 5; decision D28). -/
def Obligations.StoreIsSeenByNextFetch : Prop :=
  ∀ (s : State) (r : Reg) (i : Instr), Memory.wf s.mem = true → s.status = .running → r ≠ .pc →
    (s.reg .pc + 4#16).toNat ≤ 4094 → decodeFirst (s.reg r) = some i → i.twoWords = false →
    ∃ t, exec (.sw r (s.reg .pc + 4#16)) s = .next t ∧ t.reg .pc = s.reg .pc + 4#16 ∧
      step t = exec i (t.withFetched (s.reg r) t.dr)

/-! ## MISC -/

/-- `mov` and `seti` (40_misc.md; no flag is written: decision D8). -/
def Obligations.MovAndSetiResults : Prop :=
  ∀ (s : State) (r q : Reg) (v : Nibble),
    Moves (.mov r q) s 2 [(r, s.operand 2 q)] [] ∧
    Moves (.seti r v) s 2 [(r, BitVec.ofNat 16 v.toNat)] []

/-- `nop`: the one word 0x0FFF; it moves the pc, `ir` holds the word, and everything else keeps its value. -/
def Obligations.NopMovesPcAlone : Prop :=
  (∀ s : State, Moves .nop s 2 [] []) ∧ encode .nop = [0x0FFF#16] ∧
  (∀ w : Word, decodeFirst w = some .nop ↔ w &&& 0xFFFF#16 = 0x0FFF#16) ∧
  (∀ w : Word, 0x0F00 ≤ w.toNat → w.toNat ≤ 0x0FFE → decodeFirst w = none) ∧
  (∀ s : State, s.status = .running → (s.reg .pc).toNat ≤ 4094 → s.wordAt (s.reg .pc).toNat = 0x0FFF#16 →
    ∃ t, step s = .next t ∧ t.ir = 0x0FFF#16 ∧ RegsBecome s t 2 [] ∧ t.mem = s.mem ∧ t.flags = s.flags ∧
      t.outside = s.outside ∧ t.dr = s.dr ∧ t.cb = s.cb ∧ t.db = s.db)

/-- `inc` and `dec`: the sum and difference modulo 65536, overflow as the exact result demands, test only under
`INC_DEC_WRITE_TEST` (40_misc.md; decision D8, log 8). -/
def Obligations.IncAndDecResults : Prop :=
  ∀ (s : State) (r : Reg) (v : Nibble),
    let a := sint (s.operand 2 r)
    let n : Int := v.toNat
    let flagsOf (exact : Int) : Flags :=
      { s.flags with
        overflow := decide (¬ fits16 exact)
        test := if s.params.incDecWriteTest then decide (u16 exact ≠ 0) else s.flags.test }
    Completes (.inc r v) s 2 [(r, u16 (a + n))] [] (flagsOf (a + n)) s.outside 0 ∧
    Completes (.dec r v) s 2 [(r, u16 (a - n))] [] (flagsOf (a - n)) s.outside 0

/-! ## ALU -/

/-- `add`, `sub`, `mul`: the low 16 bits of the exact signed result, overflow when it does not fit (41_alu.md sections 1, 2
and 5; decisions D8, D9). -/
def Obligations.AddSubMulResults : Prop :=
  ∀ (s : State) (r q : Reg),
    let a := sint (s.operand 2 r)
    let b := sint (s.operand 2 q)
    Computes (.add r q) s 2 r (u16 (a + b)) (decide (¬ fits16 (a + b))) ∧
    Computes (.sub r q) s 2 r (u16 (a - b)) (decide (¬ fits16 (a - b))) ∧
    Computes (.mul r q) s 2 r (u16 (a * b)) (decide (¬ fits16 (a * b)))

/-- `div` and `mod` by a divisor other than 0: the quotient rounded toward zero and the remainder with the dividend's sign;
only -32768 / -1 overflows (41_alu.md sections 2 and 5; decisions D9, D10). -/
def Obligations.DivAndModResults : Prop :=
  ∀ (s : State) (r q : Reg),
    let a := s.operand 2 r
    let b := s.operand 2 q
    b ≠ 0 →
    Computes (.div r q) s 2 r (u16 ((sint a).tdiv (sint b))) (decide (a = 0x8000#16 ∧ b = 0xFFFF#16)) ∧
    Computes (.mod r q) s 2 r (u16 ((sint a).tmod (sint b))) false

/-- `div` and `mod` by 0 complete, with some value in the register that nothing constrains, nan 1, overflow 0 and test
computed from that value; no fault (41_alu.md sections 1 and 2; decision D11, log 9). -/
def Obligations.DivAndModByZero : Prop :=
  ∀ (s : State) (r q : Reg), s.operand 2 q = 0 →
    (∃ v, Completes (.div r q) s 2 [(r, v)] [] (s.aluFlags v false true) s.outside 1) ∧
    (∃ v, Completes (.mod r q) s 2 [(r, v)] [] (s.aluFlags v false true) s.outside 1)

/-- What `div` and `mod` leave belongs together: the dividend is the divisor times the quotient plus the remainder, and the
remainder is smaller than the divisor and has the dividend's sign or is zero (41_alu.md section 2, `mod`; decision D10). -/
def Obligations.DivModIdentity : Prop :=
  ∀ (s t u : State) (r q : Reg), s.operand 2 q ≠ 0 →
    exec (.div r q) s = .next t → exec (.mod r q) s = .next u →
    s.operand 2 r = s.operand 2 q * t.reg r + u.reg r ∧
      (sint (u.reg r)).natAbs < (sint (s.operand 2 q)).natAbs ∧
      (0 ≤ sint (s.operand 2 r) → 0 ≤ sint (u.reg r)) ∧ (sint (s.operand 2 r) ≤ 0 → sint (u.reg r) ≤ 0)

/-- The bitwise operations, bit by bit (41_alu.md sections 2 and 3; the flags: decision D8). -/
def Obligations.BitwiseOperations : Prop :=
  ∀ (s : State) (r q : Reg),
    let a := s.operand 2 r
    let b := s.operand 2 q
    ∃ x y z n : Word,
      (∀ k, k < 16 → x.getLsbD k = (a.getLsbD k && b.getLsbD k) ∧ y.getLsbD k = (a.getLsbD k || b.getLsbD k) ∧
        z.getLsbD k = (a.getLsbD k ^^ b.getLsbD k) ∧ n.getLsbD k = !a.getLsbD k) ∧
      Computes (.and r q) s 2 r x false ∧ Computes (.or r q) s 2 r y false ∧
      Computes (.xor r q) s 2 r z false ∧ Computes (.not r) s 2 r n false

/-- The shifts: multiplication and floor division by a power of two, the amount read unsigned; 16 and more shifts everything
out; `shr` copies the sign bit only under `SHR_ARITHMETIC` (41_alu.md section 2; decision D12, log 11). -/
def Obligations.ShiftResults : Prop :=
  ∀ (s : State) (r q : Reg),
    let a := s.operand 2 r
    let n := (s.operand 2 q).toNat
    Computes (.shl r q) s 2 r (if n < 16 then u16 (a.toNat * 2 ^ n) else 0) false ∧
    (s.params.shrArithmetic = false →
      Computes (.shr r q) s 2 r (if n < 16 then u16 (a.toNat / 2 ^ n) else 0) false) ∧
    (s.params.shrArithmetic = true →
      Computes (.shr r q) s 2 r (if n < 16 then u16 (sint a / 2 ^ n) else if sint a < 0 then 0xFFFF#16 else 0) false)

/-- `min` and `max`, signed (41_alu.md section 2; decision D13), and `lnot` and `neg` (41_alu.md section 3; decision D9). -/
def Obligations.MinMaxLnotNeg : Prop :=
  ∀ (s : State) (r q : Reg),
    let a := s.operand 2 r
    let b := s.operand 2 q
    Computes (.min r q) s 2 r (u16 (min (sint a) (sint b))) false ∧
    Computes (.max r q) s 2 r (u16 (max (sint a) (sint b))) false ∧
    Computes (.lnot r) s 2 r (if a = 0 then 1 else 0) false ∧
    Computes (.neg r) s 2 r (u16 (0 - sint a)) (decide (sint a = -32768))

/-- `imm`: a binary operation on a register (the left operand) and the data word, the pc past both words; by 0 as the
register forms of `div` and `mod` (41_alu.md section 4; decisions D9 to D12). A term whose operation is unary is no
instruction and takes the fault of its word (log 13). -/
def Obligations.ImmApplies : Prop :=
  ∀ (s : State) (op : AluOp) (r : Reg) (value : Word),
    let res := aluTable s.params op (s.operand 4 r) value
    (op.isBinary = true → (op.divides = true → value ≠ 0) → Computes (.imm op r value) s 4 r res.1 res.2) ∧
    (op.isBinary = true → op.divides = true → value = 0 →
      ∃ v, Completes (.imm op r value) s 4 [(r, v)] [] (s.aluFlags v false true) s.outside 1) ∧
    (op.isBinary = false → Faults (.imm op r value) s (.illegalInstruction (encodeFirst (.imm op r value))))

/-! ## STACK -/

/-- `push` and `pushi`: the word goes two bytes below the top, the value read before the pointer moves; a slot out of range
is an address fault and changes nothing (42_stack.md; decisions D3, D4, D19). -/
def Obligations.PushAndPushi : Prop :=
  ∀ (s : State) (r p : Reg) (value : Word),
    (Memory.wf s.mem = true → (s.operand 2 p - 2).toNat ≤ 4094 →
      Moves (.push r p) s 2 [(p, s.operand 2 p - 2)]
        (s.wordBytes (s.operand 2 p - 2).toNat (s.operand 2 r))) ∧
    (4094 < (s.operand 2 p - 2).toNat → Faults (.push r p) s (.addressFault (s.operand 2 p - 2))) ∧
    (Memory.wf s.mem = true → (s.operand 4 p - 2).toNat ≤ 4094 →
      Moves (.pushi value p) s 4 [(p, s.operand 4 p - 2)] (s.wordBytes (s.operand 4 p - 2).toNat value)) ∧
    (4094 < (s.operand 4 p - 2).toNat → Faults (.pushi value p) s (.addressFault (s.operand 4 p - 2)))

/-- `pop`: the pointer moves up by two and the destination is written last, so it wins where it is the pointer; `drop`: the
pointer moves up by two with no memory access, so it completes wherever the pointer points (42_stack.md; decisions D3, D4,
D19). -/
def Obligations.PopAndDrop : Prop :=
  ∀ (s : State) (r p : Reg),
    let top := s.operand 2 p
    (top.toNat ≤ 4094 → Moves (.pop r p) s 2 [(r, s.wordAt top.toNat), (p, top + 2)] []) ∧
    (4094 < top.toNat → Faults (.pop r p) s (.addressFault top)) ∧
    Moves (.drop p) s 2 [(p, top + 2)] []

/-- `dup` and `over`: the top, or the second word, is pushed; a read out of range faults before a write out of range does
(42_stack.md; decisions D3, D4, D19, D20). -/
def Obligations.DupAndOver : Prop :=
  ∀ (s : State) (p : Reg),
    let top := s.operand 2 p
    let slot := top - 2
    (Memory.wf s.mem = true → top.toNat ≤ 4094 → slot.toNat ≤ 4094 →
      Moves (.dup p) s 2 [(p, slot)] (s.wordBytes slot.toNat (s.wordAt top.toNat))) ∧
    (4094 < top.toNat → Faults (.dup p) s (.addressFault top)) ∧
    (top.toNat ≤ 4094 → 4094 < slot.toNat → Faults (.dup p) s (.addressFault slot)) ∧
    (Memory.wf s.mem = true → (top + 2).toNat ≤ 4094 → slot.toNat ≤ 4094 →
      Moves (.overWord p) s 2 [(p, slot)] (s.wordBytes slot.toNat (s.wordAt (top + 2).toNat))) ∧
    (4094 < (top + 2).toNat → Faults (.overWord p) s (.addressFault (top + 2))) ∧
    ((top + 2).toNat ≤ 4094 → 4094 < slot.toNat → Faults (.overWord p) s (.addressFault slot))

/-- `swap` and `rot`: the two or three top words change places, the pointer stays, and the first word out of range faults
before anything is written (42_stack.md; decisions D3, D19, D20). -/
def Obligations.SwapAndRot : Prop :=
  ∀ (s : State) (p : Reg),
    let top := s.operand 2 p
    let a := top.toNat
    (Memory.wf s.mem = true → a ≤ 4092 →
      Moves (.swap p) s 2 [] (s.wordBytes a (s.wordAt (a + 2)) ++ s.wordBytes (a + 2) (s.wordAt a))) ∧
    (4092 < a → a ≤ 4094 → Faults (.swap p) s (.addressFault (top + 2))) ∧
    (4094 < a → Faults (.swap p) s (.addressFault top)) ∧
    (Memory.wf s.mem = true → a ≤ 4090 →
      Moves (.rot p) s 2 [] (s.wordBytes a (s.wordAt (a + 4)) ++ s.wordBytes (a + 2) (s.wordAt a) ++
        s.wordBytes (a + 4) (s.wordAt (a + 2)))) ∧
    (4090 < a → a ≤ 4092 → Faults (.rot p) s (.addressFault (top + 4))) ∧
    (4092 < a → a ≤ 4094 → Faults (.rot p) s (.addressFault (top + 2))) ∧
    (4094 < a → Faults (.rot p) s (.addressFault top))

/-- `sop`. With a binary operation the second word is the left operand, the top the right; the result takes the second
word's place and the pointer moves to it. With a unary operation the result takes the top's place and the pointer stays. The
flags are those of the register form (42_stack.md; decision D18). -/
def Obligations.SopAppliesToStack : Prop :=
  ∀ (s : State) (op : AluOp) (p : Reg),
    let top := s.operand 2 p
    let a := s.wordAt (top.toNat + 2)
    let b := s.wordAt top.toNat
    let res := aluTable s.params op a b
    let res1 := aluTable s.params op b 0
    (op.isBinary = true → Memory.wf s.mem = true → top.toNat ≤ 4092 → (op.divides = true → b ≠ 0) →
      Completes (.sop op p) s 2 [(p, top + 2)] (s.wordBytes (top.toNat + 2) res.1)
        (s.aluFlags res.1 res.2 false) s.outside 0) ∧
    (op.isBinary = true → Memory.wf s.mem = true → top.toNat ≤ 4092 → op.divides = true → b = 0 →
      ∃ v, Completes (.sop op p) s 2 [(p, top + 2)] (s.wordBytes (top.toNat + 2) v)
        (s.aluFlags v false true) s.outside 1) ∧
    (op.isBinary = true → 4092 < top.toNat → top.toNat ≤ 4094 → Faults (.sop op p) s (.addressFault (top + 2))) ∧
    (op.isBinary = false → Memory.wf s.mem = true → top.toNat ≤ 4094 →
      Completes (.sop op p) s 2 [] (s.wordBytes top.toNat res1.1) (s.aluFlags res1.1 res1.2 false) s.outside 0) ∧
    (4094 < top.toNat → Faults (.sop op p) s (.addressFault top))

/-- Two `swap`s and three `rot`s restore the order of the words, and a `pop` after a `push` gives the value pushed and puts
the pointer back (42_stack.md, corner cases of `swap` and `rot`; decision D19). -/
def Obligations.StackRoundTrips : Prop :=
  ∀ (s : State) (r q p : Reg), p ≠ .pc → Memory.wf s.mem = true →
    ((s.reg p).toNat ≤ 4092 →
      ∃ t u, exec (.swap p) s = .next t ∧ exec (.swap p) t = .next u ∧ u.mem = s.mem ∧
        ∀ x, x ≠ .pc → u.reg x = s.reg x) ∧
    ((s.reg p).toNat ≤ 4090 →
      ∃ t u v, exec (.rot p) s = .next t ∧ exec (.rot p) t = .next u ∧ exec (.rot p) u = .next v ∧ v.mem = s.mem ∧
        ∀ x, x ≠ .pc → v.reg x = s.reg x) ∧
    (q ≠ p → (s.reg p - 2).toNat ≤ 4094 →
      ∃ t u, exec (.push r p) s = .next t ∧ exec (.pop q p) t = .next u ∧
        u.reg q = s.operand 2 r ∧ u.reg p = s.reg p ∧ (∀ x, x ≠ .pc → x ≠ q → u.reg x = s.reg x))

/-! ## TEST -/

/-- The register comparisons, signed; they write the test bit alone (43_test.md section 1; decision D13). -/
def Obligations.CompareRegisters : Prop :=
  ∀ (s : State) (r q : Reg),
    let a := sint (s.operand 2 r)
    let b := sint (s.operand 2 q)
    Tests (.eq r q) s (decide (a = b)) ∧ Tests (.neq r q) s (decide (a ≠ b)) ∧
    Tests (.gt r q) s (decide (a > b)) ∧ Tests (.gte r q) s (decide (a ≥ b)) ∧
    Tests (.lt r q) s (decide (a < b)) ∧ Tests (.lte r q) s (decide (a ≤ b))

/-- The immediate comparisons: the immediate is one of 0 to 15, never negative (43_test.md section 2; decisions D13, D14). -/
def Obligations.CompareImmediates : Prop :=
  ∀ (s : State) (r : Reg) (v : Nibble),
    let a := sint (s.operand 2 r)
    let b : Int := v.toNat
    Tests (.eqi r v) s (decide (a = b)) ∧ Tests (.neqi r v) s (decide (a ≠ b)) ∧
    Tests (.gti r v) s (decide (a > b)) ∧ Tests (.gtei r v) s (decide (a ≥ b)) ∧
    Tests (.lti r v) s (decide (a < b)) ∧ Tests (.ltei r v) s (decide (a ≤ b))

/-! ## Loads and stores -/

/-- `lwr` and `lbr`: the address is the sum of two registers modulo 65536; a byte fills the register with zeros, or with its
sign under `LB_SIGN_EXTEND`; out of range is an address fault (44_load_store_register.md; decisions D3, D4, D15). -/
def Obligations.RegisterLoads : Prop :=
  ∀ (s : State) (r a o : Reg),
    let addr := s.operand 2 a + s.operand 2 o
    (addr.toNat ≤ 4094 → Moves (.lwr r a o) s 2 [(r, s.wordAt addr.toNat)] []) ∧
    (4094 < addr.toNat → Faults (.lwr r a o) s (.addressFault addr)) ∧
    (addr.toNat ≤ 4095 → s.params.lbSignExtend = false →
      Moves (.lbr r a o) s 2 [(r, u16 (s.byteAt addr.toNat).toNat)] []) ∧
    (addr.toNat ≤ 4095 → s.params.lbSignExtend = true →
      Moves (.lbr r a o) s 2 [(r, u16 (s.byteAt addr.toNat).toInt)] []) ∧
    (4095 < addr.toNat → Faults (.lbr r a o) s (.addressFault addr))

/-- `swr` and `sbr`: two bytes, or the low byte, go to the sum of two registers; nothing else changes
(44_load_store_register.md; decisions D3, D4, D15). -/
def Obligations.RegisterStores : Prop :=
  ∀ (s : State) (r a o : Reg),
    let addr := s.operand 2 a + s.operand 2 o
    (Memory.wf s.mem = true → addr.toNat ≤ 4094 →
      Moves (.swr r a o) s 2 [] (s.wordBytes addr.toNat (s.operand 2 r))) ∧
    (4094 < addr.toNat → Faults (.swr r a o) s (.addressFault addr)) ∧
    (Memory.wf s.mem = true → addr.toNat ≤ 4095 →
      Moves (.sbr r a o) s 2 [] [(addr.toNat, (s.operand 2 r).setWidth 8)]) ∧
    (4095 < addr.toNat → Faults (.sbr r a o) s (.addressFault addr))

/-- `lw`, `lwo`, `lb`, `lbo`: the address is the data word, with or without an offset register (45_load_store.md; decisions
D3, D4, D15). -/
def Obligations.AbsoluteLoads : Prop :=
  ∀ (s : State) (r o : Reg) (word : Word),
    let off := word + s.operand 4 o
    let byteValue (a : Nat) : Word :=
      if s.params.lbSignExtend then u16 (s.byteAt a).toInt else u16 (s.byteAt a).toNat
    (word.toNat ≤ 4094 → Moves (.lw r word) s 4 [(r, s.wordAt word.toNat)] []) ∧
    (4094 < word.toNat → Faults (.lw r word) s (.addressFault word)) ∧
    (off.toNat ≤ 4094 → Moves (.lwo r word o) s 4 [(r, s.wordAt off.toNat)] []) ∧
    (4094 < off.toNat → Faults (.lwo r word o) s (.addressFault off)) ∧
    (word.toNat ≤ 4095 → Moves (.lb r word) s 4 [(r, byteValue word.toNat)] []) ∧
    (4095 < word.toNat → Faults (.lb r word) s (.addressFault word)) ∧
    (off.toNat ≤ 4095 → Moves (.lbo r word o) s 4 [(r, byteValue off.toNat)] []) ∧
    (4095 < off.toNat → Faults (.lbo r word o) s (.addressFault off))

/-- `sw`, `swo`, `sb`, `sbo`: two bytes, or the low byte, go to the data word's address, with or without an offset register;
nothing else changes (45_load_store.md; decisions D3, D4, D15). -/
def Obligations.AbsoluteStores : Prop :=
  ∀ (s : State) (r o : Reg) (word : Word),
    let off := word + s.operand 4 o
    let v := s.operand 4 r
    (Memory.wf s.mem = true → word.toNat ≤ 4094 → Moves (.sw r word) s 4 [] (s.wordBytes word.toNat v)) ∧
    (4094 < word.toNat → Faults (.sw r word) s (.addressFault word)) ∧
    (Memory.wf s.mem = true → off.toNat ≤ 4094 → Moves (.swo r word o) s 4 [] (s.wordBytes off.toNat v)) ∧
    (4094 < off.toNat → Faults (.swo r word o) s (.addressFault off)) ∧
    (Memory.wf s.mem = true → word.toNat ≤ 4095 → Moves (.sb r word) s 4 [] [(word.toNat, v.setWidth 8)]) ∧
    (4095 < word.toNat → Faults (.sb r word) s (.addressFault word)) ∧
    (Memory.wf s.mem = true → off.toNat ≤ 4095 → Moves (.sbo r word o) s 4 [] [(off.toNat, v.setWidth 8)]) ∧
    (4095 < off.toNat → Faults (.sbo r word o) s (.addressFault off))

/-- `li`: the data word goes into the register, and nothing else changes but the pc; its words are those of its format, and
only the fetch of the second word can fault. -/
def Obligations.LoadImmediateResult : Prop :=
  (∀ (s : State) (r : Reg) (value : Word), Moves (.li r value) s 4 [(r, value)] []) ∧
  (∀ (r : Reg) (value : Word), encode (.li r value) = [0x8F00#16 ||| (r.toNibble.setWidth 16 <<< 4), value]) ∧
  (∀ w : Word, w &&& 0xFF0F#16 = 0x8F00#16 ↔ ∃ r, decodeFirst w = some (.li r 0#16)) ∧
  encode (.li .t0 1024#16) = [0x8F00#16, 0x0400#16] ∧
  (∀ s : State, s.status = .running → (s.reg .pc).toNat ≤ 4094 →
    s.wordAt (s.reg .pc).toNat &&& 0xFF0F#16 = 0x8F00#16 →
    ((s.reg .pc + 2#16).toNat ≤ 4094 → ∃ t, step s = .next t ∧ t.status = .running) ∧
    (4094 < (s.reg .pc + 2#16).toNat → ∃ t, step s = .next t ∧ FaultTaken s t (.addressFault (s.reg .pc + 2#16))))

/-! ## Jumps -/

/-- `jr`: the whole register becomes the pc, nothing else changes, a target above 0x0FFE faults at the next fetch and not
here, and a word of the type with a non-zero middle is illegal. -/
def Obligations.JumpRegisterSetsPc : Prop :=
  (∀ (s : State) (r : Reg), Moves (.jr r) s 2 [(.pc, s.operand 2 r)] []) ∧
  (∀ s : State, Moves (.jr .pc) s 2 [] []) ∧
  (∀ (s t : State) (r : Reg), s.status = .running → 0x0FFE < (s.operand 2 r).toNat → exec (.jr r) s = .next t →
    ∃ u, step t = .next u ∧ FaultTaken t u (.addressFault (s.operand 2 r)) ∧ u.reg .pc = s.operand 2 r) ∧
  (∀ r : Reg, encode (.jr r) = [0x9000#16 ||| r.toNibble.setWidth 16]) ∧
  (∀ w : Word, w &&& 0xFFF0#16 = 0x9000#16 ↔ ∃ r, decodeFirst w = some (.jr r)) ∧
  (∀ w : Word, nib1 w = 9#4 → (nib2 w ≠ 0#4 ∨ nib3 w ≠ 0#4) → decodeFirst w = none) ∧
  encode (.jr .ra) = [0x900B#16]

/-- `j`: the zero-extended target becomes the pc; a jump to itself loops for ever; a jump to 0xFFF faults at the next
fetch. -/
def Obligations.JumpSetsPc : Prop :=
  (∀ (s : State) (t : BitVec 12), Moves (.j t) s 2 [(.pc, t.setWidth 16)] []) ∧
  (∀ w : Word, w &&& 0xF000#16 = 0xC000#16 ↔ decodeFirst w = some (.j (w.setWidth 12))) ∧
  (∀ t : BitVec 12, encode (.j t) = [0xC000#16 ||| t.setWidth 16]) ∧
  (∀ (s : State) (t : BitVec 12), s.status = .running → s.reg .pc = t.setWidth 16 → t.toNat ≤ 4094 →
    s.wordAt t.toNat = 0xC000#16 ||| t.setWidth 16 →
    ∃ u, step s = .next u ∧ u.regs = s.regs ∧ u.mem = s.mem ∧ u.status = .running) ∧
  (∀ s t : State, s.status = .running → exec (.j 0xFFF#12) s = .next t →
    ∃ u, step t = .next u ∧ FaultTaken t u (.addressFault 0x0FFF#16)) ∧
  encode (.j 0x004#12) = [0xC004#16]

/-- `jz` and `jnz`: the target if the test bit is 0, or 1; otherwise the pc keeps the advanced value; no flag is written.
After a comparison `jz` jumps if it was false and `jnz` if it was true; after an ALU operation `jz` jumps if the result was
zero and `jnz` if it was not. -/
def Obligations.ConditionalJumps : Prop :=
  (∀ (s : State) (t : BitVec 12),
    (s.flags.test = false →
      Moves (.jz t) s 2 [(.pc, t.setWidth 16)] [] ∧ Moves (.jnz t) s 2 [(.pc, s.reg .pc + 2)] []) ∧
    (s.flags.test = true →
      Moves (.jz t) s 2 [(.pc, s.reg .pc + 2)] [] ∧ Moves (.jnz t) s 2 [(.pc, t.setWidth 16)] [])) ∧
  (∀ w : Word, w &&& 0xF000#16 = 0xD000#16 ↔ decodeFirst w = some (.jz (w.setWidth 12))) ∧
  (∀ w : Word, w &&& 0xF000#16 = 0xE000#16 ↔ decodeFirst w = some (.jnz (w.setWidth 12))) ∧
  encode (.jz 0x020#12) = [0xD020#16] ∧ encode (.jnz 0x004#12) = [0xE004#16] ∧
  (∀ (i : Instr) (s t : State) (outcome : Bool) (target : BitVec 12), Tests i s outcome → exec i s = .next t →
    (outcome = false → Moves (.jz target) t 2 [(.pc, target.setWidth 16)] []) ∧
    (outcome = true → Moves (.jnz target) t 2 [(.pc, target.setWidth 16)] [])) ∧
  (∀ (i : Instr) (s t : State) (len : Word) (r : Reg) (res : Word) (ovf nan : Bool) (used : Nat) (target : BitVec 12),
    Completes i s len [(r, res)] [] (s.aluFlags res ovf nan) s.outside used → exec i s = .next t →
    (res = 0 → Moves (.jz target) t 2 [(.pc, target.setWidth 16)] []) ∧
    (res ≠ 0 → Moves (.jnz target) t 2 [(.pc, target.setWidth 16)] []))

/-- `jz` and `jnz` test the test bit and never read `t0`: changing `t0` beforehand changes `t0` alone afterwards. -/
def Obligations.JumpsNeverReadT0 : Prop :=
  ∀ (s : State) (v : Word) (target : BitVec 12),
    (∃ t, exec (.jz target) s = .next t ∧ exec (.jz target) (s.setReg .t0 v) = .next (t.setReg .t0 v) ∧
      t.reg .pc = if s.flags.test = false then target.setWidth 16 else s.reg .pc + 2) ∧
    (∃ t, exec (.jnz target) s = .next t ∧ exec (.jnz target) (s.setReg .t0 v) = .next (t.setReg .t0 v) ∧
      t.reg .pc = if s.flags.test = true then target.setWidth 16 else s.reg .pc + 2)

/-- `jal`: `ra` gets the address of the next instruction, the pc the target; a `jal` at 0x0FFE leaves `ra` = 0x1000, and a
step from there faults. -/
def Obligations.JumpAndLink : Prop :=
  (∀ (s : State) (t : BitVec 12), Moves (.jal t) s 2 [(.ra, s.reg .pc + 2), (.pc, t.setWidth 16)] []) ∧
  (∀ w : Word, w &&& 0xF000#16 = 0xF000#16 ↔ decodeFirst w = some (.jal (w.setWidth 12))) ∧
  (∀ t : BitVec 12, encode (.jal t) = [0xF000#16 ||| t.setWidth 16]) ∧
  encode (.jal 0x010#12) = [0xF010#16] ∧
  (∀ (s t : State) (target : BitVec 12), s.reg .pc = 0x0FFE#16 → exec (.jal target) s = .next t →
    t.reg .ra = 0x1000#16) ∧
  (∀ s : State, s.status = .running → s.reg .pc = 0x1000#16 →
    ∃ t, step s = .next t ∧ FaultTaken s t (.addressFault 0x1000#16))

/-! ## The services of `sys` -/

/-- `halt` ends the run with the pc past the word; `wint` appends the signed value of `a0` to the console
(48_io_and_syscalls.md section 3; decisions D29, D31). -/
def Obligations.HaltEndsAndWriteIntAppends : Prop :=
  ∀ s : State,
    Completes (.sys 0x00#8) s 2 [] [] s.flags { s.outside with status := .halted } 0 ∧
    Completes (.sys 0x02#8) s 2 [] [] s.flags
      { s.outside with console := s.console ++ [.int (sint (s.reg .a0))] } 0

/-- `sleep` changes no architectural state: the step moves the pc alone, whatever `a0` holds. -/
def Obligations.SleepMovesPcAlone : Prop := ∀ s : State, Moves (.sys 0x08#8) s 2 [] []

/-- `rint` and `rnd` leave a value in `rv` and change nothing else: any value of the host's for `rint`, one between `a0` and
`a1` for `rnd` if they are in order (48_io_and_syscalls.md section 3; decision D31, log 26, 35). -/
def Obligations.ReadIntAndRandom : Prop :=
  ∀ s : State,
    (∃ v, Completes (.sys 0x01#8) s 2 [(.rv, v)] [] s.flags s.outside 1) ∧
    (∃ v, Completes (.sys 0x07#8) s 2 [(.rv, v)] [] s.flags s.outside 1 ∧
      (sint (s.reg .a0) ≤ sint (s.reg .a1) →
        sint (s.reg .a0) ≤ sint v ∧ sint v ≤ sint (s.reg .a1)))

/-- `rstr`: some bytes of the host's, no more than `a1`, go to memory from `a0` on, their number to `rv`, and nothing else
changes; a buffer that leaves memory is an address fault before anything is stored; it completes whenever the longest
answer fits (48_io_and_syscalls.md sections 2 and 3; decisions D25, D31, log 38). -/
def Obligations.ReadStringStoresAndCounts : Prop :=
  ∀ s : State, Memory.wf s.mem = true →
    ∃ bytes : List Byte, bytes.length ≤ (s.reg .a1).toNat ∧
      let stored := if s.params.rstrWritesNul then bytes ++ [0] else bytes
      (spanInRange (s.reg .a0) stored.length →
        Completes (.sys 0x03#8) s 2 [(.rv, BitVec.ofNat 16 bytes.length)]
          (bytesAt (s.reg .a0).toNat stored) s.flags s.outside 1) ∧
      (¬ spanInRange (s.reg .a0) stored.length →
        Faults (.sys 0x03#8) s (.addressFault (firstBeyond (s.reg .a0)))) ∧
      ((s.reg .a0).toNat + (s.reg .a1).toNat + 1 ≤ 4096 → spanInRange (s.reg .a0) stored.length)

/-- `wstr` appends the string at `a0` to the console; `error` aborts the run with it; a string that is not terminated inside
memory is an address fault for both (48_io_and_syscalls.md sections 2 and 3; decisions D20, D25, D31). That `wstr` of an
empty string appends an item without bytes is the model's choice (log 40). -/
def Obligations.WriteStringAndError : Prop :=
  ∀ s : State,
    (∀ bytes, s.StringAt (s.reg .a0) bytes →
      Completes (.sys 0x04#8) s 2 [] [] s.flags { s.outside with console := s.console ++ [.str bytes] } 0 ∧
      Faults (.sys 0xF0#8) s (.programAbort bytes)) ∧
    (s.Unterminated (s.reg .a0) →
      Faults (.sys 0x04#8) s (.addressFault (firstBeyond (s.reg .a0))) ∧
      Faults (.sys 0xF0#8) s (.addressFault (firstBeyond (s.reg .a0))))

/-- `rfile`: an unterminated name is an address fault; otherwise the host supplies no more than `a1` bytes, which go to
memory from `a0` on with their number in `rv` (an address fault if they do not fit), or it fails and that is a host error
(48_io_and_syscalls.md section 3; decisions D25, D31, log 38). -/
def Obligations.ReadFileDeliversOrFaults : Prop :=
  ∀ s : State,
    (s.Unterminated (s.reg .a2) → Faults (.sys 0x05#8) s (.addressFault (firstBeyond (s.reg .a2)))) ∧
    (∀ name, Memory.wf s.mem = true → s.StringAt (s.reg .a2) name →
      Faults (.sys 0x05#8) s (.hostError 0x05#8) ∨
      ∃ bytes : List Byte, bytes.length ≤ (s.reg .a1).toNat ∧
        (spanInRange (s.reg .a0) bytes.length →
          Completes (.sys 0x05#8) s 2 [(.rv, BitVec.ofNat 16 bytes.length)]
            (bytesAt (s.reg .a0).toNat bytes) s.flags s.outside 1) ∧
        (¬ spanInRange (s.reg .a0) bytes.length →
          Faults (.sys 0x05#8) s (.addressFault (firstBeyond (s.reg .a0)))))

/-- `wfile`: an unterminated name, then data that leave memory, are address faults; otherwise the host carries the write
out, which is recorded with the bytes of memory from `a0` on, or fails and that is a host error; no register is written
(48_io_and_syscalls.md section 3; decisions D25, D31, log 31). -/
def Obligations.WriteFileRecordsOrFaults : Prop :=
  ∀ s : State,
    (s.Unterminated (s.reg .a2) → Faults (.sys 0x06#8) s (.addressFault (firstBeyond (s.reg .a2)))) ∧
    (∀ name, s.StringAt (s.reg .a2) name →
      (¬ spanInRange (s.reg .a0) (s.reg .a1).toNat →
        Faults (.sys 0x06#8) s (.addressFault (firstBeyond (s.reg .a0)))) ∧
      (spanInRange (s.reg .a0) (s.reg .a1).toNat →
        Faults (.sys 0x06#8) s (.hostError 0x06#8) ∨
        Completes (.sys 0x06#8) s 2 [] [] s.flags
          { s.outside with
            fileEffects := s.fileEffects ++
              [{ name := name
                 contents := (List.range (s.reg .a1).toNat).map fun k => s.byteAt ((s.reg .a0).toNat + k) }] } 1))

/-- `fbreset` clears every pixel of the frame buffer, `fbstat` reads one (0 outside the display), `fbset` writes one (a
value above 3 counts as 0, a location outside the display is ignored); nothing else changes (48_io_and_syscalls.md section
3; decision D30, log 25). -/
def Obligations.FrameBufferPixels : Prop :=
  ∀ s : State,
    let x := sint (s.reg .a0)
    let y := sint (s.reg .a1)
    let shown : Prop := 0 ≤ x ∧ x ≤ 159 ∧ 0 ≤ y ∧ y ≤ 139
    let c : BitVec 2 := if (s.reg .a3).toNat ≤ 3 then BitVec.ofNat 2 (s.reg .a3).toNat else 0
    (∃ frame, Completes (.sys 0x11#8) s 2 [] [] s.flags { s.outside with frameBuffer := frame } 0 ∧
      ∀ i j, pixelOf frame i j = 0) ∧
    (shown → Completes (.sys 0x12#8) s 2
      [(.rv, BitVec.ofNat 16 (pixelOf s.frameBuffer x.toNat y.toNat).toNat)] [] s.flags s.outside 0) ∧
    (¬ shown → Completes (.sys 0x12#8) s 2 [(.rv, 0)] [] s.flags s.outside 0) ∧
    (shown → Pixels.wf s.frameBuffer = true →
      ∃ frame, Completes (.sys 0x13#8) s 2 [] [] s.flags { s.outside with frameBuffer := frame } 0 ∧
        pixelOf frame x.toNat y.toNat = c ∧
        ∀ i j : Nat, i < 160 → j < 140 → (i ≠ x.toNat ∨ j ≠ y.toNat) → pixelOf frame i j = pixelOf s.frameBuffer i j) ∧
    (¬ shown → Moves (.sys 0x13#8) s 2 [] [])

/-- `fbsync` copies the frame buffer to the screen; `fbss` and `fbds` leave the frame buffer with some contents that nothing
constrains; nothing else changes. The codes of `fbds` and `fbsync` are parameters, different from one another and from the
printed codes (48_io_and_syscalls.md section 3; decisions D24, D30, log 18, 26). -/
def Obligations.SyncAndSprites : Prop :=
  ∀ s : State,
    (∃ frame, Completes (.sys 0x14#8) s 2 [] [] s.flags { s.outside with frameBuffer := frame } 1 ∧
      Pixels.wf frame = true) ∧
    (validParams s.params = true →
      (∃ frame, Completes (.sys s.params.sysFbds) s 2 [] [] s.flags { s.outside with frameBuffer := frame } 1 ∧
        Pixels.wf frame = true) ∧
      Completes (.sys s.params.sysFbsync) s 2 [] [] s.flags { s.outside with screen := s.frameBuffer } 0)

/-- A code that names no service is a fault with that code (48_io_and_syscalls.md section 2; decision D23). -/
def Obligations.UnknownSystemCode : Prop :=
  ∀ (s : State) (code : BitVec 8), code ≠ s.params.sysFbds → code ≠ s.params.sysFbsync →
    ((0x09 ≤ code.toNat ∧ code.toNat ≤ 0x10) ∨ (0x15 ≤ code.toNat ∧ code ≠ 0xF0#8)) →
    Faults (.sys code) s (.unknownSyscall code)
end

