-- ==== Sys2Proof/Laws/Decode.lean ====
section
/-! SUPPORT. The fields of a word put together from its fields, and the numbers of registers and operations. -/

namespace Sys2Proof

theorem lt_four_cases {i : Nat} (h : i < 4) : i = 0 ∨ i = 1 ∨ i = 2 ∨ i = 3 := by omega

/-! ## Fields of a word built from nibbles -/

@[simp] theorem nib1_ofNibbles (a b c d : Nibble) : nib1 (ofNibbles a b c d) = a := by
  apply BitVec.eq_of_getLsbD_eq
  intro i hi
  rcases lt_four_cases hi with rfl | rfl | rfl | rfl <;>
    (simp only [ofNibbles, nib1, BitVec.getLsbD_append, BitVec.getLsbD_extractLsb']; simp)

@[simp] theorem nib2_ofNibbles (a b c d : Nibble) : nib2 (ofNibbles a b c d) = b := by
  apply BitVec.eq_of_getLsbD_eq
  intro i hi
  rcases lt_four_cases hi with rfl | rfl | rfl | rfl <;>
    (simp only [ofNibbles, nib2, BitVec.getLsbD_append, BitVec.getLsbD_extractLsb']; simp)

@[simp] theorem nib3_ofNibbles (a b c d : Nibble) : nib3 (ofNibbles a b c d) = c := by
  apply BitVec.eq_of_getLsbD_eq
  intro i hi
  rcases lt_four_cases hi with rfl | rfl | rfl | rfl <;>
    (simp only [ofNibbles, nib3, BitVec.getLsbD_append, BitVec.getLsbD_extractLsb']; simp)

@[simp] theorem nib4_ofNibbles (a b c d : Nibble) : nib4 (ofNibbles a b c d) = d := by
  apply BitVec.eq_of_getLsbD_eq
  intro i hi
  rcases lt_four_cases hi with rfl | rfl | rfl | rfl <;>
    (simp only [ofNibbles, nib4, BitVec.getLsbD_append, BitVec.getLsbD_extractLsb']; simp)

/-- A word is its four nibbles. -/
theorem ofNibbles_nibs (w : Word) : ofNibbles (nib1 w) (nib2 w) (nib3 w) (nib4 w) = w := by
  apply BitVec.eq_of_getLsbD_eq
  intro i hi
  simp only [ofNibbles, nib1, nib2, nib3, nib4, BitVec.getLsbD_append, BitVec.getLsbD_extractLsb']
  obtain h | h | h | h : i < 4 ∨ (4 ≤ i ∧ i < 8) ∨ (8 ≤ i ∧ i < 12) ∨ (12 ≤ i ∧ i < 16) := by omega
  · simp [h]
  · simp [show ¬ i < 4 by omega, show i - 4 < 4 by omega, show 4 + (i - 4) = i by omega]
  · simp [show ¬ i < 4 by omega, show ¬ i - 4 < 4 by omega, show i - 4 - 4 < 4 by omega,
      show 8 + (i - 4 - 4) = i by omega]
  · simp [show ¬ i < 4 by omega, show ¬ i - 4 < 4 by omega, show ¬ i - 4 - 4 < 4 by omega,
      show i - 4 - 4 - 4 < 4 by omega, show 12 + (i - 4 - 4 - 4) = i by omega]

/-! ## Fields of a jump word and of a `sys` word -/

@[simp] theorem nib1_encodeJ (n : Nibble) (t : BitVec 12) : nib1 (encodeJ n t) = n := by
  apply BitVec.eq_of_getLsbD_eq
  intro i hi
  rcases lt_four_cases hi with rfl | rfl | rfl | rfl <;>
    (simp only [encodeJ, nib1, BitVec.getLsbD_append, BitVec.getLsbD_extractLsb']; simp)

@[simp] theorem target_encodeJ (n : Nibble) (t : BitVec 12) : (encodeJ n t).extractLsb' 0 12 = t := by
  apply BitVec.eq_of_getLsbD_eq
  intro i hi
  simp only [encodeJ, BitVec.getLsbD_append, BitVec.getLsbD_extractLsb']
  simp [hi]

theorem encodeJ_fields (w : Word) : encodeJ (nib1 w) (w.extractLsb' 0 12) = w := by
  apply BitVec.eq_of_getLsbD_eq
  intro i hi
  simp only [encodeJ, nib1, BitVec.getLsbD_append, BitVec.getLsbD_extractLsb']
  by_cases h : i < 12
  · simp [h]
  · simp [h, show i - 12 < 4 by omega, show 12 + (i - 12) = i by omega]

@[simp] theorem nib1_sysWord (c : BitVec 8) : nib1 (0x00#8 ++ c : BitVec 16) = 0x0#4 := by
  apply BitVec.eq_of_getLsbD_eq
  intro i hi
  rcases lt_four_cases hi with rfl | rfl | rfl | rfl <;>
    (simp only [nib1, BitVec.getLsbD_append, BitVec.getLsbD_extractLsb']; simp)

@[simp] theorem nib2_sysWord (c : BitVec 8) : nib2 (0x00#8 ++ c : BitVec 16) = 0x0#4 := by
  apply BitVec.eq_of_getLsbD_eq
  intro i hi
  rcases lt_four_cases hi with rfl | rfl | rfl | rfl <;>
    (simp only [nib2, BitVec.getLsbD_append, BitVec.getLsbD_extractLsb']; simp)

@[simp] theorem code_sysWord (c : BitVec 8) : (0x00#8 ++ c : BitVec 16).extractLsb' 0 8 = c := by
  apply BitVec.eq_of_getLsbD_eq
  intro i hi
  simp only [BitVec.getLsbD_append, BitVec.getLsbD_extractLsb']
  simp [hi]

/-- A word whose first two nibbles are 0 is its low byte. -/
theorem sysWord_code (w : Word) (h1 : nib1 w = 0x0#4) (h2 : nib2 w = 0x0#4) :
    (0x00#8 ++ w.extractLsb' 0 8 : BitVec 16) = w := by
  apply BitVec.eq_of_getLsbD_eq
  intro i hi
  simp only [BitVec.getLsbD_append, BitVec.getLsbD_extractLsb']
  by_cases h : i < 8
  · simp [h]
  · have e1 : ∀ k, k < 4 → w.getLsbD (12 + k) = false := fun k hk => by
      have := congrArg (fun n => n.getLsbD k) h1
      simpa [nib1, BitVec.getLsbD_extractLsb', hk] using this
    have e2 : ∀ k, k < 4 → w.getLsbD (8 + k) = false := fun k hk => by
      have := congrArg (fun n => n.getLsbD k) h2
      simpa [nib2, BitVec.getLsbD_extractLsb', hk] using this
    have : w.getLsbD i = false := by
      by_cases h' : i < 12
      · have := e2 (i - 8) (by omega); rwa [show 8 + (i - 8) = i by omega] at this
      · have := e1 (i - 12) (by omega); rwa [show 12 + (i - 12) = i by omega] at this
    simp [h, this]

/-! ## Numbers of registers and operations -/

@[simp] theorem Reg.ofNibble_toNibble (r : Reg) : Reg.ofNibble r.toNibble = r := by cases r <;> rfl

@[simp] theorem Reg.toNibble_ofNibble (n : Nibble) : (Reg.ofNibble n).toNibble = n := by
  revert n; decide

@[simp] theorem AluOp.ofNibble_toNibble (op : AluOp) : AluOp.ofNibble op.toNibble = some op := by cases op <;> rfl

theorem AluOp.toNibble_ofNibble {n : Nibble} {op : AluOp} (h : AluOp.ofNibble n = some op) : op.toNibble = n := by
  revert n op; decide

/-! ## Bytes of a word -/

@[simp] theorem wordOfBytes_bytes (be : Bool) (w : Word) :
    wordOfBytes be (firstByte be w) (secondByte be w) = w := by
  have key : (hiByte w ++ loByte w : BitVec 16) = w := by
    apply BitVec.eq_of_getLsbD_eq
    intro i hi
    simp only [hiByte, loByte, BitVec.getLsbD_append, BitVec.getLsbD_extractLsb']
    by_cases h : i < 8
    · simp [h]
    · simp [h, show i - 8 < 8 by omega, show 8 + (i - 8) = i by omega]
  cases be <;> exact key

@[simp] theorem firstByte_wordOfBytes (be : Bool) (b0 b1 : Byte) : firstByte be (wordOfBytes be b0 b1) = b0 := by
  cases be <;> simp only [firstByte, wordOfBytes, hiByte, loByte, if_true, if_false, Bool.false_eq_true] <;>
    (apply BitVec.eq_of_getLsbD_eq; intro i hi
     simp only [BitVec.getLsbD_append, BitVec.getLsbD_extractLsb']; simp [hi])

@[simp] theorem secondByte_wordOfBytes (be : Bool) (b0 b1 : Byte) : secondByte be (wordOfBytes be b0 b1) = b1 := by
  cases be <;> simp only [secondByte, wordOfBytes, hiByte, loByte, if_true, if_false, Bool.false_eq_true] <;>
    (apply BitVec.eq_of_getLsbD_eq; intro i hi
     simp only [BitVec.getLsbD_append, BitVec.getLsbD_extractLsb']; simp [hi])

@[simp] theorem loByte_setWidth (b : Byte) : loByte (b.setWidth 16) = b := by
  apply BitVec.eq_of_getLsbD_eq
  intro i hi
  simp [loByte, hi, show i < 16 by omega]

/-! ## Data words -/

@[simp] theorem Instr.twoWords_withData (i : Instr) (d : Word) : (i.withData d).twoWords = i.twoWords := by
  cases i <;> rfl

@[simp] theorem encodeFirst_withData (i : Instr) (d : Word) : encodeFirst (i.withData d) = encodeFirst i := by
  cases i <;> rfl

theorem Instr.withData_dataWord (i : Instr) : i.withData i.dataWord = i := by cases i <;> rfl

theorem Instr.withData_withData (i : Instr) (d e : Word) : (i.withData d).withData e = i.withData e := by
  cases i <;> rfl

end Sys2Proof
end

