-- ==== Sys2Proof/Laws/Sparse.lean ====
section
/-! SUPPORT. The laws of the sparse arrays: what a read gives after a write, that every operation keeps the canonical form,
and that two canonical arrays with the same reads are the same list. -/

namespace Sys2Proof.Machine

variable {w : Nat} {m : List (Nat × BitVec w)} {bound lo a b k : Nat} {v : BitVec w}

/-- A canonical list reads 0 below its first key. -/
theorem Sparse.read_below (h : Sparse.wfFrom bound lo m = true) (ha : a < lo) : Sparse.read m a = 0 := by
  induction m generalizing lo with
  | nil => rfl
  | cons e rest ih =>
    obtain ⟨k, x⟩ := e
    simp only [Sparse.wfFrom, Bool.and_eq_true, decide_eq_true_eq] at h
    have hk : k ≠ a := by omega
    simp only [Sparse.read, hk, if_false]
    exact ih h.2 (by omega)

/-- A canonical list reads 0 from its bound on. -/
theorem Sparse.read_beyond (h : Sparse.wfFrom bound lo m = true) (ha : bound ≤ a) : Sparse.read m a = 0 := by
  induction m generalizing lo with
  | nil => rfl
  | cons e rest ih =>
    obtain ⟨k, x⟩ := e
    simp only [Sparse.wfFrom, Bool.and_eq_true, decide_eq_true_eq] at h
    have hk : k ≠ a := by omega
    simp only [Sparse.read, hk, if_false]
    exact ih h.2

theorem Sparse.wfFrom_mono {lo' : Nat} (h : Sparse.wfFrom bound lo m = true) (hl : lo' ≤ lo) :
    Sparse.wfFrom bound lo' m = true := by
  cases m with
  | nil => rfl
  | cons e rest =>
    obtain ⟨k, x⟩ := e
    simp only [Sparse.wfFrom, Bool.and_eq_true, decide_eq_true_eq] at h ⊢
    exact ⟨⟨⟨by omega, h.1.1.2⟩, h.1.2⟩, h.2⟩

theorem Sparse.wfFrom_put (h : Sparse.wfFrom bound (a + 1) m = true) (hl : lo ≤ a) (hb : a < bound) :
    Sparse.wfFrom bound lo (Sparse.put a v m) = true := by
  unfold Sparse.put
  split
  · exact Sparse.wfFrom_mono h (by omega)
  · simp_all [Sparse.wfFrom]

theorem Sparse.read_put (h : Sparse.wfFrom bound (a + 1) m = true) :
    Sparse.read (Sparse.put a v m) b = if b = a then v else Sparse.read m b := by
  unfold Sparse.put
  split
  · next hv =>
    split
    · next hb => rw [hb, hv, Sparse.read_below h (by omega)]
    · rfl
  · simp only [Sparse.read, eq_comm]

/-- A write keeps the canonical form. -/
theorem Sparse.wfFrom_write (h : Sparse.wfFrom bound lo m = true) (hl : lo ≤ a) (hb : a < bound) :
    Sparse.wfFrom bound lo (Sparse.write m a v) = true := by
  induction m generalizing lo with
  | nil => exact Sparse.wfFrom_put rfl hl hb
  | cons e rest ih =>
    obtain ⟨k, x⟩ := e
    have h' := h
    simp only [Sparse.wfFrom, Bool.and_eq_true, decide_eq_true_eq] at h'
    obtain ⟨⟨⟨h1, h2⟩, h3⟩, h4⟩ := h'
    unfold Sparse.write
    split
    · next hlt =>
      exact Sparse.wfFrom_put (by simp only [Sparse.wfFrom, Bool.and_eq_true, decide_eq_true_eq]; exact ⟨⟨⟨by omega, h2⟩, h3⟩, h4⟩) hl hb
    · split
      · next _ he => subst he; exact Sparse.wfFrom_put h4 hl hb
      · have := ih h4 (by omega)
        simp only [Sparse.wfFrom, Bool.and_eq_true, decide_eq_true_eq]
        exact ⟨⟨⟨h1, h2⟩, h3⟩, this⟩

/-- What a read gives after a write. -/
theorem Sparse.read_write (h : Sparse.wfFrom bound lo m = true) :
    Sparse.read (Sparse.write m a v) b = if b = a then v else Sparse.read m b := by
  induction m generalizing lo with
  | nil => exact Sparse.read_put (bound := bound) rfl
  | cons e rest ih =>
    obtain ⟨k, x⟩ := e
    have h' := h
    simp only [Sparse.wfFrom, Bool.and_eq_true, decide_eq_true_eq] at h'
    obtain ⟨⟨⟨h1, h2⟩, h3⟩, h4⟩ := h'
    unfold Sparse.write
    split
    · next hlt =>
      refine Sparse.read_put (bound := bound) ?_
      simp only [Sparse.wfFrom, Bool.and_eq_true, decide_eq_true_eq]
      exact ⟨⟨⟨by omega, h2⟩, h3⟩, h4⟩
    · split
      · next _ he =>
        subst he
        rw [Sparse.read_put h4]
        by_cases hb : b = a
        · simp [hb]
        · simp [hb, Sparse.read, Ne.symm hb]
      · next hn1 hn2 =>
        simp only [Sparse.read]
        by_cases hk : k = b
        · subst hk
          have : ¬ k = a := by omega
          simp [this]
        · simp [hk, ih h4]

theorem Sparse.wf_write (h : Sparse.wf bound m = true) (hb : a < bound) :
    Sparse.wf bound (Sparse.write m a v) = true := Sparse.wfFrom_write h (Nat.zero_le _) hb

theorem Sparse.read_write_of_wf (h : Sparse.wf bound m = true) :
    Sparse.read (Sparse.write m a v) b = if b = a then v else Sparse.read m b := Sparse.read_write h

theorem Sparse.tabulateFrom_spec (f : Nat → BitVec w) (n : Nat) :
    Sparse.wfFrom (lo + n) lo (Sparse.tabulateFrom f lo n) = true ∧
      ∀ k, Sparse.read (Sparse.tabulateFrom f lo n) k = if lo ≤ k ∧ k < lo + n then f k else 0 := by
  induction n generalizing lo with
  | zero => exact ⟨rfl, fun k => by simp [Sparse.tabulateFrom, Sparse.read]⟩
  | succ n ih =>
    have hw : Sparse.wfFrom (lo + (n + 1)) (lo + 1) (Sparse.tabulateFrom f (lo + 1) n) = true := by
      rw [show lo + (n + 1) = lo + 1 + n by omega]; exact ih.1
    refine ⟨Sparse.wfFrom_put hw (Nat.le_refl _) (by omega), fun k => ?_⟩
    rw [Sparse.tabulateFrom, Sparse.read_put hw, ih.2]
    by_cases hk : k = lo
    · simp [hk]
    · have : (lo + 1 ≤ k ∧ k < lo + 1 + n) ↔ (lo ≤ k ∧ k < lo + (n + 1)) := by omega
      rw [if_neg hk, if_congr this rfl rfl]

theorem Sparse.wf_tabulate (bound : Nat) (f : Nat → BitVec w) :
    Sparse.wf bound (Sparse.tabulate bound f) = true := by
  have := (Sparse.tabulateFrom_spec (lo := 0) f bound).1
  simpa [Sparse.wf, Sparse.tabulate] using this

theorem Sparse.read_tabulate (bound : Nat) (f : Nat → BitVec w) (k : Nat) :
    Sparse.read (Sparse.tabulate bound f) k = if k < bound then f k else 0 := by
  have := (Sparse.tabulateFrom_spec (lo := 0) f bound).2 k
  simpa [Sparse.tabulate] using this

/-- The value read at the first key of a canonical list is not 0. -/
theorem Sparse.ext_from {m m' : List (Nat × BitVec w)} (h : Sparse.wfFrom bound lo m = true)
    (h' : Sparse.wfFrom bound lo m' = true) (hr : ∀ k, Sparse.read m k = Sparse.read m' k) : m = m' := by
  induction m generalizing lo m' with
  | nil =>
    cases m' with
    | nil => rfl
    | cons e rest =>
      obtain ⟨k, x⟩ := e
      simp only [Sparse.wfFrom, Bool.and_eq_true, decide_eq_true_eq] at h'
      have := hr k
      simp only [Sparse.read, if_true] at this
      exact absurd this.symm h'.1.2
  | cons e rest ih =>
    obtain ⟨k, x⟩ := e
    have h0 := h
    simp only [Sparse.wfFrom, Bool.and_eq_true, decide_eq_true_eq] at h
    cases m' with
    | nil =>
      have := hr k
      simp only [Sparse.read, if_true] at this
      exact absurd this h.1.2
    | cons e' rest' =>
      obtain ⟨k', x'⟩ := e'
      have h0' := h'
      simp only [Sparse.wfFrom, Bool.and_eq_true, decide_eq_true_eq] at h'
      have hk : k = k' := by
        by_contra hne
        rcases Nat.lt_or_gt_of_ne hne with hlt | hlt
        · have h1 := hr k
          simp only [Sparse.read, if_true, if_neg (Ne.symm hne)] at h1
          rw [Sparse.read_below h'.2 (by omega)] at h1
          exact h.1.2 h1
        · have h1 := hr k'
          simp only [Sparse.read, if_true, if_neg hne] at h1
          rw [Sparse.read_below h.2 (by omega)] at h1
          exact h'.1.2 h1.symm
      subst hk
      have hx : x = x' := by simpa [Sparse.read] using hr k
      subst hx
      congr 1
      refine ih h.2 h'.2 fun j => ?_
      by_cases hj : k = j
      · subst hj
        rw [Sparse.read_below h.2 (by omega), Sparse.read_below h'.2 (by omega)]
      · simpa [Sparse.read, hj] using hr j

end Sys2Proof.Machine
end

