-- ==== Sys2Proof/Laws/State.lean ====
section
/-! SUPPORT. One lemma for each field of each update of the state, true by unfolding, and the register file's read after
write. -/

namespace Sys2Proof.Machine

@[simp] theorem State.setReg_regs (s : State) (r : Reg) (v : Word) : (s.setReg r v).regs = s.regs.set r v := rfl
@[simp] theorem State.setReg_flags (s : State) (r : Reg) (v : Word) : (s.setReg r v).flags = s.flags := rfl
@[simp] theorem State.setReg_ir (s : State) (r : Reg) (v : Word) : (s.setReg r v).ir = s.ir := rfl
@[simp] theorem State.setReg_dr (s : State) (r : Reg) (v : Word) : (s.setReg r v).dr = s.dr := rfl
@[simp] theorem State.setReg_cb (s : State) (r : Reg) (v : Word) : (s.setReg r v).cb = s.cb := rfl
@[simp] theorem State.setReg_db (s : State) (r : Reg) (v : Word) : (s.setReg r v).db = s.db := rfl
@[simp] theorem State.setReg_mem (s : State) (r : Reg) (v : Word) : (s.setReg r v).mem = s.mem := rfl
@[simp] theorem State.setReg_frameBuffer (s : State) (r : Reg) (v : Word) :
    (s.setReg r v).frameBuffer = s.frameBuffer := rfl
@[simp] theorem State.setReg_screen (s : State) (r : Reg) (v : Word) : (s.setReg r v).screen = s.screen := rfl
@[simp] theorem State.setReg_status (s : State) (r : Reg) (v : Word) : (s.setReg r v).status = s.status := rfl
@[simp] theorem State.setReg_console (s : State) (r : Reg) (v : Word) : (s.setReg r v).console = s.console := rfl
@[simp] theorem State.setReg_fileEffects (s : State) (r : Reg) (v : Word) :
    (s.setReg r v).fileEffects = s.fileEffects := rfl
@[simp] theorem State.setReg_draws (s : State) (r : Reg) (v : Word) : (s.setReg r v).draws = s.draws := rfl
@[simp] theorem State.setReg_params (s : State) (r : Reg) (v : Word) : (s.setReg r v).params = s.params := rfl

@[simp] theorem State.advance_regs (s : State) (n : Word) :
    (s.advance n).regs = s.regs.set .pc (s.reg .pc + n) := rfl
@[simp] theorem State.advance_flags (s : State) (n : Word) : (s.advance n).flags = s.flags := rfl
@[simp] theorem State.advance_ir (s : State) (n : Word) : (s.advance n).ir = s.ir := rfl
@[simp] theorem State.advance_dr (s : State) (n : Word) : (s.advance n).dr = s.dr := rfl
@[simp] theorem State.advance_cb (s : State) (n : Word) : (s.advance n).cb = s.cb := rfl
@[simp] theorem State.advance_db (s : State) (n : Word) : (s.advance n).db = s.db := rfl
@[simp] theorem State.advance_mem (s : State) (n : Word) : (s.advance n).mem = s.mem := rfl
@[simp] theorem State.advance_frameBuffer (s : State) (n : Word) : (s.advance n).frameBuffer = s.frameBuffer := rfl
@[simp] theorem State.advance_screen (s : State) (n : Word) : (s.advance n).screen = s.screen := rfl
@[simp] theorem State.advance_status (s : State) (n : Word) : (s.advance n).status = s.status := rfl
@[simp] theorem State.advance_console (s : State) (n : Word) : (s.advance n).console = s.console := rfl
@[simp] theorem State.advance_fileEffects (s : State) (n : Word) : (s.advance n).fileEffects = s.fileEffects := rfl
@[simp] theorem State.advance_draws (s : State) (n : Word) : (s.advance n).draws = s.draws := rfl
@[simp] theorem State.advance_params (s : State) (n : Word) : (s.advance n).params = s.params := rfl

@[simp] theorem State.setByte_regs (s : State) (a : Nat) (b : Byte) : (s.setByte a b).regs = s.regs := rfl
@[simp] theorem State.setByte_flags (s : State) (a : Nat) (b : Byte) : (s.setByte a b).flags = s.flags := rfl
@[simp] theorem State.setByte_ir (s : State) (a : Nat) (b : Byte) : (s.setByte a b).ir = s.ir := rfl
@[simp] theorem State.setByte_dr (s : State) (a : Nat) (b : Byte) : (s.setByte a b).dr = s.dr := rfl
@[simp] theorem State.setByte_cb (s : State) (a : Nat) (b : Byte) : (s.setByte a b).cb = s.cb := rfl
@[simp] theorem State.setByte_db (s : State) (a : Nat) (b : Byte) : (s.setByte a b).db = s.db := rfl
@[simp] theorem State.setByte_mem (s : State) (a : Nat) (b : Byte) :
    (s.setByte a b).mem = Sparse.write s.mem a b := rfl
@[simp] theorem State.setByte_frameBuffer (s : State) (a : Nat) (b : Byte) :
    (s.setByte a b).frameBuffer = s.frameBuffer := rfl
@[simp] theorem State.setByte_screen (s : State) (a : Nat) (b : Byte) : (s.setByte a b).screen = s.screen := rfl
@[simp] theorem State.setByte_status (s : State) (a : Nat) (b : Byte) : (s.setByte a b).status = s.status := rfl
@[simp] theorem State.setByte_console (s : State) (a : Nat) (b : Byte) : (s.setByte a b).console = s.console := rfl
@[simp] theorem State.setByte_fileEffects (s : State) (a : Nat) (b : Byte) :
    (s.setByte a b).fileEffects = s.fileEffects := rfl
@[simp] theorem State.setByte_draws (s : State) (a : Nat) (b : Byte) : (s.setByte a b).draws = s.draws := rfl
@[simp] theorem State.setByte_params (s : State) (a : Nat) (b : Byte) : (s.setByte a b).params = s.params := rfl

@[simp] theorem State.drawn_regs (s : State) : (s.drawn).regs = s.regs := rfl
@[simp] theorem State.drawn_flags (s : State) : (s.drawn).flags = s.flags := rfl
@[simp] theorem State.drawn_ir (s : State) : (s.drawn).ir = s.ir := rfl
@[simp] theorem State.drawn_dr (s : State) : (s.drawn).dr = s.dr := rfl
@[simp] theorem State.drawn_cb (s : State) : (s.drawn).cb = s.cb := rfl
@[simp] theorem State.drawn_db (s : State) : (s.drawn).db = s.db := rfl
@[simp] theorem State.drawn_mem (s : State) : (s.drawn).mem = s.mem := rfl
@[simp] theorem State.drawn_frameBuffer (s : State) : (s.drawn).frameBuffer = s.frameBuffer := rfl
@[simp] theorem State.drawn_screen (s : State) : (s.drawn).screen = s.screen := rfl
@[simp] theorem State.drawn_status (s : State) : (s.drawn).status = s.status := rfl
@[simp] theorem State.drawn_console (s : State) : (s.drawn).console = s.console := rfl
@[simp] theorem State.drawn_fileEffects (s : State) : (s.drawn).fileEffects = s.fileEffects := rfl
@[simp] theorem State.drawn_draws (s : State) : (s.drawn).draws = s.draws + 1 := rfl
@[simp] theorem State.drawn_params (s : State) : (s.drawn).params = s.params := rfl

@[simp] theorem State.raise_regs (s : State) (f : FaultReport) : (s.raise f).regs = s.regs := rfl
@[simp] theorem State.raise_flags (s : State) (f : FaultReport) :
    (s.raise f).flags = { s.flags with error := true } := rfl
@[simp] theorem State.raise_ir (s : State) (f : FaultReport) : (s.raise f).ir = Config.irAfterFault s.draws := rfl
@[simp] theorem State.raise_dr (s : State) (f : FaultReport) : (s.raise f).dr = Config.drAfterFault s.draws := rfl
@[simp] theorem State.raise_cb (s : State) (f : FaultReport) : (s.raise f).cb = s.cb := rfl
@[simp] theorem State.raise_db (s : State) (f : FaultReport) : (s.raise f).db = s.db := rfl
@[simp] theorem State.raise_mem (s : State) (f : FaultReport) : (s.raise f).mem = s.mem := rfl
@[simp] theorem State.raise_frameBuffer (s : State) (f : FaultReport) :
    (s.raise f).frameBuffer = s.frameBuffer := rfl
@[simp] theorem State.raise_screen (s : State) (f : FaultReport) : (s.raise f).screen = s.screen := rfl
@[simp] theorem State.raise_status (s : State) (f : FaultReport) : (s.raise f).status = .errored f := rfl
@[simp] theorem State.raise_console (s : State) (f : FaultReport) :
    (s.raise f).console = s.console ++ f.consoleItems := rfl
@[simp] theorem State.raise_fileEffects (s : State) (f : FaultReport) :
    (s.raise f).fileEffects = s.fileEffects := rfl
@[simp] theorem State.raise_draws (s : State) (f : FaultReport) : (s.raise f).draws = s.draws + 1 := rfl
@[simp] theorem State.raise_params (s : State) (f : FaultReport) : (s.raise f).params = s.params := rfl

@[simp] theorem State.writeAluFlags_regs (s : State) (x : AluResult) : (s.writeAluFlags x).regs = s.regs := rfl
@[simp] theorem State.writeAluFlags_flags (s : State) (x : AluResult) :
    (s.writeAluFlags x).flags = { s.flags with test := decide (x.res ≠ 0), overflow := x.ovf, nan := x.nan } := rfl
@[simp] theorem State.writeAluFlags_ir (s : State) (x : AluResult) : (s.writeAluFlags x).ir = s.ir := rfl
@[simp] theorem State.writeAluFlags_dr (s : State) (x : AluResult) : (s.writeAluFlags x).dr = s.dr := rfl
@[simp] theorem State.writeAluFlags_cb (s : State) (x : AluResult) : (s.writeAluFlags x).cb = s.cb := rfl
@[simp] theorem State.writeAluFlags_db (s : State) (x : AluResult) : (s.writeAluFlags x).db = s.db := rfl
@[simp] theorem State.writeAluFlags_mem (s : State) (x : AluResult) : (s.writeAluFlags x).mem = s.mem := rfl
@[simp] theorem State.writeAluFlags_frameBuffer (s : State) (x : AluResult) :
    (s.writeAluFlags x).frameBuffer = s.frameBuffer := rfl
@[simp] theorem State.writeAluFlags_screen (s : State) (x : AluResult) : (s.writeAluFlags x).screen = s.screen := rfl
@[simp] theorem State.writeAluFlags_status (s : State) (x : AluResult) : (s.writeAluFlags x).status = s.status := rfl
@[simp] theorem State.writeAluFlags_console (s : State) (x : AluResult) :
    (s.writeAluFlags x).console = s.console := rfl
@[simp] theorem State.writeAluFlags_fileEffects (s : State) (x : AluResult) :
    (s.writeAluFlags x).fileEffects = s.fileEffects := rfl
@[simp] theorem State.writeAluFlags_draws (s : State) (x : AluResult) :
    (s.writeAluFlags x).draws = if x.nan then s.draws + 1 else s.draws := rfl
@[simp] theorem State.writeAluFlags_params (s : State) (x : AluResult) : (s.writeAluFlags x).params = s.params := rfl

@[simp] theorem State.writeIncDecFlags_regs (s : State) (x : Word) (e : Int) :
    (s.writeIncDecFlags x e).regs = s.regs := rfl
@[simp] theorem State.writeIncDecFlags_flags (s : State) (x : Word) (e : Int) :
    (s.writeIncDecFlags x e).flags = { s.flags with overflow := outOfRange16 e, test := if s.params.incDecWriteTest then decide (x ≠ 0) else s.flags.test } := rfl
@[simp] theorem State.writeIncDecFlags_ir (s : State) (x : Word) (e : Int) :
    (s.writeIncDecFlags x e).ir = s.ir := rfl
@[simp] theorem State.writeIncDecFlags_dr (s : State) (x : Word) (e : Int) :
    (s.writeIncDecFlags x e).dr = s.dr := rfl
@[simp] theorem State.writeIncDecFlags_cb (s : State) (x : Word) (e : Int) :
    (s.writeIncDecFlags x e).cb = s.cb := rfl
@[simp] theorem State.writeIncDecFlags_db (s : State) (x : Word) (e : Int) :
    (s.writeIncDecFlags x e).db = s.db := rfl
@[simp] theorem State.writeIncDecFlags_mem (s : State) (x : Word) (e : Int) :
    (s.writeIncDecFlags x e).mem = s.mem := rfl
@[simp] theorem State.writeIncDecFlags_frameBuffer (s : State) (x : Word) (e : Int) :
    (s.writeIncDecFlags x e).frameBuffer = s.frameBuffer := rfl
@[simp] theorem State.writeIncDecFlags_screen (s : State) (x : Word) (e : Int) :
    (s.writeIncDecFlags x e).screen = s.screen := rfl
@[simp] theorem State.writeIncDecFlags_status (s : State) (x : Word) (e : Int) :
    (s.writeIncDecFlags x e).status = s.status := rfl
@[simp] theorem State.writeIncDecFlags_console (s : State) (x : Word) (e : Int) :
    (s.writeIncDecFlags x e).console = s.console := rfl
@[simp] theorem State.writeIncDecFlags_fileEffects (s : State) (x : Word) (e : Int) :
    (s.writeIncDecFlags x e).fileEffects = s.fileEffects := rfl
@[simp] theorem State.writeIncDecFlags_draws (s : State) (x : Word) (e : Int) :
    (s.writeIncDecFlags x e).draws = s.draws := rfl
@[simp] theorem State.writeIncDecFlags_params (s : State) (x : Word) (e : Int) :
    (s.writeIncDecFlags x e).params = s.params := rfl

@[simp] theorem State.writeTest_regs (s : State) (b : Bool) : (s.writeTest b).regs = s.regs := rfl
@[simp] theorem State.writeTest_flags (s : State) (b : Bool) :
    (s.writeTest b).flags = { s.flags with test := b } := rfl
@[simp] theorem State.writeTest_ir (s : State) (b : Bool) : (s.writeTest b).ir = s.ir := rfl
@[simp] theorem State.writeTest_dr (s : State) (b : Bool) : (s.writeTest b).dr = s.dr := rfl
@[simp] theorem State.writeTest_cb (s : State) (b : Bool) : (s.writeTest b).cb = s.cb := rfl
@[simp] theorem State.writeTest_db (s : State) (b : Bool) : (s.writeTest b).db = s.db := rfl
@[simp] theorem State.writeTest_mem (s : State) (b : Bool) : (s.writeTest b).mem = s.mem := rfl
@[simp] theorem State.writeTest_frameBuffer (s : State) (b : Bool) :
    (s.writeTest b).frameBuffer = s.frameBuffer := rfl
@[simp] theorem State.writeTest_screen (s : State) (b : Bool) : (s.writeTest b).screen = s.screen := rfl
@[simp] theorem State.writeTest_status (s : State) (b : Bool) : (s.writeTest b).status = s.status := rfl
@[simp] theorem State.writeTest_console (s : State) (b : Bool) : (s.writeTest b).console = s.console := rfl
@[simp] theorem State.writeTest_fileEffects (s : State) (b : Bool) :
    (s.writeTest b).fileEffects = s.fileEffects := rfl
@[simp] theorem State.writeTest_draws (s : State) (b : Bool) : (s.writeTest b).draws = s.draws := rfl
@[simp] theorem State.writeTest_params (s : State) (b : Bool) : (s.writeTest b).params = s.params := rfl

@[simp] theorem State.withFetched_regs (s : State) (w d : Word) : (s.withFetched w d).regs = s.regs := rfl
@[simp] theorem State.withFetched_flags (s : State) (w d : Word) : (s.withFetched w d).flags = s.flags := rfl
@[simp] theorem State.withFetched_ir (s : State) (w d : Word) : (s.withFetched w d).ir = w := rfl
@[simp] theorem State.withFetched_dr (s : State) (w d : Word) : (s.withFetched w d).dr = d := rfl
@[simp] theorem State.withFetched_cb (s : State) (w d : Word) : (s.withFetched w d).cb = s.cb := rfl
@[simp] theorem State.withFetched_db (s : State) (w d : Word) : (s.withFetched w d).db = s.db := rfl
@[simp] theorem State.withFetched_mem (s : State) (w d : Word) : (s.withFetched w d).mem = s.mem := rfl
@[simp] theorem State.withFetched_frameBuffer (s : State) (w d : Word) :
    (s.withFetched w d).frameBuffer = s.frameBuffer := rfl
@[simp] theorem State.withFetched_screen (s : State) (w d : Word) : (s.withFetched w d).screen = s.screen := rfl
@[simp] theorem State.withFetched_status (s : State) (w d : Word) : (s.withFetched w d).status = s.status := rfl
@[simp] theorem State.withFetched_console (s : State) (w d : Word) : (s.withFetched w d).console = s.console := rfl
@[simp] theorem State.withFetched_fileEffects (s : State) (w d : Word) :
    (s.withFetched w d).fileEffects = s.fileEffects := rfl
@[simp] theorem State.withFetched_draws (s : State) (w d : Word) : (s.withFetched w d).draws = s.draws := rfl
@[simp] theorem State.withFetched_params (s : State) (w d : Word) : (s.withFetched w d).params = s.params := rfl

@[simp] theorem State.consoleOut_regs (s : State) (i : ConsoleItem) : (s.consoleOut i).regs = s.regs := rfl
@[simp] theorem State.consoleOut_flags (s : State) (i : ConsoleItem) : (s.consoleOut i).flags = s.flags := rfl
@[simp] theorem State.consoleOut_ir (s : State) (i : ConsoleItem) : (s.consoleOut i).ir = s.ir := rfl
@[simp] theorem State.consoleOut_dr (s : State) (i : ConsoleItem) : (s.consoleOut i).dr = s.dr := rfl
@[simp] theorem State.consoleOut_cb (s : State) (i : ConsoleItem) : (s.consoleOut i).cb = s.cb := rfl
@[simp] theorem State.consoleOut_db (s : State) (i : ConsoleItem) : (s.consoleOut i).db = s.db := rfl
@[simp] theorem State.consoleOut_mem (s : State) (i : ConsoleItem) : (s.consoleOut i).mem = s.mem := rfl
@[simp] theorem State.consoleOut_frameBuffer (s : State) (i : ConsoleItem) :
    (s.consoleOut i).frameBuffer = s.frameBuffer := rfl
@[simp] theorem State.consoleOut_screen (s : State) (i : ConsoleItem) : (s.consoleOut i).screen = s.screen := rfl
@[simp] theorem State.consoleOut_status (s : State) (i : ConsoleItem) : (s.consoleOut i).status = s.status := rfl
@[simp] theorem State.consoleOut_console (s : State) (i : ConsoleItem) :
    (s.consoleOut i).console = s.console ++ [i] := rfl
@[simp] theorem State.consoleOut_fileEffects (s : State) (i : ConsoleItem) :
    (s.consoleOut i).fileEffects = s.fileEffects := rfl
@[simp] theorem State.consoleOut_draws (s : State) (i : ConsoleItem) : (s.consoleOut i).draws = s.draws := rfl
@[simp] theorem State.consoleOut_params (s : State) (i : ConsoleItem) : (s.consoleOut i).params = s.params := rfl

@[simp] theorem State.fileWritten_regs (s : State) (e : FileEffect) : (s.fileWritten e).regs = s.regs := rfl
@[simp] theorem State.fileWritten_flags (s : State) (e : FileEffect) : (s.fileWritten e).flags = s.flags := rfl
@[simp] theorem State.fileWritten_ir (s : State) (e : FileEffect) : (s.fileWritten e).ir = s.ir := rfl
@[simp] theorem State.fileWritten_dr (s : State) (e : FileEffect) : (s.fileWritten e).dr = s.dr := rfl
@[simp] theorem State.fileWritten_cb (s : State) (e : FileEffect) : (s.fileWritten e).cb = s.cb := rfl
@[simp] theorem State.fileWritten_db (s : State) (e : FileEffect) : (s.fileWritten e).db = s.db := rfl
@[simp] theorem State.fileWritten_mem (s : State) (e : FileEffect) : (s.fileWritten e).mem = s.mem := rfl
@[simp] theorem State.fileWritten_frameBuffer (s : State) (e : FileEffect) :
    (s.fileWritten e).frameBuffer = s.frameBuffer := rfl
@[simp] theorem State.fileWritten_screen (s : State) (e : FileEffect) : (s.fileWritten e).screen = s.screen := rfl
@[simp] theorem State.fileWritten_status (s : State) (e : FileEffect) : (s.fileWritten e).status = s.status := rfl
@[simp] theorem State.fileWritten_console (s : State) (e : FileEffect) : (s.fileWritten e).console = s.console := rfl
@[simp] theorem State.fileWritten_fileEffects (s : State) (e : FileEffect) :
    (s.fileWritten e).fileEffects = s.fileEffects ++ [e] := rfl
@[simp] theorem State.fileWritten_draws (s : State) (e : FileEffect) : (s.fileWritten e).draws = s.draws := rfl
@[simp] theorem State.fileWritten_params (s : State) (e : FileEffect) : (s.fileWritten e).params = s.params := rfl

@[simp] theorem State.withFrame_regs (s : State) (m : List (Nat × BitVec 2)) : (s.withFrame m).regs = s.regs := rfl
@[simp] theorem State.withFrame_flags (s : State) (m : List (Nat × BitVec 2)) :
    (s.withFrame m).flags = s.flags := rfl
@[simp] theorem State.withFrame_ir (s : State) (m : List (Nat × BitVec 2)) : (s.withFrame m).ir = s.ir := rfl
@[simp] theorem State.withFrame_dr (s : State) (m : List (Nat × BitVec 2)) : (s.withFrame m).dr = s.dr := rfl
@[simp] theorem State.withFrame_cb (s : State) (m : List (Nat × BitVec 2)) : (s.withFrame m).cb = s.cb := rfl
@[simp] theorem State.withFrame_db (s : State) (m : List (Nat × BitVec 2)) : (s.withFrame m).db = s.db := rfl
@[simp] theorem State.withFrame_mem (s : State) (m : List (Nat × BitVec 2)) : (s.withFrame m).mem = s.mem := rfl
@[simp] theorem State.withFrame_frameBuffer (s : State) (m : List (Nat × BitVec 2)) :
    (s.withFrame m).frameBuffer = m := rfl
@[simp] theorem State.withFrame_screen (s : State) (m : List (Nat × BitVec 2)) :
    (s.withFrame m).screen = s.screen := rfl
@[simp] theorem State.withFrame_status (s : State) (m : List (Nat × BitVec 2)) :
    (s.withFrame m).status = s.status := rfl
@[simp] theorem State.withFrame_console (s : State) (m : List (Nat × BitVec 2)) :
    (s.withFrame m).console = s.console := rfl
@[simp] theorem State.withFrame_fileEffects (s : State) (m : List (Nat × BitVec 2)) :
    (s.withFrame m).fileEffects = s.fileEffects := rfl
@[simp] theorem State.withFrame_draws (s : State) (m : List (Nat × BitVec 2)) :
    (s.withFrame m).draws = s.draws := rfl
@[simp] theorem State.withFrame_params (s : State) (m : List (Nat × BitVec 2)) :
    (s.withFrame m).params = s.params := rfl

@[simp] theorem State.setPixel_regs (s : State) (x y : Int) (c : BitVec 2) : (s.setPixel x y c).regs = s.regs := by
  unfold State.setPixel; split <;> rfl
@[simp] theorem State.setPixel_flags (s : State) (x y : Int) (c : BitVec 2) : (s.setPixel x y c).flags = s.flags := by
  unfold State.setPixel; split <;> rfl
@[simp] theorem State.setPixel_ir (s : State) (x y : Int) (c : BitVec 2) : (s.setPixel x y c).ir = s.ir := by
  unfold State.setPixel; split <;> rfl
@[simp] theorem State.setPixel_dr (s : State) (x y : Int) (c : BitVec 2) : (s.setPixel x y c).dr = s.dr := by
  unfold State.setPixel; split <;> rfl
@[simp] theorem State.setPixel_cb (s : State) (x y : Int) (c : BitVec 2) : (s.setPixel x y c).cb = s.cb := by
  unfold State.setPixel; split <;> rfl
@[simp] theorem State.setPixel_db (s : State) (x y : Int) (c : BitVec 2) : (s.setPixel x y c).db = s.db := by
  unfold State.setPixel; split <;> rfl
@[simp] theorem State.setPixel_mem (s : State) (x y : Int) (c : BitVec 2) : (s.setPixel x y c).mem = s.mem := by
  unfold State.setPixel; split <;> rfl
@[simp] theorem State.setPixel_screen (s : State) (x y : Int) (c : BitVec 2) : (s.setPixel x y c).screen = s.screen := by
  unfold State.setPixel; split <;> rfl
@[simp] theorem State.setPixel_status (s : State) (x y : Int) (c : BitVec 2) : (s.setPixel x y c).status = s.status := by
  unfold State.setPixel; split <;> rfl
@[simp] theorem State.setPixel_console (s : State) (x y : Int) (c : BitVec 2) : (s.setPixel x y c).console = s.console := by
  unfold State.setPixel; split <;> rfl
@[simp] theorem State.setPixel_fileEffects (s : State) (x y : Int) (c : BitVec 2) : (s.setPixel x y c).fileEffects = s.fileEffects := by
  unfold State.setPixel; split <;> rfl
@[simp] theorem State.setPixel_draws (s : State) (x y : Int) (c : BitVec 2) : (s.setPixel x y c).draws = s.draws := by
  unfold State.setPixel; split <;> rfl
@[simp] theorem State.setPixel_params (s : State) (x y : Int) (c : BitVec 2) : (s.setPixel x y c).params = s.params := by
  unfold State.setPixel; split <;> rfl

/-! ## Registers -/

theorem Regs.get_set (f : Regs) (r q : Reg) (v : Word) : (f.set r v).get q = if q = r then v else f.get q := by
  cases r <;> cases q <;> rfl

@[simp] theorem State.reg_setReg_same (s : State) (r : Reg) (v : Word) : (s.setReg r v).reg r = v := by
  simp [State.reg, Regs.get_set]

theorem State.reg_setReg (s : State) (r q : Reg) (v : Word) :
    (s.setReg r v).reg q = if q = r then v else s.reg q := Regs.get_set s.regs r q v

theorem State.reg_setReg_ne (s : State) {r q : Reg} (v : Word) (h : q ≠ r) : (s.setReg r v).reg q = s.reg q := by
  simp [State.reg_setReg, h]

theorem State.reg_advance (s : State) (n : Word) (q : Reg) :
    (s.advance n).reg q = if q = .pc then s.reg .pc + n else s.reg q := State.reg_setReg s .pc q _

@[simp] theorem State.reg_setByte (s : State) (a : Nat) (b : Byte) (q : Reg) : (s.setByte a b).reg q = s.reg q := rfl
@[simp] theorem State.reg_drawn (s : State) (q : Reg) : (s.drawn).reg q = s.reg q := rfl
@[simp] theorem State.reg_raise (s : State) (f : FaultReport) (q : Reg) : (s.raise f).reg q = s.reg q := rfl
@[simp] theorem State.reg_writeAluFlags (s : State) (x : AluResult) (q : Reg) : (s.writeAluFlags x).reg q = s.reg q := rfl
@[simp] theorem State.reg_writeIncDecFlags (s : State) (x : Word) (e : Int) (q : Reg) : (s.writeIncDecFlags x e).reg q = s.reg q := rfl
@[simp] theorem State.reg_writeTest (s : State) (b : Bool) (q : Reg) : (s.writeTest b).reg q = s.reg q := rfl
@[simp] theorem State.reg_withFetched (s : State) (w d : Word) (q : Reg) : (s.withFetched w d).reg q = s.reg q := rfl
@[simp] theorem State.reg_consoleOut (s : State) (i : ConsoleItem) (q : Reg) : (s.consoleOut i).reg q = s.reg q := rfl
@[simp] theorem State.reg_fileWritten (s : State) (e : FileEffect) (q : Reg) : (s.fileWritten e).reg q = s.reg q := rfl
@[simp] theorem State.reg_withFrame (s : State) (m : List (Nat × BitVec 2)) (q : Reg) : (s.withFrame m).reg q = s.reg q := rfl
@[simp] theorem State.reg_setPixel (s : State) (x y : Int) (c : BitVec 2) (q : Reg) :
    (s.setPixel x y c).reg q = s.reg q := by
  simp [State.reg]

/-! ## Bytes: an update that leaves memory alone leaves every byte alone -/

@[simp] theorem State.byteAt_setReg (s : State) (r : Reg) (v : Word) (a : Nat) : (s.setReg r v).byteAt a = s.byteAt a := rfl
@[simp] theorem State.byteAt_advance (s : State) (n : Word) (a : Nat) : (s.advance n).byteAt a = s.byteAt a := rfl
@[simp] theorem State.byteAt_drawn (s : State) (a : Nat) : (s.drawn).byteAt a = s.byteAt a := rfl
@[simp] theorem State.byteAt_raise (s : State) (f : FaultReport) (a : Nat) : (s.raise f).byteAt a = s.byteAt a := rfl
@[simp] theorem State.byteAt_writeAluFlags (s : State) (x : AluResult) (a : Nat) : (s.writeAluFlags x).byteAt a = s.byteAt a := rfl
@[simp] theorem State.byteAt_writeIncDecFlags (s : State) (x : Word) (e : Int) (a : Nat) : (s.writeIncDecFlags x e).byteAt a = s.byteAt a := rfl
@[simp] theorem State.byteAt_writeTest (s : State) (b : Bool) (a : Nat) : (s.writeTest b).byteAt a = s.byteAt a := rfl
@[simp] theorem State.byteAt_withFetched (s : State) (w d : Word) (a : Nat) : (s.withFetched w d).byteAt a = s.byteAt a := rfl
@[simp] theorem State.byteAt_consoleOut (s : State) (i : ConsoleItem) (a : Nat) : (s.consoleOut i).byteAt a = s.byteAt a := rfl
@[simp] theorem State.byteAt_fileWritten (s : State) (e : FileEffect) (a : Nat) : (s.fileWritten e).byteAt a = s.byteAt a := rfl
@[simp] theorem State.byteAt_withFrame (s : State) (m : List (Nat × BitVec 2)) (a : Nat) : (s.withFrame m).byteAt a = s.byteAt a := rfl
@[simp] theorem State.byteAt_setPixel (s : State) (x y : Int) (c : BitVec 2) (a : Nat) :
    (s.setPixel x y c).byteAt a = s.byteAt a := by
  simp [State.byteAt]

/-! ## The end of a meaning -/

@[simp] theorem finish_ok (s t : State) : finish s (.ok t) = .next t := rfl
@[simp] theorem finish_error (s : State) (f : FaultReport) : finish s (.error f) = .next (s.raise f) := rfl

/-- A meaning that ends in `finish` always answers a next state: the one it computed or the fault, taken before any
effect. -/
theorem finish_cases {s t : State} {r : Except FaultReport State} (h : finish s r = .next t) :
    r = .ok t ∨ ∃ f, r = .error f ∧ t = s.raise f := by
  cases r with
  | ok u => left; simpa using h
  | error f => right; exact ⟨f, rfl, by simpa using h.symm⟩

theorem finish_next (s : State) (r : Except FaultReport State) : ∃ t, finish s r = .next t := by
  cases r with
  | ok u => exact ⟨u, rfl⟩
  | error f => exact ⟨_, rfl⟩

/-- Peel one operation off a meaning: it succeeded with a value, and the rest did with it. -/
theorem except_bind_ok {α β : Type} {x : Except FaultReport α} {k : α → Except FaultReport β} {b : β}
    (h : (x >>= k) = .ok b) : ∃ a, x = .ok a ∧ k a = .ok b := by
  cases x with
  | ok a => exact ⟨a, rfl, h⟩
  | error f => cases h

@[simp] theorem except_ok_bind {α β : Type} (a : α) (k : α → Except FaultReport β) : (Except.ok a >>= k) = k a := rfl
@[simp] theorem except_error_bind {α β : Type} (f : FaultReport) (k : α → Except FaultReport β) :
    ((Except.error f : Except FaultReport α) >>= k) = .error f := rfl

end Sys2Proof.Machine
end

