-- ==== Sys2Proof/Laws/Memory.lean ====
section
/-! SUPPORT. What each memory operation can do, said once: when it faults, what it reads, which bytes it leaves, and that
it keeps the canonical form of memory. -/

namespace Sys2Proof.Machine

variable {s t : State} {addr v : Word} {f : FaultReport}

theorem inRange_iff (addr : Word) (n : Nat) : inRange addr n = true ↔ addr.toNat + n ≤ 4096 := by
  unfold inRange memSize; exact decide_eq_true_iff

/-! ## One byte -/

theorem State.readByte_ok (h : addr.toNat < 4096) : s.readByte addr = .ok (s.byteAt addr.toNat) := by
  unfold State.readByte; rw [if_pos ((inRange_iff _ _).2 (by omega))]

theorem State.readByte_error (h : 4096 ≤ addr.toNat) : s.readByte addr = .error (.addressFault addr) := by
  unfold State.readByte; rw [if_neg]; rw [inRange_iff]; omega

theorem State.writeByte_ok (h : addr.toNat < 4096) :
    s.writeByte addr v = .ok (s.setByte addr.toNat (loByte v)) := by
  unfold State.writeByte; rw [if_pos ((inRange_iff _ _).2 (by omega))]

theorem State.writeByte_error (h : 4096 ≤ addr.toNat) : s.writeByte addr v = .error (.addressFault addr) := by
  unfold State.writeByte; rw [if_neg]; rw [inRange_iff]; omega

/-- Everything a byte write can do. -/
theorem State.writeByte_cases (h : s.writeByte addr v = .ok t) :
    addr.toNat < 4096 ∧ t = s.setByte addr.toNat (loByte v) := by
  by_cases hr : addr.toNat < 4096
  · rw [State.writeByte_ok hr] at h; exact ⟨hr, (Except.ok.inj h).symm⟩
  · rw [State.writeByte_error (by omega)] at h; cases h

/-! ## One word -/

/-- The state a word write leaves. -/
def State.setWord (s : State) (a : Nat) (v : Word) : State :=
  (s.setByte a (firstByte s.params.bigEndian v)).setByte (a + 1) (secondByte s.params.bigEndian v)

theorem State.readWord_ok (h : addr.toNat ≤ 4094) :
    s.readWord addr = .ok (wordOfBytes s.params.bigEndian (s.byteAt addr.toNat) (s.byteAt (addr.toNat + 1))) := by
  unfold State.readWord; rw [if_pos ((inRange_iff _ _).2 (by omega))]

theorem State.readWord_error (h : 4094 < addr.toNat) : s.readWord addr = .error (.addressFault addr) := by
  unfold State.readWord; rw [if_neg]; rw [inRange_iff]; omega

theorem State.writeWord_ok (h : addr.toNat ≤ 4094) : s.writeWord addr v = .ok (s.setWord addr.toNat v) := by
  unfold State.writeWord; rw [if_pos ((inRange_iff _ _).2 (by omega))]; rfl

theorem State.writeWord_error (h : 4094 < addr.toNat) : s.writeWord addr v = .error (.addressFault addr) := by
  unfold State.writeWord; rw [if_neg]; rw [inRange_iff]; omega

/-- Everything a word write can do. -/
theorem State.writeWord_cases (h : s.writeWord addr v = .ok t) :
    addr.toNat ≤ 4094 ∧ t = s.setWord addr.toNat v := by
  by_cases hr : addr.toNat ≤ 4094
  · rw [State.writeWord_ok hr] at h; exact ⟨hr, (Except.ok.inj h).symm⟩
  · rw [State.writeWord_error (by omega)] at h; cases h

/-- Everything a word read can do. -/
theorem State.readWord_cases {x : Word} (h : s.readWord addr = .ok x) :
    addr.toNat ≤ 4094 ∧ x = wordOfBytes s.params.bigEndian (s.byteAt addr.toNat) (s.byteAt (addr.toNat + 1)) := by
  by_cases hr : addr.toNat ≤ 4094
  · rw [State.readWord_ok hr] at h; exact ⟨hr, (Except.ok.inj h).symm⟩
  · rw [State.readWord_error (by omega)] at h; cases h

/-! ## Reads after writes -/

theorem State.byteAt_setByte (h : Memory.wf s.mem = true) (a b : Nat) (x : Byte) :
    (s.setByte a x).byteAt b = if b = a then x else s.byteAt b := Sparse.read_write_of_wf h

theorem State.wf_setByte (h : Memory.wf s.mem = true) {a : Nat} (ha : a < 4096) (x : Byte) :
    Memory.wf (s.setByte a x).mem = true := Sparse.wf_write h ha

theorem State.wf_setWord (h : Memory.wf s.mem = true) {a : Nat} (ha : a ≤ 4094) (x : Word) :
    Memory.wf (s.setWord a x).mem = true :=
  State.wf_setByte (State.wf_setByte h (by omega) _) (by omega) _

theorem State.byteAt_setWord (h : Memory.wf s.mem = true) {a : Nat} (ha : a ≤ 4094) (x : Word) (b : Nat) :
    (s.setWord a x).byteAt b =
      if b = a + 1 then secondByte s.params.bigEndian x
      else if b = a then firstByte s.params.bigEndian x else s.byteAt b := by
  unfold State.setWord
  rw [State.byteAt_setByte (State.wf_setByte h (by omega) _), State.byteAt_setByte h]

theorem State.wf_writeByte (h : Memory.wf s.mem = true) (hw : s.writeByte addr v = .ok t) :
    Memory.wf t.mem = true := by
  obtain ⟨hr, rfl⟩ := State.writeByte_cases hw
  exact State.wf_setByte h hr _

theorem State.wf_writeWord (h : Memory.wf s.mem = true) (hw : s.writeWord addr v = .ok t) :
    Memory.wf t.mem = true := by
  obtain ⟨hr, rfl⟩ := State.writeWord_cases hw
  exact State.wf_setWord h hr _

/-! ## The word write as a record update -/

@[simp] theorem State.setWord_regs (s : State) (a : Nat) (x : Word) : (s.setWord a x).regs = s.regs := rfl
@[simp] theorem State.setWord_flags (s : State) (a : Nat) (x : Word) : (s.setWord a x).flags = s.flags := rfl
@[simp] theorem State.setWord_ir (s : State) (a : Nat) (x : Word) : (s.setWord a x).ir = s.ir := rfl
@[simp] theorem State.setWord_dr (s : State) (a : Nat) (x : Word) : (s.setWord a x).dr = s.dr := rfl
@[simp] theorem State.setWord_cb (s : State) (a : Nat) (x : Word) : (s.setWord a x).cb = s.cb := rfl
@[simp] theorem State.setWord_db (s : State) (a : Nat) (x : Word) : (s.setWord a x).db = s.db := rfl
@[simp] theorem State.setWord_frameBuffer (s : State) (a : Nat) (x : Word) : (s.setWord a x).frameBuffer = s.frameBuffer := rfl
@[simp] theorem State.setWord_screen (s : State) (a : Nat) (x : Word) : (s.setWord a x).screen = s.screen := rfl
@[simp] theorem State.setWord_status (s : State) (a : Nat) (x : Word) : (s.setWord a x).status = s.status := rfl
@[simp] theorem State.setWord_console (s : State) (a : Nat) (x : Word) : (s.setWord a x).console = s.console := rfl
@[simp] theorem State.setWord_fileEffects (s : State) (a : Nat) (x : Word) : (s.setWord a x).fileEffects = s.fileEffects := rfl
@[simp] theorem State.setWord_draws (s : State) (a : Nat) (x : Word) : (s.setWord a x).draws = s.draws := rfl
@[simp] theorem State.setWord_params (s : State) (a : Nat) (x : Word) : (s.setWord a x).params = s.params := rfl
@[simp] theorem State.reg_setWord (s : State) (a : Nat) (x : Word) (q : Reg) : (s.setWord a x).reg q = s.reg q := rfl

/-! ## Sequences of bytes -/

/-- A state that differs from another in memory alone, which is canonical if it was. -/
structure State.MemoryOnly (s t : State) : Prop where
  same : t = { s with mem := t.mem }
  wf : Memory.wf s.mem = true → Memory.wf t.mem = true

theorem State.writeBytes_memoryOnly {bytes : List Byte} (h : s.writeBytes addr bytes = .ok t) : s.MemoryOnly t := by
  induction bytes generalizing s addr with
  | nil => cases h; exact ⟨rfl, id⟩
  | cons b rest ih =>
    obtain ⟨u, hu, hr⟩ := except_bind_ok h
    have ⟨hs, hw⟩ := ih hr
    obtain ⟨hlt, rfl⟩ := State.writeByte_cases hu
    exact ⟨hs, fun h0 => hw (State.wf_setByte h0 hlt _)⟩

end Sys2Proof.Machine
end

