-- ==== Sys2Proof/Laws/Exec.lean ====
section
/-! SUPPORT. What each meaning can do, said once: a next state always exists, and it is either the fault taken from the
state before the instruction, or it keeps all that the instruction's class keeps. -/

namespace Sys2Proof.Machine

variable {s t u : State} {f : FaultReport}

/-! ## The values an instruction reads -/

/-- A register read after the pc has advanced. -/
theorem State.reg_advance_operand (s : State) (n : Word) (q : Reg) : (s.advance n).reg q = s.operand n q :=
  State.reg_advance s n q

/-! ## What an instruction other than `sys` keeps -/

/-- Nothing changes but registers, memory (whose canonical form is kept), the test, overflow and nan bits and the draws. -/
structure Local (s t : State) : Prop where
  hidden : SameHidden s t
  outside : t.outside = s.outside
  error : t.flags.error = s.flags.error
  wf : Memory.wf s.mem = true → Memory.wf t.mem = true

theorem Local.refl (s : State) : Local s s := ⟨⟨rfl, rfl, rfl, rfl, rfl⟩, rfl, rfl, id⟩

theorem Local.trans (h : Local s t) (h' : Local t u) : Local s u := by
  obtain ⟨⟨a, b, c, d, e⟩, o, er, w⟩ := h
  obtain ⟨⟨a', b', c', d', e'⟩, o', er', w'⟩ := h'
  exact ⟨⟨a'.trans a, b'.trans b, c'.trans c, d'.trans d, e'.trans e⟩, o'.trans o, er'.trans er, w' ∘ w⟩

theorem Local.advance (s : State) (n : Word) : Local s (s.advance n) := ⟨⟨rfl, rfl, rfl, rfl, rfl⟩, rfl, rfl, id⟩
theorem Local.setReg (s : State) (r : Reg) (v : Word) : Local s (s.setReg r v) := ⟨⟨rfl, rfl, rfl, rfl, rfl⟩, rfl, rfl, id⟩
theorem Local.writeAluFlags (s : State) (x : AluResult) : Local s (s.writeAluFlags x) :=
  ⟨⟨rfl, rfl, rfl, rfl, rfl⟩, rfl, rfl, id⟩
theorem Local.writeIncDecFlags (s : State) (x : Word) (e : Int) : Local s (s.writeIncDecFlags x e) :=
  ⟨⟨rfl, rfl, rfl, rfl, rfl⟩, rfl, rfl, id⟩
theorem Local.writeTest (s : State) (b : Bool) : Local s (s.writeTest b) := ⟨⟨rfl, rfl, rfl, rfl, rfl⟩, rfl, rfl, id⟩
theorem Local.writeWord {addr v : Word} (h : s.writeWord addr v = .ok t) : Local s t := by
  have hw := fun h0 => State.wf_writeWord h0 h
  obtain ⟨-, rfl⟩ := State.writeWord_cases h
  exact ⟨⟨rfl, rfl, rfl, rfl, rfl⟩, rfl, rfl, hw⟩
theorem Local.writeByte {addr v : Word} (h : s.writeByte addr v = .ok t) : Local s t := by
  have hw := fun h0 => State.wf_writeByte h0 h
  obtain ⟨-, rfl⟩ := State.writeByte_cases h
  exact ⟨⟨rfl, rfl, rfl, rfl, rfl⟩, rfl, rfl, hw⟩

/-- The four flags are those of another state. -/
theorem State.writeWord_flags {addr v : Word} (h : s.writeWord addr v = .ok t) : t.flags = s.flags := by
  obtain ⟨-, rfl⟩ := State.writeWord_cases h; rfl
theorem State.writeByte_flags {addr v : Word} (h : s.writeByte addr v = .ok t) : t.flags = s.flags := by
  obtain ⟨-, rfl⟩ := State.writeByte_cases h; rfl

/-- Every error of a memory access is an address fault. -/
theorem State.readWord_fault {addr : Word} (h : s.readWord addr = .error f) : f = .addressFault addr := by
  unfold State.readWord at h; split at h <;> cases h; rfl
theorem State.readByte_fault {addr : Word} (h : s.readByte addr = .error f) : f = .addressFault addr := by
  unfold State.readByte at h; split at h <;> cases h; rfl
theorem State.writeWord_fault {addr v : Word} (h : s.writeWord addr v = .error f) : f = .addressFault addr := by
  unfold State.writeWord at h; split at h <;> cases h; rfl
theorem State.writeByte_fault {addr v : Word} (h : s.writeByte addr v = .error f) : f = .addressFault addr := by
  unfold State.writeByte at h; split at h <;> cases h; rfl

/-- A meaning that failed, failed in its first operation or in the rest. -/
theorem except_bind_error {α β : Type} {x : Except FaultReport α} {k : α → Except FaultReport β}
    (h : (x >>= k) = .error f) : x = .error f ∨ ∃ a, x = .ok a ∧ k a = .error f := by
  cases x with
  | ok a => exact .inr ⟨a, rfl, h⟩
  | error g =>
    have h' : (Except.error g : Except FaultReport β) = .error f := h
    cases h'
    exact .inl rfl

/-! ## Stack operations -/

theorem State.pushWord_cases {p : Reg} {v : Word} (h : s.pushWord p v = .ok t) :
    (pushSlot (s.reg p)).toNat ≤ 4094 ∧ t = (s.setWord (pushSlot (s.reg p)).toNat v).setReg p (pushSlot (s.reg p)) := by
  obtain ⟨u, hu, ht⟩ := except_bind_ok h
  obtain ⟨hr, rfl⟩ := State.writeWord_cases hu
  cases ht
  exact ⟨hr, rfl⟩

theorem State.pushWord_fault {p : Reg} {v : Word} (h : s.pushWord p v = .error f) :
    f = .addressFault (pushSlot (s.reg p)) := by
  rcases except_bind_error h with h | ⟨u, -, hu⟩
  · exact State.writeWord_fault h
  · cases hu

theorem Local.setWord (s : State) {a : Nat} (v : Word) (h : a ≤ 4094) : Local s (s.setWord a v) :=
  ⟨⟨rfl, rfl, rfl, rfl, rfl⟩, rfl, rfl, fun h0 => State.wf_setWord h0 h v⟩

/-! ## What every instruction keeps -/

/-- What a state after an instruction keeps of the state before, by the class of the instruction. -/
structure Kept (i : Instr) (s t : State) : Prop where
  hidden : SameHidden s t
  error : t.flags.error = s.flags.error
  wf : Memory.wf s.mem = true → Memory.wf t.mem = true
  frame : Pixels.wf s.frameBuffer = true → Pixels.wf t.frameBuffer = true
  screen : Pixels.wf s.frameBuffer = true → Pixels.wf s.screen = true → Pixels.wf t.screen = true
  outside : i.isSys = false → t.outside = s.outside
  status : t.status = s.status ∨ (i = .sys 0x00#8 ∧ t.status = .halted)
  mem : i.mayWriteMemory = false → t.mem = s.mem
  memSys : ∀ code, i = .sys code → code ≠ 0x03#8 → code ≠ 0x05#8 → t.mem = s.mem
  test : i.isAlu = false → i.isTest = false → (i.isIncDec && s.params.incDecWriteTest) = false →
    t.flags.test = s.flags.test
  overflow : i.isAlu = false → i.isIncDec = false → t.flags.overflow = s.flags.overflow
  nan : i.isAlu = false → t.flags.nan = s.flags.nan

/-- The faults an instruction other than `sys` can take. -/
def FaultOf (i : Instr) (f : FaultReport) : Prop :=
  i.isSys = false →
    (∃ a, f = .addressFault a) ∨ (i.wellFormed = false ∧ f = .illegalInstruction (encodeFirst i))

/-- Everything an instruction can do, by class: a fault taken from the state before it, or a state that keeps the rest. -/
def Summary (i : Instr) (s t : State) : Prop := (∃ f, t = s.raise f ∧ FaultOf i f) ∨ Kept i s t

theorem Kept.ofLocal {i : Instr} (hs : i.isSys = false) (h : Local s t)
    (hm : i.mayWriteMemory = false → t.mem = s.mem)
    (ht : i.isAlu = false → i.isTest = false → (i.isIncDec && s.params.incDecWriteTest) = false →
      t.flags.test = s.flags.test)
    (ho : i.isAlu = false → i.isIncDec = false → t.flags.overflow = s.flags.overflow)
    (hn : i.isAlu = false → t.flags.nan = s.flags.nan) : Kept i s t where
  hidden := h.hidden
  error := h.error
  wf := h.wf
  frame := by have := congrArg Outside.frameBuffer h.outside; simp only [State.outside] at this; rw [this]; exact id
  screen := by
    have := congrArg Outside.screen h.outside; simp only [State.outside] at this; rw [this]; exact fun _ => id
  outside := fun _ => h.outside
  status := by have := congrArg Outside.status h.outside; exact .inl this
  mem := hm
  memSys := by rintro code rfl; cases hs
  test := ht
  overflow := ho
  nan := hn

/-- An instruction that changes registers alone. -/
theorem Kept.ofRegs {i : Instr} (hs : i.isSys = false) (h : Local s t) (hm : t.mem = s.mem) (hf : t.flags = s.flags) :
    Kept i s t :=
  .ofLocal hs h (fun _ => hm) (by rw [hf]; intros; rfl) (by rw [hf]; intros; rfl) (by rw [hf]; intros; rfl)

/-- An instruction that changes registers and memory alone. -/
theorem Kept.ofStore {i : Instr} (hs : i.isSys = false) (h : Local s t) (hm : i.mayWriteMemory = true)
    (hf : t.flags = s.flags) : Kept i s t :=
  .ofLocal hs h (by rw [hm]; intro h; cases h) (by rw [hf]; intros; rfl) (by rw [hf]; intros; rfl)
    (by rw [hf]; intros; rfl)

/-- An ALU instruction. -/
theorem Kept.ofAlu {i : Instr} (hs : i.isSys = false) (ha : i.isAlu = true) (h : Local s t)
    (hm : i.mayWriteMemory = false → t.mem = s.mem) : Kept i s t :=
  .ofLocal hs h hm (by rw [ha]; intro h; cases h) (by rw [ha]; intro h; cases h) (by rw [ha]; intro h; cases h)

theorem summary_address {i : Instr} {a : Word} (h : f = .addressFault a) : FaultOf i f := fun _ => .inl ⟨a, h⟩

/-- The end of a meaning that can meet address faults alone. -/
theorem summary_finish {i : Instr} {x : Except FaultReport State} (h : finish s x = .next t)
    (he : ∀ f, x = .error f → ∃ a, f = .addressFault a) (hk : ∀ t, x = .ok t → Kept i s t) : Summary i s t := by
  rcases finish_cases h with hx | ⟨f, hx, rfl⟩
  · exact .inr (hk t hx)
  · exact .inl ⟨f, rfl, fun _ => .inl (he f hx)⟩

/-! ### Families -/

theorem aluBinary_summary {i : Instr} {op : AluOp} {r q : Reg} (hs : i.isSys = false) (ha : i.isAlu = true)
    (h : aluBinary op r q s = .next t) : Summary i s t := by
  cases h
  exact .inr (.ofAlu hs ha (((Local.advance _ _).trans (Local.setReg _ _ _)).trans (Local.writeAluFlags _ _))
    fun _ => rfl)

theorem aluUnary_summary {i : Instr} {op : AluOp} {r : Reg} (hs : i.isSys = false) (ha : i.isAlu = true)
    (h : aluUnary op r s = .next t) : Summary i s t := by
  cases h
  exact .inr (.ofAlu hs ha (((Local.advance _ _).trans (Local.setReg _ _ _)).trans (Local.writeAluFlags _ _))
    fun _ => rfl)

theorem execImm_summary {op : AluOp} {r : Reg} {v : Word} (h : execImm op r v s = .next t) :
    Summary (.imm op r v) s t := by
  unfold execImm at h
  split at h
  · cases h
    exact .inr (.ofAlu rfl rfl (((Local.advance _ _).trans (Local.setReg _ _ _)).trans (Local.writeAluFlags _ _))
      fun _ => rfl)
  · next hb =>
    cases h
    exact .inl ⟨_, rfl, fun _ => .inr ⟨by simpa [Instr.wellFormed] using hb, rfl⟩⟩

theorem testWith_summary {i : Instr} {rel : Word → Word → Bool} {r : Reg} {b : State → Word} (hs : i.isSys = false)
    (ht : i.isTest = true) (h : testWith rel r b s = .next t) : Summary i s t := by
  cases h
  exact .inr (.ofLocal hs ((Local.advance _ _).trans (Local.writeTest _ _)) (fun _ => rfl)
    (by rw [ht]; intro _ h; cases h) (fun _ _ => rfl) (fun _ => rfl))

theorem testRegister_summary {i : Instr} {rel : Word → Word → Bool} {r q : Reg} (hs : i.isSys = false)
    (ht : i.isTest = true) (h : testRegister rel r q s = .next t) : Summary i s t :=
  testWith_summary (b := fun t => t.reg q) hs ht h

theorem testImmediate_summary {i : Instr} {rel : Word → Word → Bool} {r : Reg} {v : Nibble} (hs : i.isSys = false)
    (ht : i.isTest = true) (h : testImmediate rel r v s = .next t) : Summary i s t :=
  testWith_summary (b := fun _ => imm4 v) hs ht h

/-- A meaning whose last operation is a word or byte write after the pc's advance. -/
theorem store_summary {i : Instr} {n : Word} {x : Except FaultReport State} (hs : i.isSys = false)
    (hm : i.mayWriteMemory = true) (h : finish s x = .next t)
    (he : ∀ f, x = .error f → ∃ a, f = .addressFault a)
    (hk : ∀ t, x = .ok t → Local (s.advance n) t ∧ t.flags = (s.advance n).flags) : Summary i s t :=
  summary_finish h he fun t ht => .ofStore hs ((Local.advance s n).trans (hk t ht).1) hm (hk t ht).2

theorem pushWord_summary {i : Instr} {n : Word} {p : Reg} {v : Word} (hs : i.isSys = false)
    (hm : i.mayWriteMemory = true) (h : finish s ((s.advance n).pushWord p v) = .next t) : Summary i s t :=
  store_summary (n := n) hs hm h (fun _ hf => ⟨_, State.pushWord_fault hf⟩) fun u hu => by
    obtain ⟨hr, rfl⟩ := State.pushWord_cases hu
    exact ⟨(Local.setWord _ _ hr).trans (Local.setReg _ _ _), rfl⟩

theorem storeWordFrom_summary {i : Instr} {n : Word} {r : Reg} {addr : Word} (hs : i.isSys = false)
    (hm : i.mayWriteMemory = true) (h : storeWordFrom s (s.advance n) r addr = .next t) : Summary i s t :=
  store_summary (n := n) hs hm h (fun _ hf => ⟨_, State.writeWord_fault hf⟩) fun _ hu =>
    ⟨Local.writeWord hu, State.writeWord_flags hu⟩

theorem storeByteFrom_summary {i : Instr} {n : Word} {r : Reg} {addr : Word} (hs : i.isSys = false)
    (hm : i.mayWriteMemory = true) (h : storeByteFrom s (s.advance n) r addr = .next t) : Summary i s t :=
  store_summary (n := n) hs hm h (fun _ hf => ⟨_, State.writeByte_fault hf⟩) fun _ hu =>
    ⟨Local.writeByte hu, State.writeByte_flags hu⟩

theorem loadWordInto_summary {i : Instr} {n : Word} {r : Reg} {addr : Word} (hs : i.isSys = false)
    (h : loadWordInto s (s.advance n) r addr = .next t) : Summary i s t := by
  refine summary_finish h (fun f hf => ?_) fun t ht => ?_
  · rcases except_bind_error hf with hf | ⟨v, -, hf⟩
    · exact ⟨_, State.readWord_fault hf⟩
    · cases hf
  · obtain ⟨v, -, ht⟩ := except_bind_ok ht
    cases ht
    exact .ofRegs hs ((Local.advance _ _).trans (Local.setReg _ _ _)) rfl rfl

theorem loadByteInto_summary {i : Instr} {n : Word} {r : Reg} {addr : Word} (hs : i.isSys = false)
    (h : loadByteInto s (s.advance n) r addr = .next t) : Summary i s t := by
  refine summary_finish h (fun f hf => ?_) fun t ht => ?_
  · rcases except_bind_error hf with hf | ⟨v, -, hf⟩
    · rcases except_bind_error hf with hf | ⟨b, -, hf⟩
      · exact ⟨_, State.readByte_fault hf⟩
      · cases hf
    · cases hf
  · obtain ⟨v, -, ht⟩ := except_bind_ok ht
    cases ht
    exact .ofRegs hs ((Local.advance _ _).trans (Local.setReg _ _ _)) rfl rfl

theorem execPop_summary {r p : Reg} (h : execPop r p s = .next t) : Summary (.pop r p) s t := by
  refine summary_finish h (fun f hf => ?_) fun t ht => ?_
  · rcases except_bind_error hf with hf | ⟨v, -, hf⟩
    · exact ⟨_, State.readWord_fault hf⟩
    · cases hf
  · obtain ⟨v, -, ht⟩ := except_bind_ok ht
    cases ht
    exact .ofRegs rfl (((Local.advance _ _).trans (Local.setReg _ _ _)).trans (Local.setReg _ _ _)) rfl rfl

theorem readThenPush_summary {i : Instr} {p : Reg} {addr : Word} (hs : i.isSys = false) (hm : i.mayWriteMemory = true)
    (h : finish s (do let v ← (s.advance oneWord).readWord addr; (s.advance oneWord).pushWord p v) = .next t) :
    Summary i s t := by
  refine store_summary (n := oneWord) hs hm h (fun f hf => ?_) fun u hu => ?_
  · rcases except_bind_error hf with hf | ⟨v, -, hf⟩
    · exact ⟨_, State.readWord_fault hf⟩
    · exact ⟨_, State.pushWord_fault hf⟩
  · obtain ⟨v, -, hu⟩ := except_bind_ok hu
    obtain ⟨hr, rfl⟩ := State.pushWord_cases hu
    exact ⟨(Local.setWord _ _ hr).trans (Local.setReg _ _ _), rfl⟩

theorem execSwap_summary {p : Reg} (h : execSwap p s = .next t) : Summary (.swap p) s t := by
  refine store_summary (n := oneWord) rfl rfl h (fun f hf => ?_) fun u hu => ?_
  · rcases except_bind_error hf with hf | ⟨v0, -, hf⟩
    · exact ⟨_, State.readWord_fault hf⟩
    rcases except_bind_error hf with hf | ⟨v1, -, hf⟩
    · exact ⟨_, State.readWord_fault hf⟩
    rcases except_bind_error hf with hf | ⟨t1, -, hf⟩
    · exact ⟨_, State.writeWord_fault hf⟩
    · exact ⟨_, State.writeWord_fault hf⟩
  · obtain ⟨v0, -, hu⟩ := except_bind_ok hu
    obtain ⟨v1, -, hu⟩ := except_bind_ok hu
    obtain ⟨t1, h1, hu⟩ := except_bind_ok hu
    exact ⟨(Local.writeWord h1).trans (Local.writeWord hu),
      (State.writeWord_flags hu).trans (State.writeWord_flags h1)⟩

theorem execRot_summary {p : Reg} (h : execRot p s = .next t) : Summary (.rot p) s t := by
  refine store_summary (n := oneWord) rfl rfl h (fun f hf => ?_) fun u hu => ?_
  · rcases except_bind_error hf with hf | ⟨v0, -, hf⟩
    · exact ⟨_, State.readWord_fault hf⟩
    rcases except_bind_error hf with hf | ⟨v1, -, hf⟩
    · exact ⟨_, State.readWord_fault hf⟩
    rcases except_bind_error hf with hf | ⟨v2, -, hf⟩
    · exact ⟨_, State.readWord_fault hf⟩
    rcases except_bind_error hf with hf | ⟨t1, -, hf⟩
    · exact ⟨_, State.writeWord_fault hf⟩
    rcases except_bind_error hf with hf | ⟨t2, -, hf⟩
    · exact ⟨_, State.writeWord_fault hf⟩
    · exact ⟨_, State.writeWord_fault hf⟩
  · obtain ⟨v0, -, hu⟩ := except_bind_ok hu
    obtain ⟨v1, -, hu⟩ := except_bind_ok hu
    obtain ⟨v2, -, hu⟩ := except_bind_ok hu
    obtain ⟨t1, h1, hu⟩ := except_bind_ok hu
    obtain ⟨t2, h2, hu⟩ := except_bind_ok hu
    exact ⟨((Local.writeWord h1).trans (Local.writeWord h2)).trans (Local.writeWord hu),
      ((State.writeWord_flags hu).trans (State.writeWord_flags h2)).trans (State.writeWord_flags h1)⟩

theorem execSop_summary {op : AluOp} {p : Reg} (h : execSop op p s = .next t) : Summary (.sop op p) s t := by
  refine summary_finish h (fun f hf => ?_) fun u hu => ?_
  · split at hf
    · rcases except_bind_error hf with hf | ⟨b, -, hf⟩
      · exact ⟨_, State.readWord_fault hf⟩
      rcases except_bind_error hf with hf | ⟨a, -, hf⟩
      · exact ⟨_, State.readWord_fault hf⟩
      rcases except_bind_error hf with hf | ⟨u, -, hf⟩
      · exact ⟨_, State.writeWord_fault hf⟩
      · cases hf
    · rcases except_bind_error hf with hf | ⟨a, -, hf⟩
      · exact ⟨_, State.readWord_fault hf⟩
      rcases except_bind_error hf with hf | ⟨u, -, hf⟩
      · exact ⟨_, State.writeWord_fault hf⟩
      · cases hf
  · refine .ofAlu rfl rfl ((Local.advance s oneWord).trans ?_) (fun h => by cases h)
    split at hu
    · obtain ⟨b, -, hu⟩ := except_bind_ok hu
      obtain ⟨a, -, hu⟩ := except_bind_ok hu
      obtain ⟨v, hv, hu⟩ := except_bind_ok hu
      cases hu
      exact ((Local.writeWord hv).trans (Local.setReg _ _ _)).trans (Local.writeAluFlags _ _)
    · obtain ⟨a, -, hu⟩ := except_bind_ok hu
      obtain ⟨v, hv, hu⟩ := except_bind_ok hu
      cases hu
      exact (Local.writeWord hv).trans (Local.writeAluFlags _ _)

/-! ### Services -/

/-- The codes of the services that end the run or write memory. -/
theorem serviceOf_cases {p : Params} {code : BitVec 8} {v : Service} (h : serviceOf p code = some v) :
    (v = .halt → code = 0x00#8) ∧ (v = .rstr → code = 0x03#8) ∧ (v = .rfile → code = 0x05#8) := by
  unfold serviceOf at h
  split at h
  · next w hw =>
    cases h
    unfold printedService at hw
    split at hw <;>
      first
      | (cases hw; done)
      | (cases hw
         refine ⟨?_, ?_, ?_⟩ <;> intro h <;> first | (cases h; done) | exact BitVec.eq_of_toNat_eq (by assumption))
  · split at h
    · cases h; exact ⟨by simp, by simp, by simp⟩
    · split at h
      · cases h; exact ⟨by simp, by simp, by simp⟩
      · cases h

theorem State.MemoryOnly.setReg_drawn_hidden {r : Reg} {x : Word} (h : s.MemoryOnly t) :
    SameHidden s (t.setReg r x).drawn := by
  rw [h.same]; exact ⟨rfl, rfl, rfl, rfl, rfl⟩

theorem State.deliver_cases {bytes stored : List Byte} (h : s.deliver bytes stored = .ok t) :
    ∃ u, s.writeBytes (s.reg .a0) stored = .ok u ∧ t = (u.setReg .rv (BitVec.ofNat 16 bytes.length)).drawn := by
  obtain ⟨u, hu, ht⟩ := except_bind_ok h
  cases ht
  exact ⟨u, hu, rfl⟩

theorem Kept.ofDeliver {code : BitVec 8} {bytes stored : List Byte} (hc : code = 0x03#8 ∨ code = 0x05#8)
    (h : (s.advance oneWord).deliver bytes stored = .ok t) : Kept (.sys code) s t := by
  obtain ⟨u, hu, rfl⟩ := State.deliver_cases h
  obtain ⟨hsame, hwf⟩ := State.writeBytes_memoryOnly hu
  constructor
  · rw [hsame]; exact ⟨rfl, rfl, rfl, rfl, rfl⟩
  · rw [hsame]; rfl
  · exact hwf
  · rw [hsame]; exact id
  · rw [hsame]; exact fun _ => id
  · intro h; cases h
  · rw [hsame]; exact .inl rfl
  · intro h; cases h
  · rintro c ⟨⟩ h3 h5; rcases hc with rfl | rfl <;> contradiction
  · rw [hsame]; intros; rfl
  · rw [hsame]; intros; rfl
  · rw [hsame]; intros; rfl

/-- A service that changes no memory and no flag. -/
theorem Kept.ofService {code : BitVec 8} (hh : SameHidden s t) (hf : t.flags = s.flags) (hm : t.mem = s.mem)
    (hb : Pixels.wf s.frameBuffer = true → Pixels.wf t.frameBuffer = true)
    (hc : Pixels.wf s.frameBuffer = true → Pixels.wf s.screen = true → Pixels.wf t.screen = true)
    (hs : t.status = s.status ∨ (code = 0x00#8 ∧ t.status = .halted)) : Kept (.sys code) s t where
  hidden := hh
  error := by rw [hf]
  wf := by rw [hm]; exact id
  frame := hb
  screen := hc
  outside := by intro h; cases h
  status := hs.imp id fun ⟨h, h'⟩ => ⟨by rw [h], h'⟩
  mem := fun _ => hm
  memSys := fun _ _ _ _ => hm
  test := by rw [hf]; intros; rfl
  overflow := by rw [hf]; intros; rfl
  nan := by rw [hf]; intros; rfl

theorem Pixels.wf_setPixel (x y : Int) (c : BitVec 2) (h : Pixels.wf s.frameBuffer = true) :
    Pixels.wf (s.setPixel x y c).frameBuffer = true := by
  unfold State.setPixel
  split
  · next hin =>
    refine Sparse.wf_write h ?_
    unfold onScreen at hin
    have := of_decide_eq_true hin
    unfold pixelKey screenWidth pixelCount screenHeight screenWidth
    omega
  · exact h

theorem Pixels.wf_tabulate (g : Nat → BitVec 2) : Pixels.wf (Sparse.tabulate pixelCount g) = true :=
  Sparse.wf_tabulate _ _

theorem perform_kept {code : BitVec 8} {v : Service} (hc : serviceOf s.params code = some v)
    (h : v.perform (s.advance oneWord) = .ok t) : Kept (.sys code) s t := by
  obtain ⟨c1, c2, c3⟩ := serviceOf_cases hc
  cases v with
  | halt =>
    cases h
    exact .ofService ⟨rfl, rfl, rfl, rfl, rfl⟩ rfl rfl id (fun _ => id) (.inr ⟨c1 rfl, rfl⟩)
  | rint | wint | rnd | sleep =>
    cases h
    exact .ofService ⟨rfl, rfl, rfl, rfl, rfl⟩ rfl rfl id (fun _ => id) (.inl rfl)
  | rstr => exact .ofDeliver (.inl (c2 rfl)) h
  | wstr =>
    obtain ⟨bytes, -, h⟩ := except_bind_ok h
    cases h
    exact .ofService ⟨rfl, rfl, rfl, rfl, rfl⟩ rfl rfl id (fun _ => id) (.inl rfl)
  | rfile =>
    obtain ⟨name, -, h⟩ := except_bind_ok h
    split at h
    · cases h
    · exact .ofDeliver (.inr (c3 rfl)) h
  | wfile =>
    obtain ⟨name, -, h⟩ := except_bind_ok h
    obtain ⟨contents, -, h⟩ := except_bind_ok h
    split at h
    · cases h
      exact .ofService ⟨rfl, rfl, rfl, rfl, rfl⟩ rfl rfl id (fun _ => id) (.inl rfl)
    · cases h
  | fbreset =>
    cases h
    exact .ofService ⟨rfl, rfl, rfl, rfl, rfl⟩ rfl rfl (fun _ => rfl) (fun _ => id) (.inl rfl)
  | fbstat =>
    cases h
    exact .ofService ⟨rfl, rfl, rfl, rfl, rfl⟩ rfl rfl id (fun _ => id) (.inl rfl)
  | fbset =>
    cases h
    refine .ofService ⟨?_, ?_, ?_, ?_, ?_⟩ ?_ ?_ (Pixels.wf_setPixel (s := s.advance oneWord) _ _ _) ?_ ?_ <;>
      simp [svcFbset]
  | fbss | fbds =>
    cases h
    exact .ofService ⟨rfl, rfl, rfl, rfl, rfl⟩ rfl rfl (fun _ => Pixels.wf_tabulate _) (fun _ => id) (.inl rfl)
  | fbsync =>
    cases h
    exact .ofService ⟨rfl, rfl, rfl, rfl, rfl⟩ rfl rfl id (fun h _ => h) (.inl rfl)
  | error =>
    obtain ⟨bytes, -, h⟩ := except_bind_ok h
    cases h

theorem execSys_summary {code : BitVec 8} (h : execSys code s = .next t) : Summary (.sys code) s t := by
  unfold execSys at h
  split at h
  · next v hv =>
    rcases finish_cases h with hx | ⟨f, -, rfl⟩
    · exact .inr (perform_kept hv hx)
    · exact .inl ⟨f, rfl, by intro h; cases h⟩
  · cases h
    exact .inl ⟨_, rfl, by intro h; cases h⟩

/-! ### Every instruction -/

/-- Everything `exec` can do, by the class of the instruction. -/
theorem exec_summary {i : Instr} (h : exec i s = .next t) : Summary i s t := by
  cases i with
  | sys code => exact execSys_summary h
  | mov r q =>
    cases h; exact .inr (.ofRegs rfl ((Local.advance _ _).trans (Local.setReg _ _ _)) rfl rfl)
  | inc r v | dec r v =>
    cases h
    refine .inr (.ofLocal rfl (((Local.advance _ _).trans (Local.setReg _ _ _)).trans (Local.writeIncDecFlags _ _ _))
      (fun _ => rfl) (fun _ _ hp => ?_) (fun _ h => by cases h) (fun _ => rfl))
    have hp' : s.params.incDecWriteTest = false := hp
    simp [hp']
  | seti r v => cases h; exact .inr (.ofRegs rfl ((Local.advance _ _).trans (Local.setReg _ _ _)) rfl rfl)
  | nop => cases h; exact .inr (.ofRegs rfl (Local.advance _ _) rfl rfl)
  | add r q | sub r q | mul r q | div r q | mod r q | and r q | or r q | xor r q | shl r q | shr r q | min r q
  | max r q => exact aluBinary_summary rfl rfl h
  | not r | lnot r | neg r => exact aluUnary_summary rfl rfl h
  | imm op r v => exact execImm_summary h
  | push r p => exact pushWord_summary (n := oneWord) rfl rfl h
  | pop r p => exact execPop_summary h
  | dup p => exact readThenPush_summary rfl rfl h
  | swap p => exact execSwap_summary h
  | drop p => cases h; exact .inr (.ofRegs rfl ((Local.advance _ _).trans (Local.setReg _ _ _)) rfl rfl)
  | overWord p => exact readThenPush_summary rfl rfl h
  | rot p => exact execRot_summary h
  | sop op p => exact execSop_summary h
  | pushi v p => exact pushWord_summary (n := twoWord) rfl rfl h
  | eq r q | neq r q | gt r q | gte r q | lt r q | lte r q => exact testRegister_summary rfl rfl h
  | eqi r q | neqi r q | gti r q | gtei r q | lti r q | ltei r q => exact testImmediate_summary rfl rfl h
  | lwr r a o => exact loadWordInto_summary (n := oneWord) rfl h
  | lbr r a o => exact loadByteInto_summary (n := oneWord) rfl h
  | swr r a o => exact storeWordFrom_summary (n := oneWord) rfl rfl h
  | sbr r a o => exact storeByteFrom_summary (n := oneWord) rfl rfl h
  | lw r a => exact loadWordInto_summary (n := twoWord) rfl h
  | lwo r a o => exact loadWordInto_summary (n := twoWord) rfl h
  | lb r a => exact loadByteInto_summary (n := twoWord) rfl h
  | lbo r a o => exact loadByteInto_summary (n := twoWord) rfl h
  | sw r a => exact storeWordFrom_summary (n := twoWord) rfl rfl h
  | swo r a o => exact storeWordFrom_summary (n := twoWord) rfl rfl h
  | sb r a => exact storeByteFrom_summary (n := twoWord) rfl rfl h
  | sbo r a o => exact storeByteFrom_summary (n := twoWord) rfl rfl h
  | li r v => cases h; exact .inr (.ofRegs rfl ((Local.advance _ _).trans (Local.setReg _ _ _)) rfl rfl)
  | jr r => cases h; exact .inr (.ofRegs rfl ((Local.advance _ _).trans (Local.setReg _ _ _)) rfl rfl)
  | j a => cases h; exact .inr (.ofRegs rfl ((Local.advance _ _).trans (Local.setReg _ _ _)) rfl rfl)
  | jz a | jnz a =>
    cases h
    refine .inr (.ofRegs rfl ((Local.advance s oneWord).trans ?_) ?_ ?_) <;> split <;>
      first | rfl | exact Local.setReg _ _ _ | exact Local.refl _
  | jal a =>
    cases h
    exact .inr (.ofRegs rfl (((Local.advance _ _).trans (Local.setReg _ _ _)).trans (Local.setReg _ _ _)) rfl rfl)

/-- `exec` always answers a next state. -/
theorem exec_next (i : Instr) (s : State) : ∃ t, exec i s = .next t := by
  cases i <;> first | exact ⟨_, rfl⟩ | exact finish_next _ _ | skip
  · show ∃ t, execSys _ s = _
    unfold execSys
    split
    · exact finish_next _ _
    · exact ⟨_, rfl⟩
  · show ∃ t, execImm _ _ _ s = _
    unfold execImm
    split <;> exact ⟨_, rfl⟩

end Sys2Proof.Machine
end

