-- ==== Sys2Proof/Laws/Effect.lean ====
section
/-! SUPPORT. The frame predicates of Safety.lean: what they say of each way a meaning ends. -/

namespace Sys2Proof.Machine

variable {s t : State} {f : FaultReport} {i : Instr}

@[simp] theorem lookup_nil_getD {α β : Type} [BEq α] (k : α) (d : β) : ((([] : List (α × β)).lookup k).getD d) = d := rfl

theorem lookup_cons_getD {α β : Type} [BEq α] [LawfulBEq α] [DecidableEq α] (k a : α) (b d : β) (l : List (α × β)) :
    ((((a, b) :: l).lookup k).getD d) = if k = a then b else (l.lookup k).getD d := by
  by_cases h : k = a
  · subst h; simp [List.lookup]
  · have : (k == a) = false := by simpa using h
    simp [List.lookup, this, h]

/-- The pc as an operand. -/
@[simp] theorem State.operand_pc (s : State) (n : Word) : s.operand n .pc = s.reg .pc + n := if_pos rfl

/-- Any other register as an operand. -/
theorem State.operand_ne (s : State) (n : Word) {q : Reg} (h : q ≠ .pc) : s.operand n q = s.reg q := if_neg h

/-- A state that ends a meaning in memory words: the canonical form is that of the write. -/
theorem bytesBecome_refl (h : t.mem = s.mem) : BytesBecome s t [] := by
  intro a; simp [State.byteAt, h]

theorem bytesBecome_setWord (hw : Memory.wf s.mem = true) {a : Nat} (ha : a ≤ 4094) (v : Word)
    (h : t.mem = (s.setWord a v).mem) : BytesBecome s t (s.wordBytes a v) := by
  intro b
  have hb : t.byteAt b = (s.setWord a v).byteAt b := by simp [State.byteAt, h]
  rw [hb, State.byteAt_setWord hw ha, State.wordBytes, lookup_cons_getD, lookup_cons_getD, lookup_nil_getD]
  by_cases h1 : b = a
  · have : ¬ b = a + 1 := by omega
    simp [h1]
  · simp [h1]

theorem bytesBecome_setByte (hw : Memory.wf s.mem = true) {a : Nat} (v : Byte) (h : t.mem = (s.setByte a v).mem) :
    BytesBecome s t [(a, v)] := by
  intro b
  have hb : t.byteAt b = (s.setByte a v).byteAt b := by simp [State.byteAt, h]
  rw [hb, State.byteAt_setByte hw, lookup_cons_getD, lookup_nil_getD]

/-- A fault taken is what `FaultTaken` says. -/
theorem faultTaken_raise (s : State) (f : FaultReport) : FaultTaken s (s.raise f) f := by
  refine ⟨rfl, rfl, rfl, ?_, rfl, rfl, rfl⟩
  cases f <;> simp [State.outside, FaultReport.consoleItems, faultItems]

/-- A meaning that ends in an error takes the fault. -/
theorem faults_of_finish {x : Except FaultReport State} (h : exec i s = finish s x) (hx : x = .error f) :
    Faults i s f := ⟨_, by rw [h, hx]; rfl, faultTaken_raise s f⟩

/-- The registers after an advance and writes to registers. -/
theorem regsBecome_advance {n : Word} (h : t.regs = (s.advance n).regs) : RegsBecome s t n [] := by
  intro q
  have : t.reg q = (s.advance n).reg q := by simp only [State.reg, h]
  rw [this, State.reg_advance_operand, lookup_nil_getD]

theorem regsBecome_setReg {n : Word} {r : Reg} {v : Word} (h : t.regs = ((s.advance n).setReg r v).regs) :
    RegsBecome s t n [(r, v)] := by
  intro q
  have : t.reg q = ((s.advance n).setReg r v).reg q := by simp only [State.reg, h]
  rw [this, State.reg_setReg, State.reg_advance_operand, lookup_cons_getD, lookup_nil_getD]

theorem regsBecome_setReg_setReg {n : Word} {p r : Reg} {u v : Word}
    (h : t.regs = (((s.advance n).setReg p u).setReg r v).regs) : RegsBecome s t n [(r, v), (p, u)] := by
  intro q
  have : t.reg q = (((s.advance n).setReg p u).setReg r v).reg q := by simp only [State.reg, h]
  rw [this, State.reg_setReg, State.reg_setReg, State.reg_advance_operand, lookup_cons_getD, lookup_cons_getD,
    lookup_nil_getD]

/-! ## Integers and words -/

theorem u16_sint (v : Word) : u16 (sint v) = v := BitVec.ofInt_toInt

theorem sint_range (v : Word) : -32768 ≤ sint v ∧ sint v ≤ 32767 := by
  have h1 := BitVec.le_toInt v
  have h2 := BitVec.toInt_lt (x := v)
  unfold sint
  norm_num at h1 h2
  omega

theorem u16_add (a b : Word) : u16 (sint a + sint b) = a + b := by
  unfold u16 sint; rw [BitVec.ofInt_add, BitVec.ofInt_toInt, BitVec.ofInt_toInt]

theorem u16_mul (a b : Word) : u16 (sint a * sint b) = a * b := by
  unfold u16 sint; rw [BitVec.ofInt_mul, BitVec.ofInt_toInt, BitVec.ofInt_toInt]

theorem u16_neg (a : Word) : u16 (-sint a) = -a := by
  unfold u16 sint; rw [BitVec.ofInt_neg, BitVec.ofInt_toInt]

theorem u16_sub (a b : Word) : u16 (sint a - sint b) = a - b := by
  have : sint a - sint b = sint a + -sint b := by omega
  rw [this]; unfold u16 sint
  rw [BitVec.ofInt_add, BitVec.ofInt_neg, BitVec.ofInt_toInt, BitVec.ofInt_toInt]
  exact (BitVec.sub_eq_add_neg a b).symm

theorem u16_natCast (n : Nat) : u16 (n : Int) = BitVec.ofNat 16 n := by
  unfold u16; exact BitVec.ofInt_natCast 16 n

theorem u16_toNat (v : Word) : u16 (v.toNat : Int) = v := by
  rw [u16_natCast, BitVec.ofNat_toNat, BitVec.setWidth_eq]

/-- A word in the signed range is what `sint` reads back. -/
theorem sint_u16 {n : Int} (h : fits16 n) : sint (u16 n) = n := by
  obtain ⟨h1, h2⟩ := h
  unfold sint u16
  rw [BitVec.toInt_ofInt]
  exact Int.bmod_eq_of_le (by norm_num; omega) (by norm_num; omega)

theorem sint_injective {a b : Word} (h : sint a = sint b) : a = b := BitVec.eq_of_toInt_eq h

theorem outOfRange16_eq (n : Int) : outOfRange16 n = decide (¬ fits16 n) := by
  unfold outOfRange16 fits16
  congr 1
  apply propext
  omega

theorem sint_imm4 (v : Nibble) : sint (imm4 v) = (v.toNat : Int) := by
  revert v; decide

end Sys2Proof.Machine
end

