-- ==== Sys2Proof/Laws/PerInstr.lean ====
section
/-! SUPPORT. Per instruction: its first word lies in its row of opcode_table.json. -/

namespace Sys2Proof.Laws

/-- The "mask" of an instruction's row. -/
def rowMask : Instr → Word
  | .sys _ => 0xFF00#16
  | .mov _ _ => 0xFF00#16
  | .inc _ _ => 0xFF00#16
  | .dec _ _ => 0xFF00#16
  | .seti _ _ => 0xFF00#16
  | .nop => 0xFFFF#16
  | .add _ _ => 0xFF00#16
  | .sub _ _ => 0xFF00#16
  | .mul _ _ => 0xFF00#16
  | .div _ _ => 0xFF00#16
  | .mod _ _ => 0xFF00#16
  | .and _ _ => 0xFF00#16
  | .or _ _ => 0xFF00#16
  | .xor _ _ => 0xFF00#16
  | .shl _ _ => 0xFF00#16
  | .shr _ _ => 0xFF00#16
  | .min _ _ => 0xFF00#16
  | .max _ _ => 0xFF00#16
  | .not _ => 0xFF0F#16
  | .lnot _ => 0xFF0F#16
  | .neg _ => 0xFF0F#16
  | .imm _ _ _ => 0xFF00#16
  | .push _ _ => 0xFF00#16
  | .pop _ _ => 0xFF00#16
  | .dup _ => 0xFFF0#16
  | .swap _ => 0xFFF0#16
  | .drop _ => 0xFFF0#16
  | .overWord _ => 0xFFF0#16
  | .rot _ => 0xFFF0#16
  | .sop _ _ => 0xFF00#16
  | .pushi _ _ => 0xFFF0#16
  | .eq _ _ => 0xFF00#16
  | .neq _ _ => 0xFF00#16
  | .gt _ _ => 0xFF00#16
  | .gte _ _ => 0xFF00#16
  | .lt _ _ => 0xFF00#16
  | .lte _ _ => 0xFF00#16
  | .eqi _ _ => 0xFF00#16
  | .neqi _ _ => 0xFF00#16
  | .gti _ _ => 0xFF00#16
  | .gtei _ _ => 0xFF00#16
  | .lti _ _ => 0xFF00#16
  | .ltei _ _ => 0xFF00#16
  | .lwr _ _ _ => 0xF000#16
  | .lbr _ _ _ => 0xF000#16
  | .swr _ _ _ => 0xF000#16
  | .sbr _ _ _ => 0xF000#16
  | .lw _ _ => 0xFF0F#16
  | .lwo _ _ _ => 0xFF00#16
  | .lb _ _ => 0xFF0F#16
  | .lbo _ _ _ => 0xFF00#16
  | .sw _ _ => 0xFF0F#16
  | .swo _ _ _ => 0xFF00#16
  | .sb _ _ => 0xFF0F#16
  | .sbo _ _ _ => 0xFF00#16
  | .li _ _ => 0xFF0F#16
  | .jr _ => 0xFFF0#16
  | .j _ => 0xF000#16
  | .jz _ => 0xF000#16
  | .jnz _ => 0xF000#16
  | .jal _ => 0xF000#16

/-- The "match" of an instruction's row. -/
def rowMatch : Instr → Word
  | .sys _ => 0x0000#16
  | .mov _ _ => 0x0100#16
  | .inc _ _ => 0x0200#16
  | .dec _ _ => 0x0300#16
  | .seti _ _ => 0x0400#16
  | .nop => 0x0FFF#16
  | .add _ _ => 0x1000#16
  | .sub _ _ => 0x1100#16
  | .mul _ _ => 0x1200#16
  | .div _ _ => 0x1300#16
  | .mod _ _ => 0x1400#16
  | .and _ _ => 0x1500#16
  | .or _ _ => 0x1600#16
  | .xor _ _ => 0x1700#16
  | .shl _ _ => 0x1800#16
  | .shr _ _ => 0x1900#16
  | .min _ _ => 0x1A00#16
  | .max _ _ => 0x1B00#16
  | .not _ => 0x1C00#16
  | .lnot _ => 0x1D00#16
  | .neg _ => 0x1E00#16
  | .imm _ _ _ => 0x1F00#16
  | .push _ _ => 0x2000#16
  | .pop _ _ => 0x2100#16
  | .dup _ => 0x2200#16
  | .swap _ => 0x2300#16
  | .drop _ => 0x2400#16
  | .overWord _ => 0x2500#16
  | .rot _ => 0x2600#16
  | .sop _ _ => 0x2700#16
  | .pushi _ _ => 0x2F00#16
  | .eq _ _ => 0x3000#16
  | .neq _ _ => 0x3100#16
  | .gt _ _ => 0x3200#16
  | .gte _ _ => 0x3300#16
  | .lt _ _ => 0x3400#16
  | .lte _ _ => 0x3500#16
  | .eqi _ _ => 0x3800#16
  | .neqi _ _ => 0x3900#16
  | .gti _ _ => 0x3A00#16
  | .gtei _ _ => 0x3B00#16
  | .lti _ _ => 0x3C00#16
  | .ltei _ _ => 0x3D00#16
  | .lwr _ _ _ => 0x4000#16
  | .lbr _ _ _ => 0x5000#16
  | .swr _ _ _ => 0x6000#16
  | .sbr _ _ _ => 0x7000#16
  | .lw _ _ => 0x8000#16
  | .lwo _ _ _ => 0x8100#16
  | .lb _ _ => 0x8200#16
  | .lbo _ _ _ => 0x8300#16
  | .sw _ _ => 0x8400#16
  | .swo _ _ _ => 0x8500#16
  | .sb _ _ => 0x8600#16
  | .sbo _ _ _ => 0x8700#16
  | .li _ _ => 0x8F00#16
  | .jr _ => 0x9000#16
  | .j _ => 0xC000#16
  | .jz _ => 0xD000#16
  | .jnz _ => 0xE000#16
  | .jal _ => 0xF000#16

/-- The first word of the instruction has the fixed bits of its row. -/
def RowAgrees.Statement (i : Instr) : Prop := encodeFirst i &&& rowMask i = rowMatch i

/-- A mask of whole nibbles acts on each nibble. -/
theorem ofNibbles_and (a b c d e f g h : Nibble) :
    ofNibbles a b c d &&& ofNibbles e f g h = ofNibbles (a &&& e) (b &&& f) (c &&& g) (d &&& h) := by
  have joined : (a ++ b ++ c ++ d) &&& (e ++ f ++ g ++ h) = (a &&& e) ++ (b &&& f) ++ (c &&& g) ++ (d &&& h) := by
    simp only [BitVec.and_append]
  exact joined

@[simp] theorem nibble_and_ones (a : Nibble) : a &&& 0xF#4 = a := by
  simpa using BitVec.and_allOnes (x := a)

@[simp] theorem nibble_and_zero (a : Nibble) : a &&& 0x0#4 = 0x0#4 := BitVec.and_zero

/-- A word masked to its upper byte. -/
theorem upper_byte (a b c d : Nibble) : ofNibbles a b c d &&& 0xFF00#16 = ofNibbles a b 0 0 := by
  rw [show (0xFF00#16) = ofNibbles 0xF 0xF 0 0 from by decide, ofNibbles_and]
  simp

/-- A word masked to all but its nibble 3. -/
theorem without_nibble3 (a b c d : Nibble) : ofNibbles a b c d &&& 0xFF0F#16 = ofNibbles a b 0 d := by
  rw [show (0xFF0F#16) = ofNibbles 0xF 0xF 0 0xF from by decide, ofNibbles_and]
  simp

/-- A word masked to all but its nibble 4. -/
theorem without_nibble4 (a b c d : Nibble) : ofNibbles a b c d &&& 0xFFF0#16 = ofNibbles a b c 0 := by
  rw [show (0xFFF0#16) = ofNibbles 0xF 0xF 0xF 0 from by decide, ofNibbles_and]
  simp

/-- A word masked to its type nibble. -/
theorem type_nibble (a b c d : Nibble) : ofNibbles a b c d &&& 0xF000#16 = ofNibbles a 0 0 0 := by
  rw [show (0xF000#16) = ofNibbles 0xF 0 0 0 from by decide, ofNibbles_and]
  simp

/-- A word of two bytes masked to the upper one. -/
theorem upper_bits (a b : BitVec 8) : (a ++ b : Word) &&& 0xFF00#16 = a ++ 0#8 := by
  have h : (0xFF00#16 : Word) = 0xFF#8 ++ 0x00#8 := by decide
  rw [h, BitVec.and_append]
  congr 1
  · simpa using BitVec.and_allOnes (x := a)
  · exact BitVec.and_zero

/-- A jump word masked to its type nibble. -/
theorem upper_nibble (a : Nibble) (b : BitVec 12) : encodeJ a b &&& 0xF000#16 = a ++ 0#12 := by
  have h : (0xF000#16 : Word) = 0xF#4 ++ 0x000#12 := by decide
  rw [encodeJ, h, BitVec.and_append, nibble_and_ones]
  congr 1
  exact BitVec.and_zero

theorem RowAgrees.sys (code : BitVec 8) : RowAgrees.Statement (.sys code) :=
  upper_bits 0x00#8 _

theorem RowAgrees.mov (r : Reg) (q : Reg) : RowAgrees.Statement (.mov r q) :=
  upper_byte _ _ _ _

theorem RowAgrees.inc (r : Reg) (v : Nibble) : RowAgrees.Statement (.inc r v) :=
  upper_byte _ _ _ _

theorem RowAgrees.dec (r : Reg) (v : Nibble) : RowAgrees.Statement (.dec r v) :=
  upper_byte _ _ _ _

theorem RowAgrees.seti (r : Reg) (v : Nibble) : RowAgrees.Statement (.seti r v) :=
  upper_byte _ _ _ _

theorem RowAgrees.nop : RowAgrees.Statement (.nop) :=
  rfl

theorem RowAgrees.add (r : Reg) (q : Reg) : RowAgrees.Statement (.add r q) :=
  upper_byte _ _ _ _

theorem RowAgrees.sub (r : Reg) (q : Reg) : RowAgrees.Statement (.sub r q) :=
  upper_byte _ _ _ _

theorem RowAgrees.mul (r : Reg) (q : Reg) : RowAgrees.Statement (.mul r q) :=
  upper_byte _ _ _ _

theorem RowAgrees.div (r : Reg) (q : Reg) : RowAgrees.Statement (.div r q) :=
  upper_byte _ _ _ _

theorem RowAgrees.mod (r : Reg) (q : Reg) : RowAgrees.Statement (.mod r q) :=
  upper_byte _ _ _ _

theorem RowAgrees.and (r : Reg) (q : Reg) : RowAgrees.Statement (.and r q) :=
  upper_byte _ _ _ _

theorem RowAgrees.or (r : Reg) (q : Reg) : RowAgrees.Statement (.or r q) :=
  upper_byte _ _ _ _

theorem RowAgrees.xor (r : Reg) (q : Reg) : RowAgrees.Statement (.xor r q) :=
  upper_byte _ _ _ _

theorem RowAgrees.shl (r : Reg) (q : Reg) : RowAgrees.Statement (.shl r q) :=
  upper_byte _ _ _ _

theorem RowAgrees.shr (r : Reg) (q : Reg) : RowAgrees.Statement (.shr r q) :=
  upper_byte _ _ _ _

theorem RowAgrees.min (r : Reg) (q : Reg) : RowAgrees.Statement (.min r q) :=
  upper_byte _ _ _ _

theorem RowAgrees.max (r : Reg) (q : Reg) : RowAgrees.Statement (.max r q) :=
  upper_byte _ _ _ _

theorem RowAgrees.not (r : Reg) : RowAgrees.Statement (.not r) :=
  without_nibble3 _ _ _ _

theorem RowAgrees.lnot (r : Reg) : RowAgrees.Statement (.lnot r) :=
  without_nibble3 _ _ _ _

theorem RowAgrees.neg (r : Reg) : RowAgrees.Statement (.neg r) :=
  without_nibble3 _ _ _ _

theorem RowAgrees.imm (op : AluOp) (r : Reg) (value : Word) : RowAgrees.Statement (.imm op r value) :=
  upper_byte _ _ _ _

theorem RowAgrees.push (r : Reg) (p : Reg) : RowAgrees.Statement (.push r p) :=
  upper_byte _ _ _ _

theorem RowAgrees.pop (r : Reg) (p : Reg) : RowAgrees.Statement (.pop r p) :=
  upper_byte _ _ _ _

theorem RowAgrees.dup (p : Reg) : RowAgrees.Statement (.dup p) :=
  without_nibble4 _ _ _ _

theorem RowAgrees.swap (p : Reg) : RowAgrees.Statement (.swap p) :=
  without_nibble4 _ _ _ _

theorem RowAgrees.drop (p : Reg) : RowAgrees.Statement (.drop p) :=
  without_nibble4 _ _ _ _

theorem RowAgrees.overWord (p : Reg) : RowAgrees.Statement (.overWord p) :=
  without_nibble4 _ _ _ _

theorem RowAgrees.rot (p : Reg) : RowAgrees.Statement (.rot p) :=
  without_nibble4 _ _ _ _

theorem RowAgrees.sop (op : AluOp) (p : Reg) : RowAgrees.Statement (.sop op p) :=
  upper_byte _ _ _ _

theorem RowAgrees.pushi (value : Word) (p : Reg) : RowAgrees.Statement (.pushi value p) :=
  without_nibble4 _ _ _ _

theorem RowAgrees.eq (r : Reg) (q : Reg) : RowAgrees.Statement (.eq r q) :=
  upper_byte _ _ _ _

theorem RowAgrees.neq (r : Reg) (q : Reg) : RowAgrees.Statement (.neq r q) :=
  upper_byte _ _ _ _

theorem RowAgrees.gt (r : Reg) (q : Reg) : RowAgrees.Statement (.gt r q) :=
  upper_byte _ _ _ _

theorem RowAgrees.gte (r : Reg) (q : Reg) : RowAgrees.Statement (.gte r q) :=
  upper_byte _ _ _ _

theorem RowAgrees.lt (r : Reg) (q : Reg) : RowAgrees.Statement (.lt r q) :=
  upper_byte _ _ _ _

theorem RowAgrees.lte (r : Reg) (q : Reg) : RowAgrees.Statement (.lte r q) :=
  upper_byte _ _ _ _

theorem RowAgrees.eqi (r : Reg) (v : Nibble) : RowAgrees.Statement (.eqi r v) :=
  upper_byte _ _ _ _

theorem RowAgrees.neqi (r : Reg) (v : Nibble) : RowAgrees.Statement (.neqi r v) :=
  upper_byte _ _ _ _

theorem RowAgrees.gti (r : Reg) (v : Nibble) : RowAgrees.Statement (.gti r v) :=
  upper_byte _ _ _ _

theorem RowAgrees.gtei (r : Reg) (v : Nibble) : RowAgrees.Statement (.gtei r v) :=
  upper_byte _ _ _ _

theorem RowAgrees.lti (r : Reg) (v : Nibble) : RowAgrees.Statement (.lti r v) :=
  upper_byte _ _ _ _

theorem RowAgrees.ltei (r : Reg) (v : Nibble) : RowAgrees.Statement (.ltei r v) :=
  upper_byte _ _ _ _

theorem RowAgrees.lwr (r : Reg) (a : Reg) (o : Reg) : RowAgrees.Statement (.lwr r a o) :=
  type_nibble _ _ _ _

theorem RowAgrees.lbr (r : Reg) (a : Reg) (o : Reg) : RowAgrees.Statement (.lbr r a o) :=
  type_nibble _ _ _ _

theorem RowAgrees.swr (r : Reg) (a : Reg) (o : Reg) : RowAgrees.Statement (.swr r a o) :=
  type_nibble _ _ _ _

theorem RowAgrees.sbr (r : Reg) (a : Reg) (o : Reg) : RowAgrees.Statement (.sbr r a o) :=
  type_nibble _ _ _ _

theorem RowAgrees.lw (r : Reg) (addr : Word) : RowAgrees.Statement (.lw r addr) :=
  without_nibble3 _ _ _ _

theorem RowAgrees.lwo (r : Reg) (addr : Word) (o : Reg) : RowAgrees.Statement (.lwo r addr o) :=
  upper_byte _ _ _ _

theorem RowAgrees.lb (r : Reg) (addr : Word) : RowAgrees.Statement (.lb r addr) :=
  without_nibble3 _ _ _ _

theorem RowAgrees.lbo (r : Reg) (addr : Word) (o : Reg) : RowAgrees.Statement (.lbo r addr o) :=
  upper_byte _ _ _ _

theorem RowAgrees.sw (r : Reg) (addr : Word) : RowAgrees.Statement (.sw r addr) :=
  without_nibble3 _ _ _ _

theorem RowAgrees.swo (r : Reg) (addr : Word) (o : Reg) : RowAgrees.Statement (.swo r addr o) :=
  upper_byte _ _ _ _

theorem RowAgrees.sb (r : Reg) (addr : Word) : RowAgrees.Statement (.sb r addr) :=
  without_nibble3 _ _ _ _

theorem RowAgrees.sbo (r : Reg) (addr : Word) (o : Reg) : RowAgrees.Statement (.sbo r addr o) :=
  upper_byte _ _ _ _

theorem RowAgrees.li (r : Reg) (value : Word) : RowAgrees.Statement (.li r value) :=
  without_nibble3 _ _ _ _

theorem RowAgrees.jr (r : Reg) : RowAgrees.Statement (.jr r) :=
  without_nibble4 _ _ _ _

theorem RowAgrees.j (target : BitVec 12) : RowAgrees.Statement (.j target) :=
  upper_nibble _ _

theorem RowAgrees.jz (target : BitVec 12) : RowAgrees.Statement (.jz target) :=
  upper_nibble _ _

theorem RowAgrees.jnz (target : BitVec 12) : RowAgrees.Statement (.jnz target) :=
  upper_nibble _ _

theorem RowAgrees.jal (target : BitVec 12) : RowAgrees.Statement (.jal target) :=
  upper_nibble _ _

end Sys2Proof.Laws
end

