-- ==== Sys2Proof/Machine/Io.lean ====
section
/-! DEFINITION. What the spec transcribes and no rule of the machine reads: the IO codes (48_io_and_syscalls.md R240, R266)
and the colours of the pixel values (10_state.md R43). -/

namespace Sys2Proof.Machine

/-- The events of the IO code table, by what happened (R240). -/
inductive IoEvent where
  | upArrow | rightArrow | mouseDown | mouseUp | downArrow | leftArrow | a | b | start | select
deriving DecidableEq, Repr

/-- The 4-bit code of an event (R240); nothing delivers it to a program (R266). -/
def IoEvent.code : IoEvent → BitVec 4
  | .upArrow => 0x1#4
  | .rightArrow => 0x2#4
  | .mouseDown => 0xB#4
  | .mouseUp => 0xC#4
  | .downArrow => 0x3#4
  | .leftArrow => 0x4#4
  | .a => 0x6#4
  | .b => 0x7#4
  | .start => 0x8#4
  | .select => 0x9#4

/-- The colour of a pixel value as red, green, blue, darkest to lightest (10_state.md R43). -/
def pixelColour (p : BitVec 2) : BitVec 24 :=
  match p.toNat with
  | 0 => 0x2a453b#24
  | 1 => 0x365d48#24
  | 2 => 0x577c44#24
  | _ => 0x7f860f#24

end Sys2Proof.Machine
end

