-- ==== Sys2Proof/Tests/Slice0.lean ====
section
/-! SUPPORT. Tests. The words are those of 95_test_vectors.md section 1, the steps V<n> its vectors of section 2 (under the
spec's default parameters), both derived there from the rules and from no implementation. The witnesses at the end show, for
every statement with hypotheses, states and operands that meet them, at the boundary of each clause's range. -/

open Sys2Proof Sys2Proof.Machine

/-! ## Well-formedness, one ill-formed term for its one check -/

theorem test_wellFormed_refuses_unary_imm :
    (Instr.imm .not .t0 0).wellFormed = false ∧ (Instr.imm .lnot .t0 0).wellFormed = false ∧
    (Instr.imm .neg .t0 0).wellFormed = false ∧ (Instr.imm .max .t0 0).wellFormed = true := by decide

/-! ## Decoding: every constructor, from a word written out from the encoding tables -/

theorem test_decode_misc :
    decodeFirst 0x0004 = some (.sys 0x04) ∧ decodeFirst 0x0160 = some (.mov .a0 .t0) ∧
    decodeFirst 0x0201 = some (.inc .t0 1) ∧ decodeFirst 0x0302 = some (.dec .t0 2) ∧
    decodeFirst 0x0402 = some (.seti .t0 2) ∧ decodeFirst 0x0FFF = some .nop := by decide

theorem test_decode_alu :
    decodeFirst 0x1001 = some (.add .t0 .t1) ∧ decodeFirst 0x1101 = some (.sub .t0 .t1) ∧
    decodeFirst 0x1201 = some (.mul .t0 .t1) ∧ decodeFirst 0x1301 = some (.div .t0 .t1) ∧
    decodeFirst 0x1401 = some (.mod .t0 .t1) ∧ decodeFirst 0x1501 = some (.and .t0 .t1) ∧
    decodeFirst 0x1601 = some (.or .t0 .t1) ∧ decodeFirst 0x1701 = some (.xor .t0 .t1) ∧
    decodeFirst 0x1801 = some (.shl .t0 .t1) ∧ decodeFirst 0x1901 = some (.shr .t0 .t1) ∧
    decodeFirst 0x1A01 = some (.min .t0 .t1) ∧ decodeFirst 0x1B01 = some (.max .t0 .t1) ∧
    decodeFirst 0x1C00 = some (.not .t0) ∧ decodeFirst 0x1D00 = some (.lnot .t0) ∧
    decodeFirst 0x1E00 = some (.neg .t0) ∧
    decode true [0x1F, 0x00, 0x04, 0x00] = .instr (.imm .add .t0 0x0400) [] := by decide

theorem test_decode_stack :
    decodeFirst 0x200D = some (.push .t0 .sp) ∧ decodeFirst 0x21B4 = some (.pop .ra .t4) ∧
    decodeFirst 0x220D = some (.dup .sp) ∧ decodeFirst 0x230D = some (.swap .sp) ∧
    decodeFirst 0x240D = some (.drop .sp) ∧ decodeFirst 0x250D = some (.overWord .sp) ∧
    decodeFirst 0x260D = some (.rot .sp) ∧ decodeFirst 0x271D = some (.sop .sub .sp) ∧
    decode true [0x2F, 0x0D, 0x04, 0x00] = .instr (.pushi 0x0400 .sp) [] := by decide

theorem test_decode_test :
    decodeFirst 0x3001 = some (.eq .t0 .t1) ∧ decodeFirst 0x3101 = some (.neq .t0 .t1) ∧
    decodeFirst 0x3201 = some (.gt .t0 .t1) ∧ decodeFirst 0x3301 = some (.gte .t0 .t1) ∧
    decodeFirst 0x3401 = some (.lt .t0 .t1) ∧ decodeFirst 0x3501 = some (.lte .t0 .t1) ∧
    decodeFirst 0x3800 = some (.eqi .t0 0) ∧ decodeFirst 0x3911 = some (.neqi .t1 1) ∧
    decodeFirst 0x3A10 = some (.gti .t1 0) ∧ decodeFirst 0x3B10 = some (.gtei .t1 0) ∧
    decodeFirst 0x3C10 = some (.lti .t1 0) ∧ decodeFirst 0x3D10 = some (.ltei .t1 0) := by decide

theorem test_decode_load_store_register :
    decodeFirst 0x40C3 = some (.lwr .t0 .fp .t3) ∧ decodeFirst 0x50C3 = some (.lbr .t0 .fp .t3) ∧
    decodeFirst 0x60C3 = some (.swr .t0 .fp .t3) ∧ decodeFirst 0x70C3 = some (.sbr .t0 .fp .t3) := by decide

theorem test_decode_load_store :
    decode true [0x80, 0x00, 0x03, 0x00] = .instr (.lw .t0 0x0300) [] ∧
    decode true [0x81, 0x01, 0x03, 0x00] = .instr (.lwo .t0 0x0300 .t1) [] ∧
    decode true [0x82, 0x00, 0x03, 0x00] = .instr (.lb .t0 0x0300) [] ∧
    decode true [0x83, 0x01, 0x03, 0x00] = .instr (.lbo .t0 0x0300 .t1) [] ∧
    decode true [0x84, 0x00, 0x03, 0x00] = .instr (.sw .t0 0x0300) [] ∧
    decode true [0x85, 0x01, 0x03, 0x00] = .instr (.swo .t0 0x0300 .t1) [] ∧
    decode true [0x86, 0x00, 0x03, 0x10] = .instr (.sb .t0 0x0310) [] ∧
    decode true [0x87, 0x01, 0x03, 0x10] = .instr (.sbo .t0 0x0310 .t1) [] ∧
    decode true [0x8F, 0x00, 0x04, 0x00] = .instr (.li .t0 0x0400) [] := by decide

theorem test_decode_jumps :
    decodeFirst 0x900B = some (.jr .ra) ∧ decodeFirst 0xC004 = some (.j 0x004) ∧
    decodeFirst 0xD020 = some (.jz 0x020) ∧ decodeFirst 0xE020 = some (.jnz 0x020) ∧
    decodeFirst 0xF010 = some (.jal 0x010) := by decide

/-- V63, V64, V94, V95, V117, V156, V157, V163, V185 to V188. -/
theorem test_decode_refuses :
    decodeFirst 0x1F0C = none ∧ decodeFirst 0x1C01 = none ∧ decodeFirst 0x27FD = none ∧ decodeFirst 0x221D = none ∧
    decodeFirst 0x3600 = none ∧ decodeFirst 0x8001 = none ∧ decodeFirst 0x8800 = none ∧ decodeFirst 0x9010 = none ∧
    decodeFirst 0xA000 = none ∧ decodeFirst 0xBFFF = none ∧ decodeFirst 0x0500 = none ∧
    decodeFirst 0x0FFE = none := by decide

/-- The little-endian image of `li t0 0x1234` (30_encoding.md R81 under `BIG_ENDIAN` false). -/
theorem test_decode_little_endian :
    decode false [0x00, 0x8F, 0x34, 0x12, 0x77] = .instr (.li .t0 0x1234) [0x77] := by decide

theorem test_decodeTableWord :
    decodeTableWord 16 0x1101 = some (.sub .t0 .t1) ∧ decodeTableWord 16 0x8F00 = some (.li .t0 0) ∧
    decodeTableWord 32 0x04008F00 = some (.li .t0 0x0400) ∧ decodeTableWord 16 0xA000 = none := by decide

/-! ## One step -/

/-- A state with the words of an instruction at the pc, some registers, some bytes of memory and the flags (test, overflow,
nan, error as bits 3 to 0) set; everything else 0. -/
def cpu (pc : Word) (words : List Word) (regs : List (Reg × Word)) (bytes : List (Nat × Byte)) (flags : BitVec 4) :
    State :=
  let blank : State := { State.reset with regs := { State.reset.regs with sp := 0, fp := 0, pc := pc } }
  let program : List (Nat × Byte) := bytesAt pc.toNat (bytesOfWords true words)
  let loaded := (program ++ bytes).foldl (fun s p => s.setByte p.1 p.2) blank
  let set := regs.foldl (fun s p => s.setReg p.1 p.2) loaded
  { set with
    flags :=
      { test := flags.getLsbD 3, overflow := flags.getLsbD 2, nan := flags.getLsbD 1, error := flags.getLsbD 0 } }

/-- What a step from `s` leaves in some registers, some bytes, the flags and the status. -/
def ran (s : State) (regs : List (Reg × Word)) (bytes : List (Nat × Byte)) (flags : BitVec 4) (status : RunStatus) :
    Bool :=
  match step s with
  | .next t =>
    regs.all (fun p => decide (t.reg p.1 = p.2)) && bytes.all (fun p => decide (t.byteAt p.1 = p.2)) &&
      decide (t.flags.toBits = flags) && decide (t.status = status)
  | _ => false

/-- V1, V3. -/
theorem test_mov :
    ran (cpu 0x0040 [0x0160] [(.t0, 0x1234)] [] 0b0000) [(.a0, 0x1234), (.pc, 0x0042)] [] 0b0000 .running = true ∧
    ran (cpu 0x0040 [0x01F1] [(.t1, 0x0200)] [] 0b0000) [(.pc, 0x0200)] [] 0b0000 .running = true := by
  decide

/-- V5, V7. -/
theorem test_inc :
    ran (cpu 0x0040 [0x0201] [(.t0, 0x7FFF)] [] 0b0000) [(.t0, 0x8000), (.pc, 0x0042)] [] 0b0100 .running = true ∧
    ran (cpu 0x0040 [0x0200] [(.t0, 0x0005)] [] 0b0100) [(.t0, 0x0005), (.pc, 0x0042)] [] 0b0000 .running = true := by
  decide

/-- V6. -/
theorem test_inc_wraps :
    ran (cpu 0x0040 [0x0201] [(.t0, 0xFFFF)] [] 0b1000) [(.t0, 0x0000), (.pc, 0x0042)] [] 0b1000 .running = true := by
  decide

/-- V11, V12. -/
theorem test_dec :
    ran (cpu 0x0040 [0x0301] [(.t0, 0x8000)] [] 0b0000) [(.t0, 0x7FFF), (.pc, 0x0042)] [] 0b0100 .running = true ∧
    ran (cpu 0x0040 [0x0311] [(.t1, 0x0001)] [] 0b1000) [(.t1, 0x0000), (.pc, 0x0042)] [] 0b1000 .running = true := by
  decide

/-- V14. -/
theorem test_seti :
    ran (cpu 0x0040 [0x045F] [] [] 0b0000) [(.t5, 0x000F), (.pc, 0x0042)] [] 0b0000 .running = true := by
  decide

/-- V15, V180. -/
theorem test_nop :
    ran (cpu 0x0040 [0x0FFF] [] [] 0b1110) [(.pc, 0x0042)] [] 0b1110 .running = true ∧
    ran (cpu 0x0FFE [0x0FFF] [] [] 0b0000) [(.pc, 0x1000)] [] 0b0000 .running = true := by
  decide

/-- V21. -/
theorem test_add :
    ran (cpu 0x0040 [0x1001] [(.t0, 0x7FFF), (.t1, 0x0001)] [] 0b0000) [(.t0, 0x8000), (.pc, 0x0042)] [] 0b1100 .running = true := by
  decide

/-- V22, V62. -/
theorem test_add_wraps :
    ran (cpu 0x0040 [0x1001] [(.t0, 0xFFFF), (.t1, 0x0001)] [] 0b1110) [(.t0, 0x0000), (.pc, 0x0042)] [] 0b0000 .running = true ∧
    ran (cpu 0x0040 [0x10F1] [(.t1, 0x0006)] [] 0b0000) [(.pc, 0x0048)] [] 0b1000 .running = true := by
  decide

/-- V24. -/
theorem test_sub :
    ran (cpu 0x0040 [0x1101] [(.t0, 0x0003), (.t1, 0x0004)] [] 0b0000) [(.t0, 0xFFFF), (.pc, 0x0042)] [] 0b1000 .running = true := by
  decide

/-- V25. -/
theorem test_sub_overflows :
    ran (cpu 0x0040 [0x1101] [(.t0, 0x8000), (.t1, 0x0001)] [] 0b0000) [(.t0, 0x7FFF), (.pc, 0x0042)] [] 0b1100 .running = true := by
  decide

/-- V28. -/
theorem test_mul :
    ran (cpu 0x0040 [0x1201] [(.t0, 0x0100), (.t1, 0x0100)] [] 0b0000) [(.t0, 0x0000), (.pc, 0x0042)] [] 0b0100 .running = true := by
  decide

/-- V30. -/
theorem test_mul_overflows :
    ran (cpu 0x0040 [0x1201] [(.t0, 0x8000), (.t1, 0xFFFF)] [] 0b0000) [(.t0, 0x8000), (.pc, 0x0042)] [] 0b1100 .running = true := by
  decide

/-- V31. -/
theorem test_div :
    ran (cpu 0x0040 [0x1301] [(.t0, 0xFFF9), (.t1, 0x0002)] [] 0b0000) [(.t0, 0xFFFD), (.pc, 0x0042)] [] 0b1000 .running = true := by
  decide

/-- V33. -/
theorem test_div_overflows :
    ran (cpu 0x0040 [0x1301] [(.t0, 0x8000), (.t1, 0xFFFF)] [] 0b0000) [(.t0, 0x8000), (.pc, 0x0042)] [] 0b1100 .running = true := by
  decide

/-- V35. -/
theorem test_mod :
    ran (cpu 0x0040 [0x1401] [(.t0, 0xFFF9), (.t1, 0x0002)] [] 0b0000) [(.t0, 0xFFFF), (.pc, 0x0042)] [] 0b1000 .running = true := by
  decide

/-- V37. -/
theorem test_mod_of_lowest :
    ran (cpu 0x0040 [0x1401] [(.t0, 0x8000), (.t1, 0xFFFF)] [] 0b0000) [(.t0, 0x0000), (.pc, 0x0042)] [] 0b0000 .running = true := by
  decide

/-- V38. -/
theorem test_and :
    ran (cpu 0x0040 [0x1501] [(.t0, 0x0FF0), (.t1, 0x00FF)] [] 0b0000) [(.t0, 0x00F0), (.pc, 0x0042)] [] 0b1000 .running = true := by
  decide

/-- V39. -/
theorem test_or :
    ran (cpu 0x0040 [0x1601] [(.t0, 0x0FF0), (.t1, 0x00FF)] [] 0b0000) [(.t0, 0x0FFF), (.pc, 0x0042)] [] 0b1000 .running = true := by
  decide

/-- V40. -/
theorem test_xor :
    ran (cpu 0x0040 [0x1701] [(.t0, 0x0FF0), (.t1, 0x00FF)] [] 0b0000) [(.t0, 0x0F0F), (.pc, 0x0042)] [] 0b1000 .running = true := by
  decide

/-- V42. -/
theorem test_shl :
    ran (cpu 0x0040 [0x1801] [(.t0, 0xFFFF), (.t1, 0x000F)] [] 0b0000) [(.t0, 0x8000), (.pc, 0x0042)] [] 0b1000 .running = true := by
  decide

/-- V43, V44. -/
theorem test_shl_out :
    ran (cpu 0x0040 [0x1801] [(.t0, 0xFFFF), (.t1, 0x0010)] [] 0b0000) [(.t0, 0x0000), (.pc, 0x0042)] [] 0b0000 .running = true ∧
    ran (cpu 0x0040 [0x1801] [(.t0, 0x0001), (.t1, 0xFFFF)] [] 0b0000) [(.t0, 0x0000), (.pc, 0x0042)] [] 0b0000 .running = true := by
  decide

/-- V45. -/
theorem test_shr :
    ran (cpu 0x0040 [0x1901] [(.t0, 0x0FF0), (.t1, 0x0004)] [] 0b0000) [(.t0, 0x00FF), (.pc, 0x0042)] [] 0b1000 .running = true := by
  decide

/-- V46. -/
theorem test_shr_logical :
    ran (cpu 0x0040 [0x1901] [(.t0, 0x8000), (.t1, 0x000F)] [] 0b0000) [(.t0, 0x0001), (.pc, 0x0042)] [] 0b1000 .running = true := by
  decide

/-- V48. -/
theorem test_min :
    ran (cpu 0x0040 [0x1A01] [(.t0, 0x0005), (.t1, 0xFFFE)] [] 0b0000) [(.t0, 0xFFFE), (.pc, 0x0042)] [] 0b1000 .running = true := by
  decide

/-- V50. -/
theorem test_max :
    ran (cpu 0x0040 [0x1B01] [(.t0, 0x0000), (.t1, 0x8000)] [] 0b0000) [(.t0, 0x0000), (.pc, 0x0042)] [] 0b0000 .running = true := by
  decide

/-- V51. -/
theorem test_not :
    ran (cpu 0x0040 [0x1C00] [(.t0, 0x00FF)] [] 0b0000) [(.t0, 0xFF00), (.pc, 0x0042)] [] 0b1000 .running = true := by
  decide

/-- V54. -/
theorem test_lnot :
    ran (cpu 0x0040 [0x1D00] [(.t0, 0x0000)] [] 0b0000) [(.t0, 0x0001), (.pc, 0x0042)] [] 0b1000 .running = true := by
  decide

/-- V56. -/
theorem test_neg :
    ran (cpu 0x0040 [0x1E00] [(.t0, 0x8000)] [] 0b0000) [(.t0, 0x8000), (.pc, 0x0042)] [] 0b1100 .running = true := by
  decide

/-- V58, V59. -/
theorem test_imm :
    ran (cpu 0x0040 [0x1F00, 0x0400] [(.t0, 0x0001)] [] 0b0000) [(.t0, 0x0401), (.pc, 0x0044)] [] 0b1000 .running = true ∧
    ran (cpu 0x0040 [0x1F01, 0x0005] [(.t0, 0x0003)] [] 0b0000) [(.t0, 0xFFFE), (.pc, 0x0044)] [] 0b1000 .running = true := by
  decide

/-- V63. -/
theorem test_imm_unary :
    ran (cpu 0x0040 [0x1F0C, 0x0000] [] [] 0b0000) [(.pc, 0x0040)] [] 0b0001 (.errored (.illegalInstruction 0x1F0C)) = true := by
  decide

/-- V73. -/
theorem test_push :
    ran (cpu 0x0040 [0x20DD] [(.sp, 0x0100)] [] 0b0000) [(.sp, 0x00FE), (.pc, 0x0042)] [(0x00FE, 0x01), (0x00FF, 0x00)] 0b0000 .running = true := by
  decide

/-- V72. -/
theorem test_push_fault :
    ran (cpu 0x0040 [0x200D] [(.t0, 0x0001), (.sp, 0x0000)] [] 0b0000) [(.pc, 0x0040)] [] 0b0001 (.errored (.addressFault 0xFFFE)) = true := by
  decide

/-- V75. -/
theorem test_pop :
    ran (cpu 0x0040 [0x21B4] [(.t4, 0x0200)] [(0x0200, 0x00), (0x0201, 0x08)] 0b0000) [(.t4, 0x0202), (.ra, 0x0008), (.pc, 0x0042)] [] 0b0000 .running = true := by
  decide

/-- V78, V77. -/
theorem test_pop_pointer :
    ran (cpu 0x0040 [0x21DD] [(.sp, 0x0200)] [(0x0200, 0x03), (0x0201, 0x00)] 0b0000) [(.sp, 0x0300), (.pc, 0x0042)] [] 0b0000 .running = true ∧
    ran (cpu 0x0040 [0x210D] [(.sp, 0x0FFF)] [] 0b0000) [(.pc, 0x0040)] [] 0b0001 (.errored (.addressFault 0x0FFF)) = true := by
  decide

/-- V80. -/
theorem test_dup :
    ran (cpu 0x0040 [0x220D] [(.sp, 0x0100)] [(0x0100, 0x00), (0x0101, 0x07)] 0b0000) [(.sp, 0x00FE), (.pc, 0x0042)] [(0x00FE, 0x00), (0x00FF, 0x07)] 0b0000 .running = true := by
  decide

/-- V81. -/
theorem test_swap :
    ran (cpu 0x0040 [0x230D] [(.sp, 0x0100)] [(0x0100, 0x00), (0x0101, 0x01), (0x0102, 0x00), (0x0103, 0x02)] 0b0000) [(.pc, 0x0042)] [(0x0100, 0x00), (0x0101, 0x02), (0x0102, 0x00), (0x0103, 0x01)] 0b0000 .running = true := by
  decide

/-- V83. -/
theorem test_drop :
    ran (cpu 0x0040 [0x240D] [(.sp, 0xFFFE)] [] 0b0000) [(.sp, 0x0000), (.pc, 0x0042)] [] 0b0000 .running = true := by
  decide

/-- V84. -/
theorem test_over :
    ran (cpu 0x0040 [0x250D] [(.sp, 0x0100)] [(0x0100, 0x00), (0x0101, 0x01), (0x0102, 0x00), (0x0103, 0x02)] 0b0000) [(.sp, 0x00FE), (.pc, 0x0042)] [(0x00FE, 0x00), (0x00FF, 0x02)] 0b0000 .running = true := by
  decide

/-- V85. -/
theorem test_rot :
    ran (cpu 0x0040 [0x260D] [(.sp, 0x0100)] [(0x0100, 0x00), (0x0101, 0x03), (0x0102, 0x00), (0x0103, 0x02), (0x0104, 0x00), (0x0105, 0x01)] 0b0000) [(.pc, 0x0042)] [(0x0100, 0x00), (0x0101, 0x01), (0x0102, 0x00), (0x0103, 0x03), (0x0104, 0x00), (0x0105, 0x02)] 0b0000 .running = true := by
  decide

/-- V87, V88. -/
theorem test_sop :
    ran (cpu 0x0040 [0x271D] [(.sp, 0x00FC)] [(0x00FC, 0x00), (0x00FD, 0x03), (0x00FE, 0x00), (0x00FF, 0x0A)] 0b0000) [(.sp, 0x00FE), (.pc, 0x0042)] [(0x00FE, 0x00), (0x00FF, 0x07)] 0b1000 .running = true ∧
    ran (cpu 0x0040 [0x273D] [(.sp, 0x00FC)] [(0x00FC, 0x00), (0x00FD, 0x03), (0x00FE, 0x00), (0x00FF, 0x0A)] 0b0000) [(.sp, 0x00FE), (.pc, 0x0042)] [(0x00FE, 0x00), (0x00FF, 0x03)] 0b1000 .running = true := by
  decide

/-- V90, V91. -/
theorem test_sop_unary_and_fault :
    ran (cpu 0x0040 [0x27DD] [(.sp, 0x00FC)] [(0x00FC, 0x00), (0x00FD, 0x05)] 0b1000) [(.pc, 0x0042)] [(0x00FC, 0x00), (0x00FD, 0x00)] 0b0000 .running = true ∧
    ran (cpu 0x0040 [0x270D] [(.sp, 0x0FFE)] [(0x0FFE, 0x00), (0x0FFF, 0x01)] 0b0000) [(.pc, 0x0040)] [] 0b0001 (.errored (.addressFault 0x1000)) = true := by
  decide

/-- V93. -/
theorem test_pushi :
    ran (cpu 0x0040 [0x2F04, 0xFFFF] [(.t4, 0x0300)] [] 0b0000) [(.t4, 0x02FE), (.pc, 0x0044)] [(0x02FE, 0xFF), (0x02FF, 0xFF)] 0b0000 .running = true := by
  decide

/-- V101. -/
theorem test_eq :
    ran (cpu 0x0040 [0x3001] [(.t0, 0x0005), (.t1, 0x0006)] [] 0b1110) [(.pc, 0x0042)] [] 0b0110 .running = true := by
  decide

/-- V102. -/
theorem test_neq :
    ran (cpu 0x0040 [0x3101] [(.t0, 0x0005), (.t1, 0x0006)] [] 0b0000) [(.pc, 0x0042)] [] 0b1000 .running = true := by
  decide

/-- V103, V104. -/
theorem test_gt :
    ran (cpu 0x0040 [0x3201] [(.t0, 0x0001), (.t1, 0xFFFF)] [] 0b0000) [(.pc, 0x0042)] [] 0b1000 .running = true ∧
    ran (cpu 0x0040 [0x3201] [(.t0, 0xFFFF), (.t1, 0x0001)] [] 0b0000) [(.pc, 0x0042)] [] 0b0000 .running = true := by
  decide

/-- V105. -/
theorem test_gte :
    ran (cpu 0x0040 [0x3301] [(.t0, 0x0005), (.t1, 0x0005)] [] 0b0000) [(.pc, 0x0042)] [] 0b1000 .running = true := by
  decide

/-- V106. -/
theorem test_lt :
    ran (cpu 0x0040 [0x3401] [(.t0, 0x8000), (.t1, 0x7FFF)] [] 0b0000) [(.pc, 0x0042)] [] 0b1000 .running = true := by
  decide

/-- V107. -/
theorem test_lte :
    ran (cpu 0x0040 [0x3501] [(.t0, 0x0006), (.t1, 0x0005)] [] 0b1000) [(.pc, 0x0042)] [] 0b0000 .running = true := by
  decide

/-- V109. -/
theorem test_eqi :
    ran (cpu 0x0040 [0x380F] [(.t0, 0xFFFF)] [] 0b1000) [(.pc, 0x0042)] [] 0b0000 .running = true := by
  decide

/-- V110. -/
theorem test_neqi :
    ran (cpu 0x0040 [0x3911] [(.t1, 0x0001)] [] 0b1000) [(.pc, 0x0042)] [] 0b0000 .running = true := by
  decide

/-- V112. -/
theorem test_gti :
    ran (cpu 0x0040 [0x3A10] [(.t1, 0xFFFF)] [] 0b1000) [(.pc, 0x0042)] [] 0b0000 .running = true := by
  decide

/-- V113. -/
theorem test_gtei :
    ran (cpu 0x0040 [0x3B10] [(.t1, 0x8000)] [] 0b1000) [(.pc, 0x0042)] [] 0b0000 .running = true := by
  decide

/-- V114. -/
theorem test_lti :
    ran (cpu 0x0040 [0x3C10] [(.t1, 0xFFFF)] [] 0b0000) [(.pc, 0x0042)] [] 0b1000 .running = true := by
  decide

/-- V116. -/
theorem test_ltei :
    ran (cpu 0x0040 [0x3D1F] [(.t1, 0x000F)] [] 0b0000) [(.pc, 0x0042)] [] 0b1000 .running = true := by
  decide

/-- V120, V122. -/
theorem test_lwr :
    ran (cpu 0x0040 [0x40C3] [(.fp, 0x0200), (.t3, 0xFFFE)] [(0x01FE, 0xBE), (0x01FF, 0xEF)] 0b0000) [(.t0, 0xBEEF), (.pc, 0x0042)] [] 0b0000 .running = true ∧
    ran (cpu 0x0040 [0x40C3] [(.fp, 0x0FFE), (.t3, 0x0000)] [(0x0FFE, 0xCA), (0x0FFF, 0xFE)] 0b0000) [(.t0, 0xCAFE), (.pc, 0x0042)] [] 0b0000 .running = true := by
  decide

/-- V121. -/
theorem test_lwr_fault :
    ran (cpu 0x0040 [0x40C3] [(.fp, 0x0FFF), (.t3, 0x0000)] [] 0b0000) [(.pc, 0x0040)] [] 0b0001 (.errored (.addressFault 0x0FFF)) = true := by
  decide

/-- V126, V127. -/
theorem test_lbr :
    ran (cpu 0x0040 [0x50C3] [(.fp, 0x0200), (.t3, 0x0000)] [(0x0200, 0x80)] 0b0000) [(.t0, 0x0080), (.pc, 0x0042)] [] 0b0000 .running = true ∧
    ran (cpu 0x0040 [0x50C3] [(.fp, 0x0FFF), (.t3, 0x0000)] [(0x0FFF, 0x7E)] 0b0000) [(.t0, 0x007E), (.pc, 0x0042)] [] 0b0000 .running = true := by
  decide

/-- V128. -/
theorem test_lbr_fault :
    ran (cpu 0x0040 [0x50C3] [(.fp, 0x0FFF), (.t3, 0x0001)] [] 0b0000) [(.pc, 0x0040)] [] 0b0001 (.errored (.addressFault 0x1000)) = true := by
  decide

/-- V130. -/
theorem test_swr :
    ran (cpu 0x0040 [0x60C3] [(.t0, 0x1234), (.fp, 0x8000), (.t3, 0x8200)] [] 0b0000) [(.pc, 0x0042)] [(0x0200, 0x12), (0x0201, 0x34)] 0b0000 .running = true := by
  decide

/-- V131. -/
theorem test_swr_fault :
    ran (cpu 0x0040 [0x60C3] [(.t0, 0x1234), (.fp, 0x1000), (.t3, 0x0000)] [] 0b0000) [(.pc, 0x0040)] [] 0b0001 (.errored (.addressFault 0x1000)) = true := by
  decide

/-- V132. -/
theorem test_sbr :
    ran (cpu 0x0040 [0x70C3] [(.t0, 0x1234), (.fp, 0x0200), (.t3, 0x0004)] [] 0b0000) [(.pc, 0x0042)] [(0x0204, 0x34)] 0b0000 .running = true := by
  decide

/-- V140, V141. -/
theorem test_lw :
    ran (cpu 0x0040 [0x8000, 0x0300] [] [(0x0300, 0x01), (0x0301, 0x02)] 0b0000) [(.t0, 0x0102), (.pc, 0x0044)] [] 0b0000 .running = true ∧
    ran (cpu 0x0040 [0x8000, 0x0FFF] [] [] 0b0000) [(.pc, 0x0040)] [] 0b0001 (.errored (.addressFault 0x0FFF)) = true := by
  decide

/-- V144. -/
theorem test_lwo :
    ran (cpu 0x0040 [0x8100, 0x0300] [(.t0, 0x0002)] [(0x0302, 0x0A), (0x0303, 0x0B)] 0b0000) [(.t0, 0x0A0B), (.pc, 0x0044)] [] 0b0000 .running = true := by
  decide

/-- V145. -/
theorem test_lb :
    ran (cpu 0x0040 [0x8200, 0x0300] [(.t0, 0xFFFF)] [(0x0300, 0x01)] 0b0000) [(.t0, 0x0001), (.pc, 0x0044)] [] 0b0000 .running = true := by
  decide

/-- V146. -/
theorem test_lbo :
    ran (cpu 0x0040 [0x8301, 0x0300] [(.t1, 0x0003)] [(0x0303, 0x43)] 0b0000) [(.t0, 0x0043), (.pc, 0x0044)] [] 0b0000 .running = true := by
  decide

/-- V148, V221. -/
theorem test_sw :
    ran (cpu 0x0040 [0x84F0, 0x0300] [] [] 0b0000) [(.pc, 0x0044)] [(0x0300, 0x00), (0x0301, 0x44)] 0b0000 .running = true ∧
    ran (cpu 0x0040 [0x8400, 0x0301] [(.t0, 0xABCD)] [] 0b0000) [(.pc, 0x0044)] [(0x0301, 0xAB), (0x0302, 0xCD)] 0b0000 .running = true := by
  decide

/-- V149. -/
theorem test_swo :
    ran (cpu 0x0040 [0x8501, 0x0300] [(.t0, 0xABCD), (.t1, 0x0002)] [] 0b0000) [(.pc, 0x0044)] [(0x0302, 0xAB), (0x0303, 0xCD)] 0b0000 .running = true := by
  decide

/-- V150. -/
theorem test_sb :
    ran (cpu 0x0040 [0x8600, 0x0310] [(.t0, 0xABCD)] [] 0b0000) [(.pc, 0x0044)] [(0x0310, 0xCD)] 0b0000 .running = true := by
  decide

/-- V151. -/
theorem test_sbo :
    ran (cpu 0x0040 [0x8701, 0x0310] [(.t0, 0xABCD), (.t1, 0x0005)] [] 0b0000) [(.pc, 0x0044)] [(0x0315, 0xCD)] 0b0000 .running = true := by
  decide

/-- V152. -/
theorem test_sbo_fault :
    ran (cpu 0x0040 [0x8701, 0x0FFF] [(.t0, 0xABCD), (.t1, 0x0001)] [] 0b0000) [(.pc, 0x0040)] [] 0b0001 (.errored (.addressFault 0x1000)) = true := by
  decide

/-- V155, V184. -/
theorem test_li :
    ran (cpu 0x0040 [0x8FF0, 0x0400] [] [] 0b0000) [(.pc, 0x0400)] [] 0b0000 .running = true ∧
    ran (cpu 0x0FFC [0x8F00, 0x0001] [] [] 0b0000) [(.t0, 0x0001), (.pc, 0x1000)] [] 0b0000 .running = true := by
  decide

/-- V183. -/
theorem test_li_fault :
    ran (cpu 0x0FFE [0x8F00, 0x0001] [] [] 0b0000) [(.pc, 0x0FFE)] [] 0b0001 (.errored (.addressFault 0x1000)) = true := by
  decide

/-- V162. -/
theorem test_jr :
    ran (cpu 0x0040 [0x900F] [] [] 0b0000) [(.pc, 0x0042)] [] 0b0000 .running = true := by
  decide

/-- V163. -/
theorem test_jr_illegal :
    ran (cpu 0x0040 [0x9010] [] [] 0b0000) [(.pc, 0x0040)] [] 0b0001 (.errored (.illegalInstruction 0x9010)) = true := by
  decide

/-- V165. -/
theorem test_j :
    ran (cpu 0x0040 [0xCFFF] [] [] 0b0000) [(.pc, 0x0FFF)] [] 0b0000 .running = true := by
  decide

/-- V166, V167. -/
theorem test_jz :
    ran (cpu 0x0040 [0xD020] [] [] 0b0000) [(.pc, 0x0020)] [] 0b0000 .running = true ∧
    ran (cpu 0x0040 [0xD020] [] [] 0b1000) [(.pc, 0x0042)] [] 0b1000 .running = true := by
  decide

/-- V168, V169. -/
theorem test_jnz :
    ran (cpu 0x0040 [0xE004] [] [] 0b1000) [(.pc, 0x0004)] [] 0b1000 .running = true ∧
    ran (cpu 0x0040 [0xE004] [] [] 0b0000) [(.pc, 0x0042)] [] 0b0000 .running = true := by
  decide

/-- V170, V171. -/
theorem test_jal :
    ran (cpu 0x0006 [0xF010] [] [] 0b0000) [(.ra, 0x0008), (.pc, 0x0010)] [] 0b0000 .running = true ∧
    ran (cpu 0x0FFE [0xF010] [] [] 0b0000) [(.ra, 0x1000), (.pc, 0x0010)] [] 0b0000 .running = true := by
  decide

/-- V200, V217. -/
theorem test_sys_halt_and_unknown :
    ran (cpu 0x0040 [0x0000] [] [] 0b0000) [(.pc, 0x0042)] [] 0b0000 .halted = true ∧
    ran (cpu 0x0040 [0x0009] [] [] 0b0000) [(.pc, 0x0040)] [] 0b0001 (.errored (.unknownSyscall 0x09)) = true := by
  decide

/-- V181, V182: the fetch itself faults. -/
theorem test_fetch_faults :
    ran (cpu 0x1000 [] [] [] 0) [(.pc, 0x1000)] [] 0b0001 (.errored (.addressFault 0x1000)) = true ∧
    ran (cpu 0x0FFF [] [] [(0x0FFF, 0x0F)] 0) [(.pc, 0x0FFF)] [] 0b0001 (.errored (.addressFault 0x0FFF)) = true := by
  decide

/-- V34, V61: all that a division by zero fixes. -/
theorem test_division_by_zero :
    (match step (cpu 0x0040 [0x1301] [(.t0, 7)] [] 0) with
      | .next t => t.flags.nan = true ∧ t.flags.overflow = false ∧ t.reg .pc = 0x0042 ∧
          t.flags.test = decide (t.reg .t0 ≠ 0)
      | _ => False) ∧
    (match step (cpu 0x0040 [0x1F04, 0x0000] [(.t0, 9)] [] 0) with
      | .next t => t.flags.nan = true ∧ t.flags.overflow = false ∧ t.reg .pc = 0x0044
      | _ => False) := ⟨⟨rfl, rfl, rfl, rfl⟩, rfl, rfl, rfl⟩

/-- A state whose parameters are not the defaults. -/
def cpuWith (change : Params → Params) (words : List Word) (regs : List (Reg × Word)) (bytes : List (Nat × Byte)) : State :=
  let s := cpu 0x0040 words regs bytes 0
  { s with params := change s.params }

/-- The other value of each parameter (the notes of V12, V46, V126, V147). -/
theorem test_other_parameters :
    ran (cpuWith (fun p => { p with shrArithmetic := true }) [0x1901] [(.t0, 0x8000), (.t1, 0x000F)] [])
      [(.t0, 0xFFFF)] [] 0b1000 .running = true ∧
    ran (cpuWith (fun p => { p with lbSignExtend := true }) [0x50C3] [(.fp, 0x0200)] [(0x0200, 0x80)])
      [(.t0, 0xFF80)] [] 0b0000 .running = true ∧
    ran (cpuWith (fun p => { p with incDecWriteTest := true }) [0x0302] [(.t0, 0x000A)] [])
      [(.t0, 0x0008)] [] 0b1000 .running = true ∧
    ran (cpuWith (fun p => { p with bigEndian := false }) [0x0084, 0x0003] [(.t0, 0xABCD)] [])
      [] [(0x0300, 0xCD), (0x0301, 0xAB)] 0b0000 .running = true := by decide

/-! ## Services -/

/-- What holds of the state a step from `s` leads to. -/
def holds (s : State) (check : State → Bool) : Bool :=
  match step s with
  | .next t => check t
  | _ => false

/-- V202, V205, V206, V216: what the console holds after a step, and the status. -/
theorem test_console_services :
    holds (cpu 0x0040 [0x0002] [(.a0, 0xFFFF)] [] 0)
      (fun t => decide (t.console = [.int (-1)] ∧ t.status = .running)) = true ∧
    holds (cpu 0x0040 [0x0004] [(.a0, 0x0300)] [(0x0300, 0x48), (0x0301, 0x69)] 0)
      (fun t => decide (t.console = [.str [0x48, 0x69]] ∧ t.status = .running)) = true ∧
    holds (cpu 0x0040 [0x0004] [(.a0, 0x0FFE)] [(0x0FFE, 0x41), (0x0FFF, 0x42)] 0)
      (fun t => decide (t.console = [] ∧ t.status = .errored (.addressFault 0x1000) ∧ t.reg .pc = 0x0040)) = true ∧
    holds (cpu 0x0040 [0x00F0] [(.a0, 0x0300)] [(0x0300, 0x6E), (0x0301, 0x6F)] 0)
      (fun t => decide (t.console = [.error [0x6E, 0x6F]] ∧ t.status = .errored (.programAbort [0x6E, 0x6F]) ∧
        t.reg .pc = 0x0040)) = true := by decide

/-- A state with one pixel of the frame buffer, (10, 20), set to 2, about to run a service. -/
def display (code : Word) (regs : List (Reg × Word)) : State :=
  { cpu 0x0040 [code] regs [] 0 with frameBuffer := [(20 * 160 + 10, 2)] }

/-- V209 to V215: the frame buffer, the screen and `rv` after a step. -/
theorem test_display_services :
    holds (display 0x0013 [(.a0, 0), (.a1, 0x8B), (.a3, 3)])
      (fun t => decide (t.frameBuffer = [(20 * 160 + 10, 2), (139 * 160, 3)])) = true ∧
    holds (display 0x0013 [(.a0, 0x0A), (.a1, 0x14), (.a3, 4)])
      (fun t => decide (t.frameBuffer = [])) = true ∧
    holds (display 0x0013 [(.a0, 0xA0), (.a1, 0), (.a3, 3)])
      (fun t => decide (t.frameBuffer = [(20 * 160 + 10, 2)])) = true ∧
    holds (display 0x0012 [(.a0, 0x0A), (.a1, 0x14), (.rv, 0xFFFF)])
      (fun t => decide (t.reg .rv = 2)) = true ∧
    holds (display 0x0012 [(.a0, 0xFFFF), (.a1, 0), (.rv, 0xFFFF)])
      (fun t => decide (t.reg .rv = 0)) = true ∧
    holds (display 0x0011 [])
      (fun t => decide (t.frameBuffer = [] ∧ t.screen = [])) = true ∧
    holds (display 0x0016 [])
      (fun t => decide (t.frameBuffer = [(20 * 160 + 10, 2)] ∧ t.screen = [(20 * 160 + 10, 2)])) = true := by decide

/-! ## Reset, launch, the host's placing of an instruction -/

theorem test_reset :
    Memory.wf State.reset.mem = true ∧ State.reset.reg .pc = 0x0000 ∧ State.reset.reg .sp = 0x1000 ∧
    State.reset.reg .fp = 0x1000 ∧ State.reset.status = .running ∧ State.reset.flags.toBits = 0 := by decide

/-- A program of two words and one byte of data. -/
theorem test_launch :
    (launch (LaunchParams.ofProgram [0x04, 0x02, 0x00, 0x00] [0x4D])).any (fun s =>
      decide (s.mem = [(0, 0x04), (1, 0x02), (4, 0x4D)] ∧ s.cb = 4 ∧ s.db = 5 ∧ s.reg .bp = 5)) = true := by decide

theorem test_withFetchWord :
    ran (State.reset.withFetchWord 16 0x0402) [(.t0, 2), (.pc, 2)] [(0, 0x04), (1, 0x02)] 0b0000 .running = true ∧
    ran (State.reset.withFetchWord 32 0x12348F00) [(.t0, 0x1234), (.pc, 4)] [] 0b0000 .running = true := by decide

/-! ## Witnesses: states and operands that meet the hypotheses of the statements, clause by clause -/

/-- A state with nothing in memory but an instruction at address 0x0040. -/
def one (words : List Word) (regs : List (Reg × Word)) : State := cpu 0x0040 words regs [] 0

theorem witness_LaunchStateValues : launch (LaunchParams.ofProgram [] []) = some State.reset := by decide

theorem witness_LaunchPlacesProgram :
    (List.replicate 4096 (0 : Byte)).length + ([] : List Byte).length ≤ 4096 ∧
    4096 < (List.replicate 4096 (0 : Byte)).length + [(0 : Byte)].length := by
  rw [List.length_replicate]
  decide

theorem witness_StepRunsDecodedInstruction :
    (let s := cpu 0x0FFE [0x0FFF] [] [] 0
     s.status = .running ∧ decode s.params.bigEndian (s.bytesFrom (s.reg .pc).toNat) = .instr .nop []) ∧
    (let s := cpu 0x0FFC [0x8F00, 0x1234] [] [] 0
     s.status = .running ∧ decode s.params.bigEndian (s.bytesFrom (s.reg .pc).toNat) = .instr (.li .t0 0x1234) []) := by
  decide

theorem witness_FetchFaults :
    (let s := cpu 0x0FFF [] [] [] 0
     s.status = .running ∧ decode s.params.bigEndian (s.bytesFrom (s.reg .pc).toNat) = .noFirstWord) ∧
    (let s := cpu 0x0FFE [0x0500] [] [] 0
     s.status = .running ∧ decode s.params.bigEndian (s.bytesFrom (s.reg .pc).toNat) = .illegal 0x0500) ∧
    (let s := cpu 0x0FFE [0x8F00] [] [] 0
     s.status = .running ∧ decode s.params.bigEndian (s.bytesFrom (s.reg .pc).toNat) = .noDataWord 0x8F00) := by decide

theorem witness_DecodeOfEncode : (Instr.imm .max .pc 0xFFFF).wellFormed = true ∧ Instr.nop.wellFormed = true := by decide

theorem witness_EncodeOfDecode :
    decode true [0x1F, 0xFB, 0xFF, 0xFF, 0x01] = .instr (.imm .max .pc 0xFFFF) [0x01] ∧
    decode false [0xFF, 0x0F] = .instr .nop [] := by decide

theorem witness_TwoWordInstructionsExactly :
    decodeFirst 0x8F00 = some (.li .t0 0) ∧ decodeFirst 0x1EF0 = some (.neg .pc) := by decide

theorem witness_StepKeepsInvariant :
    (one [0x0FFF] []).Inv ∧ ∃ t, step (one [0x0FFF] []) = .next t := ⟨⟨rfl, rfl, rfl, rfl⟩, _, rfl⟩

theorem witness_FaultsArePrecise :
    ∃ t, step (one [0x0500] []) = .next t ∧ t.status = .errored (.illegalInstruction 0x0500) := ⟨_, rfl, rfl⟩

theorem witness_StepExistsExactlyWhileRunning :
    State.reset.status = .running ∧ { State.reset with status := .halted }.status = .halted ∧
    { State.reset with status := .errored (.addressFault 0) }.status = .errored (.addressFault 0) := by decide

theorem witness_OnlyHaltHalts :
    (∃ t, step (cpu 0x0FFE [0x0000] [] [] 0) = .next t ∧ t.status = .halted) ∧
    (∃ t, step (cpu 0x0FFE [0x0FFF] [] [] 0) = .next t ∧ t.status = .running) := ⟨⟨_, rfl, rfl⟩, _, rfl, rfl⟩

theorem witness_LaunchConstantsNeverChange : ∃ t, step (one [0x0FFF] []) = .next t := ⟨_, rfl⟩

theorem witness_OnlySysReachesDevices :
    (Instr.isSys .nop = false ∧ ∃ t, exec .nop State.reset = .next t) ∧
    (Instr.isSys (.lw .t0 0x0FFF) = false ∧ ∃ t, exec (.lw .t0 0x0FFF) State.reset = .next t) ∧
    (Instr.isSys (.imm .not .t0 0) = false ∧ ∃ t, exec (.imm .not .t0 0) State.reset = .next t) :=
  ⟨⟨rfl, _, rfl⟩, ⟨rfl, _, rfl⟩, rfl, _, rfl⟩

theorem witness_OnlyStoresWriteMemory :
    (Instr.mayWriteMemory .nop = false ∧ ∃ t, exec .nop State.reset = .next t) ∧
    ((0x04#8 ≠ 0x03#8 ∧ 0x04#8 ≠ 0x05#8) ∧ ∃ t, exec (.sys 0x04) State.reset = .next t) :=
  ⟨⟨rfl, _, rfl⟩, by decide, _, rfl⟩

theorem witness_FlagWriters :
    ∃ t, exec (.mov .t0 .t1) State.reset = .next t ∧ Instr.isAlu (.mov .t0 .t1) = false ∧
      Instr.isTest (.mov .t0 .t1) = false ∧ Instr.isIncDec (.mov .t0 .t1) = false ∧
      (Instr.isIncDec (.inc .t0 1) && State.reset.params.incDecWriteTest) = false := ⟨_, rfl, by decide⟩

theorem witness_MemoryReadAfterWrite :
    Memory.wf State.reset.mem = true ∧ (0x0FFE#16).toNat ≤ 4094 ∧ (0x0FFF#16).toNat ≤ 4095 ∧
    4094 < (0x0FFF#16).toNat ∧ 4095 < (0x1000#16).toNat := by decide

theorem witness_ByteOrderOfWords :
    (Memory.wf State.reset.mem = true ∧ State.reset.params.bigEndian = true ∧
      ∃ t, State.reset.writeWord 0x0FFE 0x1234 = .ok t) ∧
    (∃ t, State.reset.writeWord 0x0FFD 0x1234 = .ok t ∧ (0x0FFD#16).toNat ≤ 4093) ∧
    (let s := { State.reset with params := { State.reset.params with bigEndian := false } }
     Memory.wf s.mem = true ∧ s.params.bigEndian = false ∧ ∃ t, s.writeWord 0x0FFD 0x1234 = .ok t) :=
  ⟨⟨rfl, rfl, _, rfl⟩, ⟨_, rfl, by decide⟩, rfl, rfl, _, rfl⟩

theorem witness_StoreIsSeenByNextFetch :
    let s := cpu 0x0FFA [] [(.t0, 0x0FFF)] [] 0
    Memory.wf s.mem = true ∧ s.status = .running ∧ Reg.t0 ≠ .pc ∧ (s.reg .pc + 4#16).toNat ≤ 4094 ∧
      decodeFirst (s.reg .t0) = some .nop ∧ Instr.nop.twoWords = false := by decide

theorem witness_NopMovesPcAlone :
    let s := cpu 0x0FFE [0x0FFF] [] [] 0
    s.status = .running ∧ (s.reg .pc).toNat ≤ 4094 ∧ s.wordAt (s.reg .pc).toNat = 0x0FFF#16 ∧
      0x0F00 ≤ (0x0F00#16).toNat ∧ (0x0FFE#16).toNat ≤ 0x0FFE := by decide

theorem witness_DivAndModResults :
    (one [] [(.t0, 0x8000), (.t1, 0xFFFF)]).operand 2 .t1 ≠ 0 ∧
    (one [] [(.t0, 0x8000), (.t1, 0xFFFF)]).operand 2 .t0 = 0x8000#16 := by decide

theorem witness_DivAndModByZero : (one [] []).operand 2 .t1 = 0 := by decide

theorem witness_DivModIdentity :
    let s := one [] [(.t0, 0xFFF9), (.t1, 2)]
    s.operand 2 .t1 ≠ 0 ∧ (∃ t, exec (.div .t0 .t1) s = .next t) ∧ ∃ u, exec (.mod .t0 .t1) s = .next u :=
  ⟨by decide, ⟨_, rfl⟩, _, rfl⟩

theorem witness_ShiftResults :
    State.reset.params.shrArithmetic = false ∧
    { State.reset with params := { State.reset.params with shrArithmetic := true } }.params.shrArithmetic = true := by
  decide

theorem witness_ImmApplies :
    (AluOp.add.isBinary = true ∧ AluOp.add.divides = false) ∧
    (AluOp.div.isBinary = true ∧ AluOp.div.divides = true ∧ (1#16) ≠ 0) ∧
    (AluOp.mod.isBinary = true ∧ AluOp.mod.divides = true ∧ (0#16) = 0) ∧ AluOp.not.isBinary = false := by decide

theorem witness_PushAndPushi :
    (let s := one [] [(.sp, 0x1000)]
     Memory.wf s.mem = true ∧ (s.operand 2 .sp - 2).toNat ≤ 4094 ∧ (s.operand 4 .sp - 2).toNat ≤ 4094) ∧
    (let s := one [] [(.sp, 0x0001)]
     4094 < (s.operand 2 .sp - 2).toNat ∧ 4094 < (s.operand 4 .sp - 2).toNat) := by decide

theorem witness_PopAndDrop :
    ((one [] [(.sp, 0x0FFE)]).operand 2 .sp).toNat ≤ 4094 ∧
    4094 < ((one [] [(.sp, 0x0FFF)]).operand 2 .sp).toNat := by decide

/-- For `over`, a pointer of 0xFFFE has its second word at address 0 and its new top out of range. -/
theorem witness_DupAndOver :
    (let s := one [] [(.sp, 0x0002)]
     Memory.wf s.mem = true ∧ (s.operand 2 .sp).toNat ≤ 4094 ∧ (s.operand 2 .sp + 2).toNat ≤ 4094 ∧
       (s.operand 2 .sp - 2).toNat ≤ 4094) ∧
    4094 < ((one [] [(.sp, 0x0FFF)]).operand 2 .sp).toNat ∧
    (let s := one [] [(.sp, 0x0001)]
     (s.operand 2 .sp).toNat ≤ 4094 ∧ 4094 < (s.operand 2 .sp - 2).toNat) ∧
    4094 < ((one [] [(.sp, 0x0FFD)]).operand 2 .sp + 2).toNat ∧
    (let s := one [] [(.sp, 0xFFFE)]
     (s.operand 2 .sp + 2).toNat ≤ 4094 ∧ 4094 < (s.operand 2 .sp - 2).toNat) := by decide

theorem witness_SwapAndRot :
    Memory.wf (one [] []).mem = true ∧
    ((one [] [(.sp, 0x0FFC)]).operand 2 .sp).toNat = 4092 ∧ ((one [] [(.sp, 0x0FFD)]).operand 2 .sp).toNat = 4093 ∧
    ((one [] [(.sp, 0x0FFF)]).operand 2 .sp).toNat = 4095 ∧ ((one [] [(.sp, 0x0FFA)]).operand 2 .sp).toNat = 4090 ∧
    ((one [] [(.sp, 0x0FFB)]).operand 2 .sp).toNat = 4091 := by decide

theorem witness_SopAppliesToStack :
    (let s := one [] [(.sp, 0x0FFC)]
     Memory.wf s.mem = true ∧ (s.operand 2 .sp).toNat = 4092 ∧ s.wordAt 4092 = 0) ∧
    (let s := cpu 0x0040 [] [(.sp, 0x0FFC)] [(0x0FFD, 1)] 0
     Memory.wf s.mem = true ∧ (s.operand 2 .sp).toNat = 4092 ∧ s.wordAt 4092 ≠ 0) ∧
    ((one [] [(.sp, 0x0FFD)]).operand 2 .sp).toNat = 4093 ∧ ((one [] [(.sp, 0x0FFE)]).operand 2 .sp).toNat = 4094 ∧
    ((one [] [(.sp, 0x0FFF)]).operand 2 .sp).toNat = 4095 ∧
    AluOp.add.isBinary = true ∧ AluOp.neg.isBinary = false ∧ AluOp.div.divides = true ∧ AluOp.sub.divides = false := by
  decide

theorem witness_StackRoundTrips :
    Reg.sp ≠ .pc ∧ Reg.t1 ≠ .sp ∧ Memory.wf (one [] []).mem = true ∧
    ((one [] [(.sp, 0x0FFC)]).reg .sp).toNat ≤ 4092 ∧ ((one [] [(.sp, 0x0FFA)]).reg .sp).toNat ≤ 4090 ∧
    ((one [] [(.sp, 0x1000)]).reg .sp - 2).toNat ≤ 4094 := by decide

theorem witness_RegisterLoads :
    (let s := one [] [(.fp, 0x0FFE)]
     (s.operand 2 .fp + s.operand 2 .t3).toNat ≤ 4094) ∧
    (let s := one [] [(.fp, 0x0FFF)]
     4094 < (s.operand 2 .fp + s.operand 2 .t3).toNat ∧ (s.operand 2 .fp + s.operand 2 .t3).toNat ≤ 4095 ∧
       s.params.lbSignExtend = false) ∧
    (let s := cpuWith (fun p => { p with lbSignExtend := true }) [] [(.fp, 0x0FFF)] []
     (s.operand 2 .fp + s.operand 2 .t3).toNat ≤ 4095 ∧ s.params.lbSignExtend = true) ∧
    (let s := one [] [(.fp, 0x1000)]
     4095 < (s.operand 2 .fp + s.operand 2 .t3).toNat) := by decide

theorem witness_RegisterStores :
    (let s := one [] [(.fp, 0x0FFE)]
     Memory.wf s.mem = true ∧ (s.operand 2 .fp + s.operand 2 .t3).toNat ≤ 4094) ∧
    (let s := one [] [(.fp, 0x0FFF)]
     Memory.wf s.mem = true ∧ 4094 < (s.operand 2 .fp + s.operand 2 .t3).toNat ∧
       (s.operand 2 .fp + s.operand 2 .t3).toNat ≤ 4095) ∧
    (let s := one [] [(.fp, 0x1000)]
     4095 < (s.operand 2 .fp + s.operand 2 .t3).toNat) := by decide

theorem witness_AbsoluteLoads :
    (0x0FFE#16).toNat ≤ 4094 ∧ 4094 < (0x0FFF#16).toNat ∧ (0x0FFF#16).toNat ≤ 4095 ∧ 4095 < (0x1000#16).toNat ∧
    (0x0FFD#16 + (one [] [(.t1, 1)]).operand 4 .t1).toNat ≤ 4094 ∧
    4094 < (0x0FFE#16 + (one [] [(.t1, 1)]).operand 4 .t1).toNat ∧
    (0x0FFE#16 + (one [] [(.t1, 1)]).operand 4 .t1).toNat ≤ 4095 ∧
    4095 < (0x0FFF#16 + (one [] [(.t1, 1)]).operand 4 .t1).toNat := by decide

theorem witness_AbsoluteStores :
    Memory.wf (one [] [(.t1, 1)]).mem = true ∧ (0x0FFE#16).toNat ≤ 4094 ∧ 4094 < (0x0FFF#16).toNat ∧
    (0x0FFF#16).toNat ≤ 4095 ∧ 4095 < (0x1000#16).toNat ∧
    (0x0FFD#16 + (one [] [(.t1, 1)]).operand 4 .t1).toNat ≤ 4094 ∧
    4094 < (0x0FFE#16 + (one [] [(.t1, 1)]).operand 4 .t1).toNat ∧
    (0x0FFE#16 + (one [] [(.t1, 1)]).operand 4 .t1).toNat ≤ 4095 ∧
    4095 < (0x0FFF#16 + (one [] [(.t1, 1)]).operand 4 .t1).toNat := by decide

theorem witness_LoadImmediateResult :
    (let s := cpu 0x0FFC [0x8F00, 0x0001] [] [] 0
     s.status = .running ∧ (s.reg .pc).toNat ≤ 4094 ∧ s.wordAt (s.reg .pc).toNat &&& 0xFF0F#16 = 0x8F00#16 ∧
       (s.reg .pc + 2#16).toNat ≤ 4094) ∧
    (let s := cpu 0x0FFE [0x8F00] [] [] 0
     s.status = .running ∧ (s.reg .pc).toNat ≤ 4094 ∧ s.wordAt (s.reg .pc).toNat &&& 0xFF0F#16 = 0x8F00#16 ∧
       4094 < (s.reg .pc + 2#16).toNat) := by decide

theorem witness_JumpRegisterSetsPc :
    let s := one [] [(.t0, 0x0FFF)]
    s.status = .running ∧ 0x0FFE < (s.operand 2 .t0).toNat ∧ (∃ t, exec (.jr .t0) s = .next t) ∧
      nib1 0x9010#16 = 9#4 ∧ nib3 0x9010#16 ≠ 0#4 := ⟨by decide, by decide, ⟨_, rfl⟩, by decide⟩

theorem witness_JumpSetsPc :
    (let s := cpu 0x0FFE [0xCFFE] [] [] 0
     s.status = .running ∧ s.reg .pc = (0xFFE#12).setWidth 16 ∧ (0xFFE#12).toNat ≤ 4094 ∧
       s.wordAt (0xFFE#12).toNat = 0xC000#16 ||| (0xFFE#12).setWidth 16) ∧
    ∃ t, exec (.j 0xFFF) State.reset = .next t := ⟨by decide, _, rfl⟩

theorem witness_ConditionalJumps_flags :
    (one [] []).flags.test = false ∧ (cpu 0x0040 [] [] [] 0b1000).flags.test = true := by decide

theorem witness_ConditionalJumps_comparison :
    (Tests (.eqi .t0 1) State.reset false ∧ ∃ t, exec (.eqi .t0 1) State.reset = .next t) ∧
    (Tests (.eqi .t0 0) State.reset true ∧ ∃ t, exec (.eqi .t0 0) State.reset = .next t) := by
  refine ⟨⟨⟨_, rfl, ?_, fun a => rfl, rfl, rfl, rfl, rfl, rfl, rfl, rfl, rfl⟩, _, rfl⟩,
    ⟨_, rfl, ?_, fun a => rfl, rfl, rfl, rfl, rfl, rfl, rfl, rfl, rfl⟩, _, rfl⟩ <;> intro q <;> cases q <;> rfl

theorem witness_ConditionalJumps_result :
    (Completes (.sub .t0 .t0) State.reset 2 [(.t0, 0)] [] (State.reset.aluFlags 0 false false) State.reset.outside 0 ∧
      ∃ t, exec (.sub .t0 .t0) State.reset = .next t) ∧
    (Completes (.not .t0) State.reset 2 [(.t0, 0xFFFF)] [] (State.reset.aluFlags 0xFFFF false false)
        State.reset.outside 0 ∧ ∃ t, exec (.not .t0) State.reset = .next t) := by
  refine ⟨⟨⟨_, rfl, ?_, fun a => rfl, rfl, rfl, rfl, rfl, rfl, rfl, rfl, rfl⟩, _, rfl⟩,
    ⟨_, rfl, ?_, fun a => rfl, rfl, rfl, rfl, rfl, rfl, rfl, rfl, rfl⟩, _, rfl⟩ <;> intro q <;> cases q <;> rfl

theorem witness_JumpAndLink :
    ((cpu 0x0FFE [] [] [] 0).reg .pc = 0x0FFE#16 ∧ ∃ t, exec (.jal 0) (cpu 0x0FFE [] [] [] 0) = .next t) ∧
    (cpu 0x1000 [] [] [] 0).status = .running ∧ (cpu 0x1000 [] [] [] 0).reg .pc = 0x1000#16 :=
  ⟨⟨rfl, _, rfl⟩, rfl, rfl⟩

theorem witness_ReadIntAndRandom : sint ((one [] []).reg .a0) ≤ sint ((one [] []).reg .a1) := by decide

/-- Whatever the host answers: 4095 bytes and a 0 fit from address 0 on, and no byte fits at 0x1000. -/
theorem witness_ReadStringStoresAndCounts :
    (let s := one [] [(.a1, 0x0FFF)]
     Memory.wf s.mem = true ∧ (s.reg .a0).toNat + (s.reg .a1).toNat + 1 ≤ 4096) ∧
    (let s := one [] [(.a0, 0x1000)]
     Memory.wf s.mem = true ∧ ∀ bytes : List Byte, ¬ spanInRange (s.reg .a0) (bytes ++ [0]).length) := by
  refine ⟨by decide, rfl, fun bytes h => ?_⟩
  rcases h with h | h
  · simp at h
  · have a0 : ((one [] [(.a0, 0x1000)]).reg .a0).toNat = 4096 := rfl
    simp only [a0, List.length_append, List.length_singleton] at h
    omega

/-- A string of one byte whose terminator is the last byte of memory, an empty string there, and memory's last byte without
a terminator. -/
theorem witness_WriteStringAndError :
    (let s := cpu 0x0040 [] [(.a0, 0x0FFE)] [(0x0FFE, 0x41)] 0
     s.StringAt (s.reg .a0) [0x41]) ∧
    (let s := one [] [(.a0, 0x0FFF)]
     s.StringAt (s.reg .a0) []) ∧
    (let s := cpu 0x0040 [] [(.a0, 0x0FFF)] [(0x0FFF, 0x41)] 0
     s.Unterminated (s.reg .a0)) := by
  refine ⟨⟨by decide, by decide, by decide, by decide⟩, ⟨by decide, by decide, by decide, by decide⟩, fun a low high => ?_⟩
  have first : ((cpu 0x0040 [] [(.a0, 0x0FFF)] [(0x0FFF, 0x41)] 0).reg .a0).toNat = 4095 := rfl
  have only : a = 4095 := by omega
  subst only
  decide

theorem witness_ReadFileDeliversOrFaults :
    (let s := cpu 0x0040 [] [(.a2, 0x0FFE)] [(0x0FFE, 0x41)] 0
     Memory.wf s.mem = true ∧ s.StringAt (s.reg .a2) [0x41] ∧ spanInRange (s.reg .a0) 4096 ∧
       ¬ spanInRange (s.reg .a0) 4097) ∧
    (let s := one [] [(.a2, 0x1000)]
     s.Unterminated (s.reg .a2)) := by
  have first : ((cpu 0x0040 [] [(.a2, 0x0FFE)] [(0x0FFE, 0x41)] 0).reg .a0).toNat = 0 := rfl
  refine ⟨⟨rfl, ⟨by decide, by decide, by decide, by decide⟩, ?_, ?_⟩, fun a low high => ?_⟩
  · exact .inr (by rw [first])
  · rintro (h | h) <;> omega
  · have start : ((one [] [(.a2, 0x1000)]).reg .a2).toNat = 4096 := rfl
    omega

theorem witness_WriteFileRecordsOrFaults :
    (let s := cpu 0x0040 [] [(.a2, 0x0FFE), (.a1, 0x1000)] [(0x0FFE, 0x41)] 0
     s.StringAt (s.reg .a2) [0x41] ∧ spanInRange (s.reg .a0) (s.reg .a1).toNat) ∧
    (let s := cpu 0x0040 [] [(.a2, 0x0FFE), (.a1, 0x1001)] [(0x0FFE, 0x41)] 0
     s.StringAt (s.reg .a2) [0x41] ∧ ¬ spanInRange (s.reg .a0) (s.reg .a1).toNat) ∧
    (let s := one [] [(.a2, 0x1000)]
     s.Unterminated (s.reg .a2)) := by
  refine ⟨⟨⟨by decide, by decide, by decide, by decide⟩, .inr (by decide)⟩,
    ⟨⟨by decide, by decide, by decide, by decide⟩, ?_⟩, fun a low high => ?_⟩
  · rintro (h | h) <;> revert h <;> decide
  · have start : ((one [] [(.a2, 0x1000)]).reg .a2).toNat = 4096 := rfl
    omega

theorem witness_FrameBufferPixels :
    (let s := one [] [(.a0, 159), (.a1, 139)]
     0 ≤ sint (s.reg .a0) ∧ sint (s.reg .a0) ≤ 159 ∧ 0 ≤ sint (s.reg .a1) ∧ sint (s.reg .a1) ≤ 139 ∧
       Pixels.wf s.frameBuffer = true) ∧
    (let s := one [] [(.a0, 0xFFFF), (.a1, 140)]
     ¬ 0 ≤ sint (s.reg .a0) ∧ ¬ sint (s.reg .a1) ≤ 139) := by decide

theorem witness_SyncAndSprites : validParams Params.default = true := by decide

theorem witness_UnknownSystemCode :
    (0x09#8 ≠ Params.default.sysFbds ∧ 0x09#8 ≠ Params.default.sysFbsync ∧ 0x09 ≤ (0x09#8).toNat ∧
      (0x09#8).toNat ≤ 0x10) ∧
    ((0x10#8).toNat ≤ 0x10 ∧ 0x10#8 ≠ Params.default.sysFbds ∧ 0x10#8 ≠ Params.default.sysFbsync) ∧
    (0xFF#8 ≠ Params.default.sysFbds ∧ 0xFF#8 ≠ Params.default.sysFbsync ∧ 0x15 ≤ (0xFF#8).toNat ∧ 0xFF#8 ≠ 0xF0#8) := by
  decide
end

section
/-! The conditional jumps and `t0` (10_state.md R23): the register file's write after write, what `jz` and `jnz` do as one
write of the pc, and the statement. -/

namespace Sys2Proof.Machine

/-! ## Write after write -/

/-- A register file is the values of its sixteen registers. -/
theorem Regs.eq_of_get_eq {f g : Regs} (h : ∀ q, f.get q = g.get q) : f = g := by
  cases f
  cases g
  rw [Regs.mk.injEq]
  exact ⟨h .t0, h .t1, h .t2, h .t3, h .t4, h .t5, h .a0, h .a1, h .a2, h .a3, h .rv, h .ra, h .fp, h .sp, h .bp, h .pc⟩

theorem Regs.set_set_same (f : Regs) (r : Reg) (u v : Word) : (f.set r u).set r v = f.set r v := by
  refine Regs.eq_of_get_eq fun q => ?_
  by_cases hq : q = r <;> simp [Regs.get_set, hq]

theorem Regs.set_comm (f : Regs) {r p : Reg} (h : r ≠ p) (u v : Word) :
    (f.set r u).set p v = (f.set p v).set r u := by
  refine Regs.eq_of_get_eq fun q => ?_
  simp only [Regs.get_set]
  by_cases hr : q = r <;> simp [hr, h]

@[simp] theorem State.setReg_setReg_same (s : State) (r : Reg) (u v : Word) :
    (s.setReg r u).setReg r v = s.setReg r v := by
  simp only [State.setReg, Regs.set_set_same]

theorem State.setReg_comm (s : State) {r p : Reg} (h : r ≠ p) (u v : Word) :
    (s.setReg r u).setReg p v = (s.setReg p v).setReg r u := by
  simp only [State.setReg, Regs.set_comm s.regs h]

/-- A jump takes back the advance of the pc. -/
@[simp] theorem State.setReg_pc_advance (s : State) (n v : Word) : (s.advance n).setReg .pc v = s.setReg .pc v :=
  State.setReg_setReg_same s .pc _ v

/-! ## The conditional jump -/

/-- Where a conditional jump goes: it reads the test bit and the pc, and nothing else. -/
def State.jumpDestination (s : State) (wanted : Bool) (target : BitVec 12) : Word :=
  if s.flags.test = wanted then target12 target else s.reg .pc + oneWord

/-- A write to a register other than the pc leaves the destination as it is. -/
theorem State.jumpDestination_setReg (s : State) {r : Reg} (h : r ≠ .pc) (v : Word) (wanted : Bool)
    (target : BitVec 12) : (s.setReg r v).jumpDestination wanted target = s.jumpDestination wanted target := by
  simp only [State.jumpDestination, State.setReg_flags, State.reg_setReg_ne s v h.symm]

/-- A conditional jump is one write of the pc, taken or not (R222, R223). -/
theorem jumpIfTest_eq (wanted : Bool) (target : BitVec 12) (s : State) :
    jumpIfTest wanted target s = .next (s.setReg .pc (s.jumpDestination wanted target)) := by
  by_cases taken : s.flags.test = wanted
  · simp [jumpIfTest, State.jumpDestination, taken]
  · simp [jumpIfTest, State.jumpDestination, taken, State.advance]

theorem exec_jz (target : BitVec 12) (s : State) : exec (.jz target) s = jumpIfTest false target s := rfl

theorem exec_jnz (target : BitVec 12) (s : State) : exec (.jnz target) s = jumpIfTest true target s := rfl

/-- A conditional jump commutes with a write to any register but the pc: it neither reads that register nor writes it. -/
theorem jumpIfTest_setReg (wanted : Bool) (target : BitVec 12) (s : State) {r : Reg} (h : r ≠ .pc) (v : Word) :
    jumpIfTest wanted target (s.setReg r v) =
      .next ((s.setReg .pc (s.jumpDestination wanted target)).setReg r v) := by
  rw [jumpIfTest_eq, State.jumpDestination_setReg s h, State.setReg_comm s h]

/-- The shape both halves of the statement share: the next state, the next state after a write to `t0`, and the pc. -/
theorem jumpIfTest_ignores_t0 (wanted : Bool) (target : BitVec 12) (s : State) (v : Word) :
    ∃ t, jumpIfTest wanted target s = .next t ∧ jumpIfTest wanted target (s.setReg .t0 v) = .next (t.setReg .t0 v) ∧
      t.reg .pc = if s.flags.test = wanted then target.setWidth 16 else s.reg .pc + 2 :=
  ⟨s.setReg .pc (s.jumpDestination wanted target), jumpIfTest_eq wanted target s,
    jumpIfTest_setReg wanted target s (by decide) v, State.reg_setReg_same s .pc _⟩

/-- Settles O49: a conditional jump is one write of the pc with a value of the test bit and the pc alone, so it commutes
with a write to `t0`. -/
theorem jumpsNeverReadT0 : Obligations.JumpsNeverReadT0 := by
  intro s v target
  rw [exec_jz, exec_jz, exec_jnz, exec_jnz]
  exact ⟨jumpIfTest_ignores_t0 false target s v, jumpIfTest_ignores_t0 true target s v⟩

end Sys2Proof.Machine
end

section
/-! `nop` (40_misc.md R116): the word it is decoded from, the step of a one-word instruction, and the statement. -/

namespace Sys2Proof

variable {w : Word}

/-! ## The word of `nop` -/

theorem decodeImm_ne_nop (w : Word) : decodeImm w ≠ some .nop := by
  unfold decodeImm
  split <;> simp

theorem decodeAlu_ne_nop (w : Word) : decodeAlu w ≠ some .nop := by
  unfold decodeAlu
  split <;> simp [decodeImm_ne_nop]

theorem decodeSop_ne_nop (w : Word) : decodeSop w ≠ some .nop := by
  unfold decodeSop
  split <;> simp

theorem decodeStack_ne_nop (w : Word) : decodeStack w ≠ some .nop := by
  unfold decodeStack
  split <;> simp [decodeSop_ne_nop]

theorem decodeTest_ne_nop (w : Word) : decodeTest w ≠ some .nop := by
  unfold decodeTest
  split <;> simp

theorem decodeLoadStore_ne_nop (w : Word) : decodeLoadStore w ≠ some .nop := by
  unfold decodeLoadStore
  split <;> simp

/-- Of the MISC words, only those of operation 0xF can be `nop`. -/
theorem nib2_of_decodeMisc_nop (h : decodeMisc w = some .nop) : nib2 w = 0xF#4 := by
  unfold decodeMisc at h
  split at h
  case h_6 op => exact BitVec.eq_of_toNat_eq op
  all_goals simp at h

/-- Of the families, only MISC has `nop`. -/
theorem decodeMisc_of_decodeFirst_nop (h : decodeFirst w = some .nop) :
    nib1 w = 0x0#4 ∧ decodeMisc w = some .nop := by
  unfold decodeFirst at h
  split at h
  case h_1 type => exact ⟨BitVec.eq_of_toNat_eq type, h⟩
  case h_2 => exact absurd h (decodeAlu_ne_nop w)
  case h_3 => exact absurd h (decodeStack_ne_nop w)
  case h_4 => exact absurd h (decodeTest_ne_nop w)
  case h_9 => exact absurd h (decodeLoadStore_ne_nop w)
  all_goals simp at h

/-- The words 0x0F00 to 0x0FFF: the last one is `nop`, the others are illegal. -/
theorem decodeFirst_nopRow (h1 : nib1 w = 0x0#4) (h2 : nib2 w = 0xF#4) :
    decodeFirst w = if w = 0x0FFF#16 then some .nop else none := by
  have operands : (nib3 w = 0xF#4 ∧ nib4 w = 0xF#4) ↔ w = 0x0FFF#16 := by
    refine ⟨fun ⟨h3, h4⟩ => ?_, fun h => h ▸ ⟨rfl, rfl⟩⟩
    rw [← ofNibbles_nibs w, h1, h2, h3, h4]
    rfl
  simp [decodeFirst, decodeMisc, h1, h2, operands]

theorem decodeFirst_eq_nop_iff : decodeFirst w = some .nop ↔ w = 0x0FFF#16 := by
  refine ⟨fun h => ?_, fun h => h ▸ rfl⟩
  obtain ⟨h1, misc⟩ := decodeMisc_of_decodeFirst_nop h
  rw [decodeFirst_nopRow h1 (nib2_of_decodeMisc_nop misc)] at h
  by_contra other
  cases (if_neg other).symm.trans h

theorem decodeFirst_none_below_nop (low : 0x0F00 ≤ w.toNat) (high : w.toNat ≤ 0x0FFE) : decodeFirst w = none := by
  have h1 : nib1 w = 0x0#4 := by
    apply BitVec.eq_of_toNat_eq
    simp only [nib1, BitVec.extractLsb'_toNat, BitVec.toNat_ofNat]
    omega
  have h2 : nib2 w = 0xF#4 := by
    apply BitVec.eq_of_toNat_eq
    simp only [nib2, BitVec.extractLsb'_toNat, BitVec.toNat_ofNat]
    omega
  have other : w ≠ 0x0FFF#16 := by
    rintro rfl
    exact absurd high (by decide)
  rw [decodeFirst_nopRow h1 h2, if_neg other]

end Sys2Proof

namespace Sys2Proof.Machine

/-! ## The step of a one-word instruction -/

theorem State.readWord_eq_wordAt {s : State} {addr : Word} (h : addr.toNat ≤ 4094) :
    s.readWord addr = .ok (s.wordAt addr.toNat) := State.readWord_ok h

/-- A one-word instruction executes with its word in `ir` and `dr` as it was (10_state.md R36, 30_encoding.md R90). -/
theorem step_oneWord {s : State} {w : Word} {i : Instr} (running : s.status = .running)
    (fits : (s.reg .pc).toNat ≤ 4094) (word : s.wordAt (s.reg .pc).toNat = w) (decoded : decodeFirst w = some i)
    (single : i.twoWords = false) : step s = exec i (s.withFetched w s.dr) := by
  have fetched : s.fetch = .got i w s.dr := by
    simp [State.fetch, State.readWord_eq_wordAt fits, word, decoded, single]
  simp [step, running, fetched]

/-! ## The meaning of `nop` -/

theorem exec_nop (s : State) : exec .nop s = .next (s.advance oneWord) := rfl

theorem moves_nop (s : State) : Moves .nop s 2 [] [] :=
  ⟨_, exec_nop s, regsBecome_advance rfl, bytesBecome_refl rfl, rfl, rfl, rfl, rfl, rfl, rfl, rfl, rfl⟩

theorem step_nop {s : State} (running : s.status = .running) (fits : (s.reg .pc).toNat ≤ 4094)
    (word : s.wordAt (s.reg .pc).toNat = 0x0FFF#16) :
    step s = .next ((s.withFetched 0x0FFF#16 s.dr).advance oneWord) := by
  rw [step_oneWord running fits word (decodeFirst_eq_nop_iff.2 rfl) rfl, exec_nop]

/-- Settles O23: `nop` is one advance of the pc, a step that fetches it adds `ir`, and of all words 0x0FFF alone decodes
to it: MISC is the only family that has it, and every other word of its row is illegal. -/
theorem nopMovesPcAlone : Obligations.NopMovesPcAlone := by
  refine ⟨moves_nop, rfl, fun w => ?_, fun w => decodeFirst_none_below_nop, fun s running fits word => ?_⟩
  · rw [show w &&& 0xFFFF#16 = w from BitVec.and_allOnes, decodeFirst_eq_nop_iff]
  · exact ⟨_, step_nop running fits word, rfl, regsBecome_advance rfl, rfl, rfl, rfl, rfl, rfl, rfl⟩

end Sys2Proof.Machine
end

section
/-! `li` (45_load_store.md R210): the word an instruction is decoded from, the step of a two-word instruction, and the
statement. -/

namespace Sys2Proof

variable {w : Word} {i : Instr} {n1 n2 : Nibble}

/-! ## A word put together again from its fields, format by format (30_encoding.md R82) -/

theorem ofNibbles_of_nibs {n3 n4 : Nibble} (h1 : nib1 w = n1) (h2 : (nib2 w).toNat = n2.toNat) (h3 : nib3 w = n3)
    (h4 : nib4 w = n4) : ofNibbles n1 n2 n3 n4 = w := by
  rw [← h1, ← BitVec.eq_of_toNat_eq h2, ← h3, ← h4, ofNibbles_nibs]

theorem nib2_eq_toNibble_reg2 (w : Word) : nib2 w = (reg2 w).toNibble := (Reg.toNibble_ofNibble _).symm

theorem nib3_eq_toNibble_reg3 (w : Word) : nib3 w = (reg3 w).toNibble := (Reg.toNibble_ofNibble _).symm

theorem nib4_eq_toNibble_reg4 (w : Word) : nib4 w = (reg4 w).toNibble := (Reg.toNibble_ofNibble _).symm

theorem encodeRR_regs (h1 : nib1 w = n1) (h2 : (nib2 w).toNat = n2.toNat) : encodeRR n1 n2 (reg3 w) (reg4 w) = w :=
  ofNibbles_of_nibs h1 h2 (nib3_eq_toNibble_reg3 w) (nib4_eq_toNibble_reg4 w)

theorem encodeRI_reg {v : Nibble} (h1 : nib1 w = n1) (h2 : (nib2 w).toNat = n2.toNat) (h4 : nib4 w = v) :
    encodeRI n1 n2 (reg3 w) v = w :=
  ofNibbles_of_nibs h1 h2 (nib3_eq_toNibble_reg3 w) h4

theorem encodeR3_reg (h1 : nib1 w = n1) (h2 : (nib2 w).toNat = n2.toNat) (h4 : nib4 w = 0x0#4) :
    encodeR3 n1 n2 (reg3 w) = w :=
  ofNibbles_of_nibs h1 h2 (nib3_eq_toNibble_reg3 w) h4

theorem encodeR4_reg (h1 : nib1 w = n1) (h2 : (nib2 w).toNat = n2.toNat) (h3 : nib3 w = 0x0#4) :
    encodeR4 n1 n2 (reg4 w) = w :=
  ofNibbles_of_nibs h1 h2 h3 (nib4_eq_toNibble_reg4 w)

theorem encodeRRR_regs (h1 : nib1 w = n1) : encodeRRR n1 (reg2 w) (reg3 w) (reg4 w) = w :=
  ofNibbles_of_nibs h1 (congrArg _ (nib2_eq_toNibble_reg2 w)) (nib3_eq_toNibble_reg3 w) (nib4_eq_toNibble_reg4 w)

theorem encodeJ_target (h1 : nib1 w = n1) : encodeJ n1 (w.extractLsb' 0 12) = w := by
  rw [← h1, encodeJ_fields]

/-! ## The first word of a decoded instruction is the word it was decoded from, family by family -/

theorem encodeFirst_of_decodeMisc (h1 : nib1 w = 0x0#4) (h : decodeMisc w = some i) : encodeFirst i = w := by
  unfold decodeMisc at h
  split at h
  case h_1 op => cases h; exact sysWord_code w h1 (BitVec.eq_of_toNat_eq op)
  case h_2 op => cases h; exact encodeRR_regs h1 op
  case h_3 op | h_4 op | h_5 op => cases h; exact encodeRI_reg h1 op rfl
  case h_6 op =>
    split at h
    next operands => cases h; exact ofNibbles_of_nibs (n2 := 0xF#4) h1 op operands.1 operands.2
    next => cases h
  case h_7 => cases h

theorem encodeFirst_of_decodeImm (h1 : nib1 w = 0x1#4) (h2 : (nib2 w).toNat = 15) (h : decodeImm w = some i) :
    encodeFirst i = w := by
  unfold decodeImm at h
  split at h
  case h_1 op named =>
    split at h
    next => cases h; exact encodeRI_reg h1 h2 (AluOp.toNibble_ofNibble named).symm
    next => cases h
  case h_2 => cases h

theorem encodeFirst_of_decodeAlu (h1 : nib1 w = 0x1#4) (h : decodeAlu w = some i) : encodeFirst i = w := by
  unfold decodeAlu at h
  split at h
  case h_13 op | h_14 op | h_15 op =>
    split at h
    next unused => cases h; exact encodeR3_reg h1 op unused
    next => cases h
  case h_16 =>
    have bound := (nib2 w).isLt
    have last : (nib2 w).toNat = 15 := by grind
    exact encodeFirst_of_decodeImm h1 last h
  all_goals next op => cases h; exact encodeRR_regs h1 op

theorem encodeFirst_of_decodeSop (h1 : nib1 w = 0x2#4) (h2 : (nib2 w).toNat = 7) (h : decodeSop w = some i) :
    encodeFirst i = w := by
  unfold decodeSop at h
  split at h
  case h_1 op named =>
    cases h
    exact ofNibbles_of_nibs h1 h2 (AluOp.toNibble_ofNibble named).symm (nib4_eq_toNibble_reg4 w)
  case h_2 => cases h

theorem encodeFirst_of_decodeStack (h1 : nib1 w = 0x2#4) (h : decodeStack w = some i) : encodeFirst i = w := by
  unfold decodeStack at h
  split at h
  case h_1 op | h_2 op => cases h; exact encodeRR_regs h1 op
  case h_8 op => exact encodeFirst_of_decodeSop h1 op h
  case h_10 => cases h
  all_goals next op =>
    split at h
    next unused => cases h; exact encodeR4_reg h1 op unused
    next => cases h

theorem encodeFirst_of_decodeTest (h1 : nib1 w = 0x3#4) (h : decodeTest w = some i) : encodeFirst i = w := by
  unfold decodeTest at h
  split at h
  case h_1 op | h_2 op | h_3 op | h_4 op | h_5 op | h_6 op => cases h; exact encodeRR_regs h1 op
  case h_13 => cases h
  all_goals next op => cases h; exact encodeRI_reg h1 op rfl

theorem encodeFirst_of_decodeLoadStore (h1 : nib1 w = 0x8#4) (h : decodeLoadStore w = some i) : encodeFirst i = w := by
  unfold decodeLoadStore at h
  split at h
  case h_2 op | h_4 op | h_6 op | h_8 op => cases h; exact encodeRR_regs h1 op
  case h_10 => cases h
  all_goals next op =>
    split at h
    next unused => cases h; exact encodeR3_reg h1 op unused
    next => cases h

/-- No two words decode to the same instruction: the word can be read back from it. -/
theorem encodeFirst_of_decodeFirst (h : decodeFirst w = some i) : encodeFirst i = w := by
  unfold decodeFirst at h
  split at h
  case h_1 type => exact encodeFirst_of_decodeMisc (BitVec.eq_of_toNat_eq type) h
  case h_2 type => exact encodeFirst_of_decodeAlu (BitVec.eq_of_toNat_eq type) h
  case h_3 type => exact encodeFirst_of_decodeStack (BitVec.eq_of_toNat_eq type) h
  case h_4 type => exact encodeFirst_of_decodeTest (BitVec.eq_of_toNat_eq type) h
  case h_5 type | h_6 type | h_7 type | h_8 type => cases h; exact encodeRRR_regs (BitVec.eq_of_toNat_eq type)
  case h_9 type => exact encodeFirst_of_decodeLoadStore (BitVec.eq_of_toNat_eq type) h
  case h_10 type =>
    split at h
    next unused =>
      cases h
      exact encodeR4_reg (BitVec.eq_of_toNat_eq type) (congrArg BitVec.toNat unused.1) unused.2
    next => cases h
  case h_15 => cases h
  all_goals next type => cases h; exact encodeJ_target (BitVec.eq_of_toNat_eq type)

/-! ## The words of `li` -/

theorem encode_li (r : Reg) (value : Word) :
    encode (.li r value) = [0x8F00#16 ||| (r.toNibble.setWidth 16 <<< 4), value] := by
  cases r <;> rfl

/-- The mask of the row of `li` fixes every nibble but the register's. -/
theorem nibs_of_liRow (row : w &&& 0xFF0F#16 = 0x8F00#16) : nib1 w = 0x8#4 ∧ nib2 w = 0xF#4 ∧ nib4 w = 0x0#4 := by
  rw [← ofNibbles_nibs w, Laws.without_nibble3] at row
  exact ⟨(nib1_ofNibbles ..).symm.trans (congrArg nib1 row),
    (nib2_ofNibbles ..).symm.trans (congrArg nib2 row), (nib4_ofNibbles ..).symm.trans (congrArg nib4 row)⟩

theorem decodeFirst_liRow (row : w &&& 0xFF0F#16 = 0x8F00#16) : decodeFirst w = some (.li (reg3 w) 0#16) := by
  obtain ⟨h1, h2, h4⟩ := nibs_of_liRow row
  simp [decodeFirst, decodeLoadStore, h1, h2, h4]

theorem liRow_iff_decodeFirst (w : Word) :
    w &&& 0xFF0F#16 = 0x8F00#16 ↔ ∃ r, decodeFirst w = some (.li r 0#16) := by
  refine ⟨fun row => ⟨_, decodeFirst_liRow row⟩, fun ⟨r, decoded⟩ => ?_⟩
  rw [← encodeFirst_of_decodeFirst decoded]
  exact Laws.RowAgrees.li r 0#16

end Sys2Proof

namespace Sys2Proof.Machine

/-! ## The step of a two-word instruction -/

section
variable {s : State} {i : Instr} (running : s.status = .running) (fits : (s.reg .pc).toNat ≤ 4094)
  (decoded : decodeFirst (s.wordAt (s.reg .pc).toNat) = some i) (double : i.twoWords = true)

include fits decoded double in
/-- A first word of two leaves the rest of the fetch to the data word (30_encoding.md R84). -/
theorem State.fetch_twoWords : s.fetch = s.fetchData i (s.wordAt (s.reg .pc).toNat) := by
  simp [State.fetch, State.readWord_eq_wordAt fits, decoded, double]

include running fits decoded double in
/-- A two-word instruction executes with its words in `ir` and `dr` (10_state.md R36, 30_encoding.md R90). -/
theorem step_twoWords (dataFits : (s.reg .pc + 2#16).toNat ≤ 4094) :
    step s = exec (i.withData (s.wordAt (s.reg .pc + 2#16).toNat))
      (s.withFetched (s.wordAt (s.reg .pc).toNat) (s.wordAt (s.reg .pc + 2#16).toNat)) := by
  simp [step, running, State.fetch_twoWords fits decoded double, State.fetchData, State.readWord_eq_wordAt dataFits]

include running fits decoded double in
/-- A two-word instruction whose data word lies beyond memory faults before it executes (60_exceptions.md R280). -/
theorem step_twoWords_fault (dataBeyond : 4094 < (s.reg .pc + 2#16).toNat) :
    step s = .next (s.raise (.addressFault (s.reg .pc + 2#16))) := by
  simp [step, running, State.fetch_twoWords fits decoded double, State.fetchData, State.readWord_error dataBeyond]
end

/-! ## The meaning of `li` -/

theorem exec_li (r : Reg) (value : Word) (s : State) :
    exec (.li r value) s = .next ((s.advance twoWord).setReg r value) := rfl

theorem moves_li (s : State) (r : Reg) (value : Word) : Moves (.li r value) s 4 [(r, value)] [] :=
  ⟨_, exec_li r value s, regsBecome_setReg rfl, bytesBecome_refl rfl, rfl, rfl, rfl, rfl, rfl, rfl, rfl, rfl⟩

/-- Settles O45: `li` is one advance of the pc and one register write, so its step can fault only where the data word is
fetched; and as an instruction determines the word it is decoded from, the words of its row alone decode to it. -/
theorem loadImmediateResult : Obligations.LoadImmediateResult := by
  refine ⟨moves_li, encode_li, liRow_iff_decodeFirst, rfl, fun s running fits row =>
    ⟨fun dataFits => ?_, fun dataBeyond => ?_⟩⟩
  · exact ⟨_, step_twoWords running fits (decodeFirst_liRow row) rfl dataFits, running⟩
  · exact ⟨_, step_twoWords_fault running fits (decodeFirst_liRow row) rfl dataBeyond, faultTaken_raise s _⟩

end Sys2Proof.Machine
end

section
/-! `jr` (46_jump_register.md R216): the words of its type, the step of a pc beyond memory, and the statement. -/

namespace Sys2Proof

variable {w : Word}

/-! ## The words of `jr` -/

theorem encode_jr (r : Reg) : encode (.jr r) = [0x9000#16 ||| r.toNibble.setWidth 16] := by
  cases r <;> rfl

/-- The words 0x9000 to 0x9FFF: the first sixteen are `jr`, the others are illegal. -/
theorem decodeFirst_jrType (h1 : nib1 w = 9#4) :
    decodeFirst w = if nib2 w = 0x0#4 ∧ nib3 w = 0x0#4 then some (.jr (reg4 w)) else none := by
  simp [decodeFirst, h1]

/-- The mask of the row of `jr` fixes every nibble but the register's. -/
theorem nibs_of_jrRow (row : w &&& 0xFFF0#16 = 0x9000#16) : nib1 w = 9#4 ∧ nib2 w = 0x0#4 ∧ nib3 w = 0x0#4 := by
  rw [← ofNibbles_nibs w, Laws.without_nibble4] at row
  exact ⟨(nib1_ofNibbles ..).symm.trans (congrArg nib1 row),
    (nib2_ofNibbles ..).symm.trans (congrArg nib2 row), (nib3_ofNibbles ..).symm.trans (congrArg nib3 row)⟩

theorem jrRow_iff_decodeFirst (w : Word) : w &&& 0xFFF0#16 = 0x9000#16 ↔ ∃ r, decodeFirst w = some (.jr r) := by
  refine ⟨fun row => ?_, fun ⟨r, decoded⟩ => ?_⟩
  · obtain ⟨h1, middle⟩ := nibs_of_jrRow row
    exact ⟨reg4 w, (decodeFirst_jrType h1).trans (if_pos middle)⟩
  · rw [← encodeFirst_of_decodeFirst decoded]
    exact Laws.RowAgrees.jr r

theorem decodeFirst_none_of_jrMiddle (h1 : nib1 w = 9#4) (middle : nib2 w ≠ 0#4 ∨ nib3 w ≠ 0#4) :
    decodeFirst w = none := by
  rw [decodeFirst_jrType h1, if_neg (not_and_or.2 middle)]

end Sys2Proof

namespace Sys2Proof.Machine

/-! ## The step of a pc beyond memory -/

/-- A pc from which no word can be read faults at the fetch, whatever memory holds (60_exceptions.md R280). -/
theorem step_pcBeyond {s : State} (running : s.status = .running) (beyond : 4094 < (s.reg .pc).toNat) :
    step s = .next (s.raise (.addressFault (s.reg .pc))) := by
  have fetched : s.fetch = .faulted (.addressFault (s.reg .pc)) := by
    simp [State.fetch, State.readWord_error beyond]
  simp [step, running, fetched]

/-! ## The meaning of `jr` -/

/-- `jr` is one write of the pc; its register is read after the advance. -/
theorem exec_jr (r : Reg) (s : State) : exec (.jr r) s = .next ((s.advance oneWord).setReg .pc (s.operand 2 r)) := by
  rw [← State.reg_advance_operand]
  rfl

/-- `jr pc` does what `nop` does: the value it writes is the advanced pc. -/
theorem exec_jr_pc (s : State) : exec (.jr .pc) s = exec .nop s := by
  rw [exec_jr, exec_nop, State.setReg_pc_advance, State.operand_pc]
  rfl

theorem moves_jr (s : State) (r : Reg) : Moves (.jr r) s 2 [(.pc, s.operand 2 r)] [] :=
  ⟨_, exec_jr r s, regsBecome_setReg rfl, bytesBecome_refl rfl, rfl, rfl, rfl, rfl, rfl, rfl, rfl, rfl⟩

theorem moves_jr_pc (s : State) : Moves (.jr .pc) s 2 [] [] := by
  obtain ⟨t, done, effect⟩ := moves_nop s
  exact ⟨t, (exec_jr_pc s).trans done, effect⟩

/-- A bad target is no fault of the `jr` but of the fetch after it. -/
theorem step_after_jr_beyond {s t : State} {r : Reg} (running : s.status = .running)
    (beyond : 4094 < (s.operand 2 r).toNat) (done : exec (.jr r) s = .next t) :
    t.reg .pc = s.operand 2 r ∧ step t = .next (t.raise (.addressFault (s.operand 2 r))) := by
  rw [exec_jr] at done
  cases done
  have target := State.reg_setReg_same (s.advance oneWord) .pc (s.operand 2 r)
  have faulted := step_pcBeyond (s := (s.advance oneWord).setReg .pc (s.operand 2 r)) running (target ▸ beyond)
  exact ⟨target, target ▸ faulted⟩

/-- Settles O46: `jr` is one write of the pc, with the whole register as it reads after the advance, so a bad target
faults only where the next step fetches; and of the words of its type, those with a zero middle alone decode. -/
theorem jumpRegisterSetsPc : Obligations.JumpRegisterSetsPc := by
  refine ⟨moves_jr, moves_jr_pc, fun s t r running beyond done => ?_, encode_jr, jrRow_iff_decodeFirst,
    fun w => decodeFirst_none_of_jrMiddle, rfl⟩
  obtain ⟨target, faulted⟩ := step_after_jr_beyond running beyond done
  exact ⟨_, faulted, faultTaken_raise t _, target⟩

end Sys2Proof.Machine
end

section
/-! `j`, `jz`, `jnz` and `jal` (47_jump.md R221 to R224): the words of the four jump rows, the meaning of each jump as
writes of registers alone, and the statements. -/

namespace Sys2Proof

/-! ## The words of a jump row -/

/-- A jump word is the word of its type with the target in its low bits. -/
theorem encodeJ_eq_or (n : Nibble) (t : BitVec 12) : encodeJ n t = (n ++ 0#12) ||| t.setWidth 16 := by
  have low : t.setWidth 16 = 0#4 ++ t := BitVec.setWidth_eq_append (by decide)
  rw [low, BitVec.or_append, BitVec.or_zero, BitVec.zero_or]
  rfl

/-- The mask of a jump row fixes the type nibble, and nothing else. -/
theorem jumpRow_iff_nib1 (w : Word) (n : Nibble) : w &&& 0xF000#16 = n ++ 0#12 ↔ nib1 w = n := by
  have masked : w &&& 0xF000#16 = encodeJ (nib1 w) 0#12 := by
    conv_lhs => rw [← encodeJ_fields w, Laws.upper_nibble]
    rfl
  rw [masked]
  exact ⟨fun row => by simpa using congrArg nib1 (show _ = encodeJ n 0#12 from row), fun type => type ▸ rfl⟩

/-- Where every target has its word in a row, the words of the row are those that decode to its instruction. -/
theorem jumpRow_iff_decodeFirst {n : Nibble} {jump : BitVec 12 → Instr}
    (encodes : ∀ t, encodeFirst (jump t) = encodeJ n t) (decodes : ∀ t, decodeFirst (encodeJ n t) = some (jump t))
    (w : Word) : w &&& 0xF000#16 = n ++ 0#12 ↔ decodeFirst w = some (jump (w.setWidth 12)) := by
  rw [jumpRow_iff_nib1]
  refine ⟨fun type => ?_, fun decoded => ?_⟩
  · rw [BitVec.setWidth_eq_extractLsb' (by decide), ← decodes, encodeJ_target type]
  · rw [← encodeFirst_of_decodeFirst decoded, encodes, nib1_encodeJ]

theorem decodeFirst_jWord (t : BitVec 12) : decodeFirst (encodeJ 0xC#4 t) = some (.j t) := by simp [decodeFirst]

theorem decodeFirst_jzWord (t : BitVec 12) : decodeFirst (encodeJ 0xD#4 t) = some (.jz t) := by simp [decodeFirst]

theorem decodeFirst_jnzWord (t : BitVec 12) : decodeFirst (encodeJ 0xE#4 t) = some (.jnz t) := by simp [decodeFirst]

theorem decodeFirst_jalWord (t : BitVec 12) : decodeFirst (encodeJ 0xF#4 t) = some (.jal t) := by simp [decodeFirst]

theorem encode_j (t : BitVec 12) : encode (.j t) = [0xC000#16 ||| t.setWidth 16] :=
  congrArg (fun w => [w]) (encodeJ_eq_or 0xC#4 t)

theorem encode_jal (t : BitVec 12) : encode (.jal t) = [0xF000#16 ||| t.setWidth 16] :=
  congrArg (fun w => [w]) (encodeJ_eq_or 0xF#4 t)

end Sys2Proof

namespace Sys2Proof.Machine

/-! ## An instruction that is one write of the pc -/

/-- Writing back the value a register holds changes nothing. -/
theorem Regs.set_get_self (f : Regs) (r : Reg) : f.set r (f.get r) = f := by
  refine Regs.eq_of_get_eq fun q => ?_
  by_cases hq : q = r <;> simp [Regs.get_set, hq]

/-- One write of the pc is the whole effect of an instruction that changes nothing else. -/
theorem moves_of_setPc {i : Instr} {s : State} {v : Word} (done : exec i s = .next (s.setReg .pc v)) :
    Moves i s 2 [(.pc, v)] [] :=
  have kept := Local.setReg s .pc v
  have registers := regsBecome_setReg (n := oneWord) (by rw [State.setReg_pc_advance])
  ⟨_, done, registers, bytesBecome_refl rfl, rfl, kept.outside, rfl, kept.hidden⟩

/-! ## The meaning of `j` -/

theorem exec_j (t : BitVec 12) (s : State) : exec (.j t) s = .next (s.setReg .pc (t.setWidth 16)) :=
  congrArg Host.Outcome.next (State.setReg_pc_advance s oneWord (target12 t))

theorem moves_j (s : State) (t : BitVec 12) : Moves (.j t) s 2 [(.pc, t.setWidth 16)] [] := moves_of_setPc (exec_j t s)

/-- A `j` to its own address writes the pc with the value it has. -/
theorem step_jToItself {s : State} {t : BitVec 12} (running : s.status = .running) (here : s.reg .pc = t.setWidth 16)
    (fits : t.toNat ≤ 4094) (word : s.wordAt t.toNat = 0xC000#16 ||| t.setWidth 16) :
    ∃ u, step s = .next u ∧ u.regs = s.regs ∧ u.mem = s.mem ∧ u.status = .running := by
  have address : (s.reg .pc).toNat = t.toNat := by rw [here, BitVec.toNat_setWidth_of_le (by decide)]
  have decoded : decodeFirst (0xC000#16 ||| t.setWidth 16) = some (.j t) := by
    rw [← decodeFirst_jWord t, encodeJ_eq_or]
    rfl
  have ran := step_oneWord running (address ▸ fits) (address ▸ word) decoded rfl
  refine ⟨_, ran.trans (exec_j t _), ?_, rfl, running⟩
  rw [State.setReg_regs, State.withFetched_regs, ← here]
  exact Regs.set_get_self s.regs .pc

/-- No word lies at 0xFFF, the last byte of memory, so the fetch after a `j` to it faults. -/
theorem step_after_j_lastByte {s t : State} (running : s.status = .running) (done : exec (.j 0xFFF#12) s = .next t) :
    step t = .next (t.raise (.addressFault 0x0FFF#16)) := by
  rw [exec_j] at done
  cases done
  have target := State.reg_setReg_same s .pc 0x0FFF#16
  exact target ▸ step_pcBeyond (s := s.setReg .pc 0x0FFF#16) running (by rw [target]; decide)

/-- Settles O47: `j` is one write of the pc, so a `j` to itself leaves every register as it was and a bad target faults
only where the next step fetches; and the words of its row alone decode to it. -/
theorem jumpSetsPc : Obligations.JumpSetsPc := by
  refine ⟨moves_j, jumpRow_iff_decodeFirst (fun _ => rfl) decodeFirst_jWord, encode_j,
    fun s t => step_jToItself, fun s t running done => ?_, rfl⟩
  exact ⟨_, step_after_j_lastByte running done, faultTaken_raise t _⟩

/-! ## The meaning of `jz` and `jnz` -/

theorem State.jumpDestination_taken {s : State} {wanted : Bool} (taken : s.flags.test = wanted) (target : BitVec 12) :
    s.jumpDestination wanted target = target.setWidth 16 := if_pos taken

theorem State.jumpDestination_not_taken {s : State} {wanted : Bool} (passed : s.flags.test ≠ wanted)
    (target : BitVec 12) : s.jumpDestination wanted target = s.reg .pc + 2 := if_neg passed

theorem moves_jz (s : State) (target : BitVec 12) :
    Moves (.jz target) s 2 [(.pc, s.jumpDestination false target)] [] := moves_of_setPc (jumpIfTest_eq false target s)

theorem moves_jnz (s : State) (target : BitVec 12) :
    Moves (.jnz target) s 2 [(.pc, s.jumpDestination true target)] [] := moves_of_setPc (jumpIfTest_eq true target s)

section
variable {s : State} (target : BitVec 12)

theorem moves_jz_taken (clear : s.flags.test = false) : Moves (.jz target) s 2 [(.pc, target.setWidth 16)] [] :=
  State.jumpDestination_taken clear target ▸ moves_jz s target

theorem moves_jz_not_taken (set : s.flags.test = true) : Moves (.jz target) s 2 [(.pc, s.reg .pc + 2)] [] :=
  State.jumpDestination_not_taken (show s.flags.test ≠ false by simp [set]) target ▸ moves_jz s target

theorem moves_jnz_taken (set : s.flags.test = true) : Moves (.jnz target) s 2 [(.pc, target.setWidth 16)] [] :=
  State.jumpDestination_taken set target ▸ moves_jnz s target

theorem moves_jnz_not_taken (clear : s.flags.test = false) : Moves (.jnz target) s 2 [(.pc, s.reg .pc + 2)] [] :=
  State.jumpDestination_not_taken (show s.flags.test ≠ true by simp [clear]) target ▸ moves_jnz s target
end

/-- The flags an instruction completes with are those of the state it answers, which the next instruction reads. -/
theorem flags_of_completes {i : Instr} {s t : State} {len : Word} {regs : List (Reg × Word)}
    {bytes : List (Nat × Byte)} {flags : Flags} {outside : Outside} {used : Nat}
    (completes : Completes i s len regs bytes flags outside used) (done : exec i s = .next t) : t.flags = flags := by
  obtain ⟨u, answered, -, -, flagsEq, -⟩ := completes
  cases done.symm.trans answered
  exact flagsEq

/-- Settles O48: a conditional jump is one write of the pc that the test bit alone decides, so after any instruction it
follows the test bit of the flags that instruction completed with: the outcome of a comparison, or whether the result of
an ALU operation differs from zero. -/
theorem conditionalJumps : Obligations.ConditionalJumps := by
  refine ⟨fun s target => ⟨fun clear => ⟨moves_jz_taken target clear, moves_jnz_not_taken target clear⟩,
      fun set => ⟨moves_jz_not_taken target set, moves_jnz_taken target set⟩⟩,
    jumpRow_iff_decodeFirst (fun _ => rfl) decodeFirst_jzWord,
    jumpRow_iff_decodeFirst (fun _ => rfl) decodeFirst_jnzWord, rfl, rfl,
    fun i s t outcome target tests done => ?_, fun i s t len r res ovf nan used target computes done => ?_⟩
  · have test : t.flags.test = outcome := congrArg Flags.test (flags_of_completes tests done)
    exact ⟨fun isFalse => moves_jz_taken target (test.trans isFalse),
      fun isTrue => moves_jnz_taken target (test.trans isTrue)⟩
  · have test : t.flags.test = decide (res ≠ 0) := congrArg Flags.test (flags_of_completes computes done)
    exact ⟨fun zero => moves_jz_taken target (test.trans (by simp [zero])),
      fun nonzero => moves_jnz_taken target (test.trans (decide_eq_true nonzero))⟩

/-! ## The meaning of `jal` -/

/-- `jal` writes two registers: the link is the advanced pc, and the jump takes back the advance. -/
theorem exec_jal (target : BitVec 12) (s : State) :
    exec (.jal target) s =
      .next (((s.advance oneWord).setReg .pc (target.setWidth 16)).setReg .ra (s.reg .pc + 2)) := by
  rw [← State.setReg_comm _ (show Reg.ra ≠ .pc by decide)]
  rfl

theorem moves_jal (s : State) (target : BitVec 12) :
    Moves (.jal target) s 2 [(.ra, s.reg .pc + 2), (.pc, target.setWidth 16)] [] :=
  have kept := ((Local.advance s oneWord).trans (Local.setReg _ .pc _)).trans (Local.setReg _ .ra _)
  ⟨_, exec_jal target s, regsBecome_setReg_setReg rfl, bytesBecome_refl (by simp), by simp, kept.outside, by simp,
    kept.hidden⟩

theorem ra_after_jal {s t : State} {target : BitVec 12} (done : exec (.jal target) s = .next t) :
    t.reg .ra = s.reg .pc + 2 := by
  rw [exec_jal] at done
  cases done
  exact State.reg_setReg_same _ .ra _

/-- Settles O50: `jal` is a write of `ra` with the advanced pc and one of the pc; the link of a `jal` in the last word of
memory is the first address past it, where a step faults at its fetch; and the words of its row alone decode to it. -/
theorem jumpAndLink : Obligations.JumpAndLink := by
  refine ⟨moves_jal, jumpRow_iff_decodeFirst (fun _ => rfl) decodeFirst_jalWord, encode_jal, rfl,
    fun s t target last done => ?_, fun s running past => ?_⟩
  · rw [ra_after_jal done, last]
    rfl
  · exact ⟨_, step_pcBeyond running (by rw [past]; decide), past ▸ faultTaken_raise s _⟩

end Sys2Proof.Machine
end

section
/-! Decoding and encoding (30_encoding.md sections 2 and 4): the fields of each format, the first word of an instruction
read back, the decoder on the bytes of words, and the statements about the round trip, the illegal words and the length
of an instruction. -/

namespace Sys2Proof

variable {w d : Word} {i : Instr} {bigEndian : Bool} {bytes rest : List Byte}

/-! ## The register fields of a word built from nibbles -/

@[simp] theorem reg2_ofNibbles (a b c d : Nibble) : reg2 (ofNibbles a b c d) = Reg.ofNibble b := by
  rw [reg2, nib2_ofNibbles]

@[simp] theorem reg3_ofNibbles (a b c d : Nibble) : reg3 (ofNibbles a b c d) = Reg.ofNibble c := by
  rw [reg3, nib3_ofNibbles]

@[simp] theorem reg4_ofNibbles (a b c d : Nibble) : reg4 (ofNibbles a b c d) = Reg.ofNibble d := by
  rw [reg4, nib4_ofNibbles]

/-! ## The first word of an instruction is read back, family by family -/

section
variable (n2 n3 n4 : Nibble)

theorem decodeFirst_misc : decodeFirst (ofNibbles 0x0#4 n2 n3 n4) = decodeMisc (ofNibbles 0x0#4 n2 n3 n4) := by
  simp [decodeFirst]

theorem decodeFirst_alu : decodeFirst (ofNibbles 0x1#4 n2 n3 n4) = decodeAlu (ofNibbles 0x1#4 n2 n3 n4) := by
  simp [decodeFirst]

theorem decodeFirst_stack : decodeFirst (ofNibbles 0x2#4 n2 n3 n4) = decodeStack (ofNibbles 0x2#4 n2 n3 n4) := by
  simp [decodeFirst]

theorem decodeFirst_test : decodeFirst (ofNibbles 0x3#4 n2 n3 n4) = decodeTest (ofNibbles 0x3#4 n2 n3 n4) := by
  simp [decodeFirst]

theorem decodeFirst_loadStore :
    decodeFirst (ofNibbles 0x8#4 n2 n3 n4) = decodeLoadStore (ofNibbles 0x8#4 n2 n3 n4) := by
  simp [decodeFirst]
end

theorem decodeFirst_sysWord (code : BitVec 8) : decodeFirst (0x00#8 ++ code) = some (.sys code) := by
  simp [decodeFirst, decodeMisc]

/-- The operation field of `imm` names a binary operation. -/
theorem decodeImm_ofNibbles (n1 n2 : Nibble) (r : Reg) {op : AluOp} (binary : op.isBinary = true) :
    decodeImm (ofNibbles n1 n2 r.toNibble op.toNibble) = some (.imm op r 0#16) := by
  simp [decodeImm, binary]

theorem decodeSop_ofNibbles (n1 n2 : Nibble) (op : AluOp) (p : Reg) :
    decodeSop (ofNibbles n1 n2 op.toNibble p.toNibble) = some (.sop op p) := by
  simp [decodeSop]

/-- The first word of an instruction tells everything but its data word. -/
theorem decodeFirst_encodeFirst (formed : i.wellFormed = true) :
    decodeFirst (encodeFirst i) = some (i.withData 0#16) := by
  cases i with
  | sys code => exact decodeFirst_sysWord code
  | nop => rfl
  | mov | inc | dec | seti =>
    simp [encodeFirst, encodeRR, encodeRI, decodeFirst_misc, decodeMisc, Instr.withData]
  | add | sub | mul | div | mod | and | or | xor | shl | shr | min | max | not | lnot | neg =>
    simp [encodeFirst, encodeRR, encodeR3, decodeFirst_alu, decodeAlu, Instr.withData]
  | imm op r value =>
    have binary : op.isBinary = true := formed
    simp [encodeFirst, encodeRI, decodeFirst_alu, decodeAlu, decodeImm_ofNibbles _ _ r binary, Instr.withData]
  | sop op p => simp [encodeFirst, decodeFirst_stack, decodeStack, decodeSop_ofNibbles, Instr.withData]
  | push | pop | dup | swap | drop | overWord | rot | pushi =>
    simp [encodeFirst, encodeRR, encodeR4, decodeFirst_stack, decodeStack, Instr.withData]
  | eq | neq | gt | gte | lt | lte | eqi | neqi | gti | gtei | lti | ltei =>
    simp [encodeFirst, encodeRR, encodeRI, decodeFirst_test, decodeTest, Instr.withData]
  | lwr | lbr | swr | sbr => simp [encodeFirst, encodeRRR, decodeFirst, Instr.withData]
  | lw | lwo | lb | lbo | sw | swo | sb | sbo | li =>
    simp [encodeFirst, encodeRR, encodeR3, decodeFirst_loadStore, decodeLoadStore, Instr.withData]
  | jr => simp [encodeFirst, encodeR4, decodeFirst, Instr.withData]
  | j target => exact decodeFirst_jWord target
  | jz target => exact decodeFirst_jzWord target
  | jnz target => exact decodeFirst_jnzWord target
  | jal target => exact decodeFirst_jalWord target

/-! ## The decoder on the bytes of words -/

/-- A one-word instruction is decoded from its word, whatever follows. -/
theorem decode_oneWord (decoded : decodeFirst w = some i) (single : i.twoWords = false) :
    decode bigEndian (bytesOfWords bigEndian [w] ++ rest) = .instr i rest := by
  simp [decode, bytesOfWords, decoded, single]

/-- A two-word instruction takes its data word from the word after its first. -/
theorem decode_twoWords (decoded : decodeFirst w = some i) (double : i.twoWords = true) :
    decode bigEndian (bytesOfWords bigEndian [w, d] ++ rest) = .instr (i.withData d) rest := by
  simp [decode, bytesOfWords, decoded, double]

theorem Instr.withData_of_oneWord (single : i.twoWords = false) (d : Word) : i.withData d = i := by
  cases i <;> first | rfl | cases single

theorem Instr.dataWord_withData (double : i.twoWords = true) (d : Word) : (i.withData d).dataWord = d := by
  cases i <;> first | rfl | cases double

/-- Settles O7: the first word of an instruction decodes to it but for its data word, and the decoder takes the data
word from the bytes after it. -/
theorem decodeOfEncode : Obligations.DecodeOfEncode := by
  intro bigEndian i rest formed
  have first := decodeFirst_encodeFirst formed
  cases words : i.twoWords with
  | false =>
    rw [Instr.withData_of_oneWord words] at first
    simp only [encode, words, Bool.false_eq_true, if_false]
    exact decode_oneWord first words
  | true =>
    simp only [encode, words, if_true]
    rw [decode_twoWords first ((Instr.twoWords_withData i _).trans words), Instr.withData_withData,
      Instr.withData_dataWord]

/-! ## What the decoder can answer -/

/-- Bytes that decode to an instruction begin with its first word, and with its data word if it has two. -/
theorem decode_instr_cases (decoded : decode bigEndian bytes = .instr i rest) :
    (∃ w, decodeFirst w = some i ∧ i.twoWords = false ∧ bytes = bytesOfWords bigEndian [w] ++ rest) ∨
      ∃ w d first, decodeFirst w = some first ∧ first.twoWords = true ∧ i = first.withData d ∧
        bytes = bytesOfWords bigEndian [w, d] ++ rest := by
  unfold decode at decoded
  split at decoded
  case h_2 => cases decoded
  case h_1 b0 b1 tail =>
    simp only at decoded
    split at decoded
    case h_1 => cases decoded
    case h_2 first named =>
      split at decoded
      case isFalse single =>
        cases decoded
        exact .inl ⟨_, named, by simpa using single, by simp [bytesOfWords]⟩
      case isTrue double =>
        split at decoded
        case h_2 => cases decoded
        case h_1 d0 d1 tail' =>
          cases decoded
          exact .inr ⟨_, wordOfBytes bigEndian d0 d1, first, named, double, rfl, by simp [bytesOfWords]⟩

theorem wellFormed_of_decodeImm (decoded : decodeImm w = some i) : i.wellFormed = true := by
  unfold decodeImm at decoded
  split at decoded
  case h_2 => cases decoded
  case h_1 op named =>
    split at decoded
    case isTrue binary => cases decoded; exact binary
    case isFalse => cases decoded

/-- Of the ALU words, `imm` alone leaves the operation to a check. -/
theorem wellFormed_of_decodeAlu (decoded : decodeAlu w = some i) : i.wellFormed = true := by
  unfold decodeAlu at decoded
  split at decoded
  case h_13 | h_14 | h_15 =>
    split at decoded <;> cases decoded
    rfl
  case h_16 => exact wellFormed_of_decodeImm decoded
  all_goals cases decoded; rfl

/-- Every term but an `imm` is well formed, and only an ALU word has the type nibble of `imm`. -/
theorem wellFormed_of_nib1 (type : nib1 (encodeFirst i) ≠ 0x1#4) : i.wellFormed = true := by
  cases i with
  | imm op r value => exact absurd (nib1_ofNibbles ..) type
  | _ => rfl

theorem wellFormed_of_decodeFirst (decoded : decodeFirst w = some i) : i.wellFormed = true := by
  by_cases type : nib1 w = 0x1#4
  · refine wellFormed_of_decodeAlu (w := w) ?_
    simpa [decodeFirst, type] using decoded
  · exact wellFormed_of_nib1 (encodeFirst_of_decodeFirst decoded ▸ type)

@[simp] theorem Instr.wellFormed_withData (i : Instr) (d : Word) : (i.withData d).wellFormed = i.wellFormed := by
  cases i <;> rfl

/-- Settles O8: the word an instruction was decoded from is its first word again, and the data word is part of the
instruction. -/
theorem encodeOfDecode : Obligations.EncodeOfDecode := by
  intro bigEndian bytes rest i decoded
  obtain ⟨w, named, single, rfl⟩ | ⟨w, d, first, named, double, rfl, rfl⟩ := decode_instr_cases decoded
  · refine ⟨wellFormed_of_decodeFirst named, ?_⟩
    simp [encode, single, encodeFirst_of_decodeFirst named]
  · refine ⟨(Instr.wellFormed_withData first d).trans (wellFormed_of_decodeFirst named), ?_⟩
    simp [encode, double, encodeFirst_of_decodeFirst named, Instr.dataWord_withData double]

/-! ## The illegal first words (30_encoding.md R87) -/

/-- The bytes of a word are its nibbles in pairs. -/
theorem hiByte_eq_iff (w : Word) (b : Byte) :
    hiByte w = b ↔ nib1 w = b.extractLsb' 4 4 ∧ nib2 w = b.extractLsb' 0 4 := by
  simp only [hiByte, nib1, nib2, BitVec.toNat_eq, BitVec.extractLsb'_toNat]
  omega

theorem loByte_eq_iff (w : Word) (b : Byte) :
    loByte w = b ↔ nib3 w = b.extractLsb' 4 4 ∧ nib4 w = b.extractLsb' 0 4 := by
  simp only [loByte, nib3, nib4, BitVec.toNat_eq, BitVec.extractLsb'_toNat]
  omega

theorem decodeMisc_eq_none_iff (w : Word) : decodeMisc w = none ↔
    (5 ≤ (nib2 w).toNat ∧ (nib2 w).toNat ≤ 14) ∨ (nib2 w = 0xF#4 ∧ loByte w ≠ 0xFF#8) := by
  have bound := (nib2 w).isLt
  have last : nib2 w = 0xF#4 ↔ (nib2 w).toNat = 15 := BitVec.toNat_eq
  rw [last, ne_eq, loByte_eq_iff]
  unfold decodeMisc
  split
  case h_6 op => simp [op]
  case h_7 => grind
  all_goals next op => simp [op]

theorem decodeImm_eq_none_iff (w : Word) : decodeImm w = none ↔ 12 ≤ (nib4 w).toNat := by
  have table : ∀ n : Nibble, (∀ op, AluOp.ofNibble n = some op → op.isBinary = false) ↔ 12 ≤ n.toNat := by
    decide
  rw [← table]
  unfold decodeImm
  split
  case h_1 op named => simp [named]
  case h_2 named => simp [named]

theorem decodeAlu_eq_none_iff (w : Word) : decodeAlu w = none ↔
    (12 ≤ (nib2 w).toNat ∧ (nib2 w).toNat ≤ 14 ∧ nib4 w ≠ 0#4) ∨
      (nib2 w = 0xF#4 ∧ 12 ≤ (nib4 w).toNat) := by
  have bound := (nib2 w).isLt
  have last : nib2 w = 0xF#4 ↔ (nib2 w).toNat = 15 := BitVec.toNat_eq
  rw [last, ← decodeImm_eq_none_iff]
  unfold decodeAlu
  split
  case h_16 =>
    have : (nib2 w).toNat = 15 := by grind
    simp [this]
  all_goals next op => simp [op]

theorem decodeSop_eq_none_iff (w : Word) : decodeSop w = none ↔ nib3 w = 0xF#4 := by
  have table : ∀ n : Nibble, AluOp.ofNibble n = none ↔ n = 0xF#4 := by decide
  rw [← table]
  unfold decodeSop
  split
  case h_1 op named => simp [named]
  case h_2 named => simp [named]

theorem decodeStack_eq_none_iff (w : Word) : decodeStack w = none ↔
    (2 ≤ (nib2 w).toNat ∧ (nib2 w).toNat ≤ 6 ∧ nib3 w ≠ 0#4) ∨ (nib2 w = 7#4 ∧ nib3 w = 0xF#4) ∨
      (8 ≤ (nib2 w).toNat ∧ (nib2 w).toNat ≤ 14) ∨ (nib2 w = 0xF#4 ∧ nib3 w ≠ 0#4) := by
  have bound := (nib2 w).isLt
  have seven : nib2 w = 7#4 ↔ (nib2 w).toNat = 7 := BitVec.toNat_eq
  have last : nib2 w = 0xF#4 ↔ (nib2 w).toNat = 15 := BitVec.toNat_eq
  rw [seven, last, ← decodeSop_eq_none_iff]
  unfold decodeStack
  split
  case h_10 => grind
  all_goals next op => simp [op]

theorem decodeTest_eq_none_iff (w : Word) : decodeTest w = none ↔ (nib2 w).toNat ∈ [6, 7, 14, 15] := by
  have bound := (nib2 w).isLt
  unfold decodeTest
  split
  case h_13 => grind
  all_goals next op => simp [op]

theorem decodeLoadStore_eq_none_iff (w : Word) : decodeLoadStore w = none ↔
    ((nib2 w).toNat ∈ [0, 2, 4, 6, 15] ∧ nib4 w ≠ 0#4) ∨ (8 ≤ (nib2 w).toNat ∧ (nib2 w).toNat ≤ 14) := by
  have bound := (nib2 w).isLt
  unfold decodeLoadStore
  split
  case h_10 => grind
  all_goals next op => simp [op]

/-- Settles O9: the type nibble picks the family, and each family's decoder refuses exactly the words of its row of the
table. -/
theorem illegalWordsExactly : Obligations.IllegalWordsExactly := by
  intro w
  have bound := (nib1 w).isLt
  unfold decodeFirst
  split
  case h_1 type => rw [type]; exact decodeMisc_eq_none_iff w
  case h_2 type => rw [type]; exact decodeAlu_eq_none_iff w
  case h_3 type => rw [type]; exact decodeStack_eq_none_iff w
  case h_4 type => rw [type]; exact decodeTest_eq_none_iff w
  case h_9 type => rw [type]; exact decodeLoadStore_eq_none_iff w
  case h_10 type => rw [type]; simp [imp_iff_not_or]
  case h_15 =>
    obtain type | type : (nib1 w).toNat = 10 ∨ (nib1 w).toNat = 11 := by grind
    all_goals rw [type]; simp
  all_goals next type => rw [type]; simp

/-! ## The length of an instruction (30_encoding.md R84) -/

theorem length_encode (i : Instr) : (encode i).length = if i.twoWords then 2 else 1 := by
  unfold encode
  split <;> rfl

/-- The first word tells whether a second one follows. -/
theorem twoWords_iff_encodeFirst (i : Instr) : i.twoWords = true ↔
    hiByte (encodeFirst i) = 0x1F#8 ∨ hiByte (encodeFirst i) = 0x2F#8 ∨ nib1 (encodeFirst i) = 8#4 := by
  rw [hiByte_eq_iff, hiByte_eq_iff]
  cases i with
  | nop => decide
  | _ => simp [Instr.twoWords, encodeFirst, encodeRR, encodeRI, encodeR3, encodeR4, encodeRRR]

/-- Settles O10: an instruction has the first word it was decoded from, whose nibbles tell its length; and the decoder
takes the data word, if any, from the next two bytes. -/
theorem twoWordInstructionsExactly : Obligations.TwoWordInstructionsExactly := by
  intro w i decoded
  refine ⟨?_, length_encode i, fun bigEndian d rest => ?_⟩
  · rw [twoWords_iff_encodeFirst, encodeFirst_of_decodeFirst decoded]
  · cases words : i.twoWords with
    | false => exact decode_oneWord (rest := bytesOfWords bigEndian [d] ++ rest) decoded words
    | true => exact decode_twoWords decoded words

/-- Settles O6: each word is decoded by evaluation. -/
theorem sampleWordsDecode : Obligations.SampleWordsDecode := by
  unfold Obligations.SampleWordsDecode
  decide

end Sys2Proof
end

section
/-! The step cycle and the whole machine (10_state.md sections 3 to 6, 30_encoding.md section 5, 60_exceptions.md
section 1): what the decoder answers beside what the step does, what every step and every instruction keeps, and the
statements. -/

namespace Sys2Proof.Machine

variable {s t : State} {i : Instr}

/-! ## The bytes at the pc -/

theorem State.bytesFrom_cons (s : State) {a : Nat} (h : a < 4096) :
    s.bytesFrom a = s.byteAt a :: s.bytesFrom (a + 1) := by
  obtain ⟨n, hn⟩ : ∃ n, 4096 - a = n + 1 := ⟨4095 - a, by omega⟩
  have rest : 4096 - (a + 1) = n := by omega
  simp [State.bytesFrom, hn, rest, List.range_succ_eq_map, Function.comp_def, Nat.add_assoc, Nat.add_comm 1]

theorem State.bytesFrom_beyond (s : State) {a : Nat} (h : 4096 ≤ a) : s.bytesFrom a = [] := by
  simp [State.bytesFrom, Nat.sub_eq_zero_of_le h]

/-- The bytes from an address on begin with those of the word at it. -/
theorem State.bytesFrom_word (s : State) {a : Nat} (h : a ≤ 4094) :
    s.bytesFrom a = bytesOfWords s.params.bigEndian [s.wordAt a] ++ s.bytesFrom (a + 2) := by
  rw [State.bytesFrom_cons s (show a < 4096 by omega), State.bytesFrom_cons s (show a + 1 < 4096 by omega)]
  simp [bytesOfWords, State.wordAt]

/-- Where no word can be read, less than two bytes are left. -/
theorem State.bytesFrom_short (s : State) {a : Nat} (h : 4094 < a) :
    s.bytesFrom a = [] ∨ ∃ b, s.bytesFrom a = [b] := by
  by_cases last : a < 4096
  · rw [State.bytesFrom_cons s last, State.bytesFrom_beyond s (show 4096 ≤ a + 1 by omega)]
    exact .inr ⟨_, rfl⟩
  · exact .inl (State.bytesFrom_beyond s (by omega))

/-! ## The decoder on the bytes at the pc -/

/-- The bytes the next step decodes (30_encoding.md R90). -/
abbrev State.decodeHere (s : State) : Decoded := decode s.params.bigEndian (s.bytesFrom (s.reg .pc).toNat)

/-- The first word at the pc. -/
abbrev State.wordHere (s : State) : Word := s.wordAt (s.reg .pc).toNat

theorem decodeHere_beyond (beyond : 4094 < (s.reg .pc).toNat) : s.decodeHere = .noFirstWord := by
  unfold State.decodeHere
  obtain none | ⟨b, one⟩ := s.bytesFrom_short beyond
  · rw [none]; rfl
  · rw [one]; rfl

theorem decodeHere_illegal (fits : (s.reg .pc).toNat ≤ 4094) (illegal : decodeFirst s.wordHere = none) :
    s.decodeHere = .illegal s.wordHere := by
  rw [State.decodeHere, s.bytesFrom_word fits]
  simp [decode, bytesOfWords, illegal]

theorem decodeHere_oneWord (fits : (s.reg .pc).toNat ≤ 4094) (decoded : decodeFirst s.wordHere = some i)
    (single : i.twoWords = false) : s.decodeHere = .instr i (s.bytesFrom ((s.reg .pc).toNat + 2)) := by
  rw [State.decodeHere, s.bytesFrom_word fits]
  exact decode_oneWord decoded single

theorem decodeHere_twoWords (dataFits : (s.reg .pc).toNat + 2 ≤ 4094) (decoded : decodeFirst s.wordHere = some i)
    (double : i.twoWords = true) :
    s.decodeHere = .instr (i.withData (s.wordAt ((s.reg .pc).toNat + 2))) (s.bytesFrom ((s.reg .pc).toNat + 4)) := by
  rw [State.decodeHere, s.bytesFrom_word (by omega), s.bytesFrom_word dataFits, ← List.append_assoc]
  exact decode_twoWords decoded double

theorem decodeHere_noDataWord (fits : (s.reg .pc).toNat ≤ 4094) (dataBeyond : 4094 < (s.reg .pc).toNat + 2)
    (decoded : decodeFirst s.wordHere = some i) (double : i.twoWords = true) :
    s.decodeHere = .noDataWord s.wordHere := by
  rw [State.decodeHere, s.bytesFrom_word fits]
  obtain none | ⟨b, one⟩ := s.bytesFrom_short dataBeyond
  · simp [decode, bytesOfWords, decoded, double, none]
  · simp [decode, bytesOfWords, decoded, double, one]

/-! ## The step beside the decoder -/

/-- The fault a step takes where the bytes at the pc do not decode (60_exceptions.md R280). -/
def State.fetchFault (s : State) : Decoded → Option FaultReport
  | .instr _ _ => none
  | .illegal w => some (.illegalInstruction w)
  | .noFirstWord => some (.addressFault (s.reg .pc))
  | .noDataWord _ => some (.addressFault (s.reg .pc + 2#16))

theorem step_illegal (running : s.status = .running) (fits : (s.reg .pc).toNat ≤ 4094)
    (illegal : decodeFirst s.wordHere = none) : step s = .next (s.raise (.illegalInstruction s.wordHere)) := by
  have fetched : s.fetch = .faulted (.illegalInstruction s.wordHere) := by
    simp [State.fetch, State.readWord_eq_wordAt fits, illegal]
  simp [step, running, fetched]

/-- The state an instruction at the pc executes in: `ir` and `dr` hold its words, `dr` if it has two (log 29). -/
def State.atInstr (s : State) (i : Instr) : State :=
  s.withFetched s.wordHere (if i.twoWords then s.wordAt ((s.reg .pc).toNat + 2) else s.dr)

/-- A running step executes what the bytes at the pc decode to, or takes the fault that says why they do not. -/
theorem step_decodes (running : s.status = .running) :
    (∃ i rest, s.decodeHere = .instr i rest ∧ step s = exec i (s.atInstr i)) ∨
      ∃ f, s.fetchFault s.decodeHere = some f ∧ step s = .next (s.raise f) ∧
        ∀ w, s.decodeHere = .illegal w ∨ s.decodeHere = .noDataWord w → w = s.wordHere := by
  by_cases fits : (s.reg .pc).toNat ≤ 4094
  case neg =>
    have answer := decodeHere_beyond (s := s) (by omega)
    exact .inr ⟨_, by rw [answer]; rfl, step_pcBeyond running (by omega), by simp [answer]⟩
  have next : (s.reg .pc + 2#16).toNat = (s.reg .pc).toNat + 2 := by bv_omega
  cases decoded : decodeFirst s.wordHere with
  | none =>
    have answer := decodeHere_illegal fits decoded
    exact .inr ⟨_, by rw [answer]; rfl, step_illegal running fits decoded, by simp [answer]⟩
  | some first =>
    cases words : first.twoWords with
    | false =>
      refine .inl ⟨_, _, decodeHere_oneWord fits decoded words, ?_⟩
      rw [step_oneWord running fits rfl decoded words, State.atInstr, words]
      rfl
    | true =>
      by_cases dataFits : (s.reg .pc).toNat + 2 ≤ 4094
      · refine .inl ⟨_, _, decodeHere_twoWords dataFits decoded words, ?_⟩
        rw [step_twoWords running fits decoded words (by omega), State.atInstr, Instr.twoWords_withData, words, next]
        rfl
      · have answer := decodeHere_noDataWord fits (by omega) decoded words
        have faulted := step_twoWords_fault running fits decoded words (by omega)
        exact .inr ⟨_, by rw [answer]; rfl, faulted, by simp [answer]⟩

/-- Settles O4: the step beside the decoder, where it answers an instruction. -/
theorem stepRunsDecodedInstruction : Obligations.StepRunsDecodedInstruction := by
  intro s i rest running decoded
  refine ⟨(encodeOfDecode _ _ _ _ decoded).1, ?_⟩
  obtain ⟨i', rest', answer, ran⟩ | ⟨f, fault, -⟩ := step_decodes running
  · cases decoded.symm.trans answer
    exact ran
  · rw [State.decodeHere, decoded] at fault
    cases fault

/-- Settles O5: the step beside the decoder, where it answers no instruction. -/
theorem fetchFaults : Obligations.FetchFaults := by
  intro s running
  obtain ⟨i, rest, answer, -⟩ | ⟨f, fault, ran, word⟩ := step_decodes running
  · rw [show decode s.params.bigEndian (s.bytesFrom (s.reg .pc).toNat) = .instr i rest from answer]
    trivial
  · have taken : ∃ t, step s = .next t ∧ FaultTaken s t f := ⟨_, ran, faultTaken_raise s f⟩
    unfold State.decodeHere at fault word
    generalize decode s.params.bigEndian (s.bytesFrom (s.reg .pc).toNat) = answer at fault word
    cases answer with
    | instr => trivial
    | noFirstWord => cases fault; exact taken
    | illegal w => cases fault; exact ⟨word w (.inl rfl), taken⟩
    | noDataWord w => cases fault; exact ⟨word w (.inr rfl), taken⟩

/-! ## Everything a step can do -/

/-- A step has a state before it in status `Running`. -/
theorem running_of_step (stepped : step s = .next t) : s.status = .running := by
  unfold step at stepped
  split at stepped
  case h_1 => cases stepped
  case h_2 => cases stepped
  case h_3 running => exact running

/-- Everything a step can do: a fault, or an instruction whose class says what it keeps of the state it executes in. -/
theorem step_cases (stepped : step s = .next t) : s.status = .running ∧
    ((∃ f, FaultTaken s t f) ∨ ∃ i rest, s.decodeHere = .instr i rest ∧ Kept i (s.atInstr i) t) := by
  have running := running_of_step stepped
  refine ⟨running, ?_⟩
  obtain ⟨i, rest, answer, ran⟩ | ⟨f, -, ran, -⟩ := step_decodes running
  · obtain ⟨f, rfl, -⟩ | kept := exec_summary (ran.symm.trans stepped)
    · exact .inl ⟨f, faultTaken_raise (s.atInstr i) f⟩
    · exact .inr ⟨i, rest, answer, kept⟩
  · cases ran.symm.trans stepped
    exact .inl ⟨f, faultTaken_raise s f⟩

/-- The status a fault leaves. -/
theorem FaultTaken.status {f : FaultReport} (taken : FaultTaken s t f) : t.status = .errored f := by
  obtain ⟨-, -, -, outside, -⟩ := taken
  exact congrArg Outside.status outside

theorem FaultTaken.frameBuffer {f : FaultReport} (taken : FaultTaken s t f) : t.frameBuffer = s.frameBuffer := by
  obtain ⟨-, -, -, outside, -⟩ := taken
  exact congrArg Outside.frameBuffer outside

theorem FaultTaken.screen {f : FaultReport} (taken : FaultTaken s t f) : t.screen = s.screen := by
  obtain ⟨-, -, -, outside, -⟩ := taken
  exact congrArg Outside.screen outside

/-- An instruction that completes leaves the run running or halts it. -/
theorem Kept.not_errored (running : s.status = .running) (kept : Kept i s t) : t.status.isErrored = false := by
  obtain same | ⟨-, halted⟩ := kept.status
  · rw [same, running]; rfl
  · rw [halted]; rfl

/-! ## The rules of the whole machine -/

/-- Settles O3: the arrays are empty and the run is running. -/
theorem resetMeetsInvariant : Obligations.ResetMeetsInvariant := ⟨rfl, rfl, rfl, rfl⟩

theorem FaultTaken.inv {f : FaultReport} (taken : FaultTaken s t f) (inv : s.Inv) : t.Inv := by
  obtain ⟨mem, frame, screen, -⟩ := inv
  have status := taken.status
  obtain ⟨-, sameMem, flags, -⟩ := id taken
  refine ⟨sameMem ▸ mem, taken.frameBuffer ▸ frame, taken.screen ▸ screen, ?_⟩
  rw [flags, status]
  rfl

theorem Kept.inv (running : s.status = .running) (kept : Kept i s t) (inv : s.Inv) : t.Inv := by
  obtain ⟨mem, frame, screen, error⟩ := inv
  refine ⟨kept.wf mem, kept.frame frame, kept.screen frame screen, ?_⟩
  rw [kept.error, error, running, kept.not_errored running]
  rfl

/-- Settles O11: a fault changes no array and sets the error bit with the status; an instruction that completes keeps
the canonical forms and the error bit, and leaves the run running or halted. -/
theorem stepKeepsInvariant : Obligations.StepKeepsInvariant := by
  intro s t inv stepped
  obtain ⟨running, ⟨f, taken⟩ | ⟨i, rest, -, kept⟩⟩ := step_cases stepped
  · exact taken.inv inv
  · exact kept.inv (s := s.atInstr i) running inv

/-- Settles O12: only a fault ends a step in `Errored`, and it is taken from the state before the step. -/
theorem faultsArePrecise : Obligations.FaultsArePrecise := by
  intro s t f stepped errored
  obtain ⟨running, ⟨g, taken⟩ | ⟨i, rest, -, kept⟩⟩ := step_cases stepped
  · cases errored.symm.trans taken.status
    exact taken
  · have completed := kept.not_errored (s := s.atInstr i) running
    rw [errored] at completed
    cases completed

/-- Settles O13: a running step decodes an instruction, which always has a next state, or takes a fault, which
is one. -/
theorem stepExistsExactlyWhileRunning : Obligations.StepExistsExactlyWhileRunning := by
  refine fun s => ⟨fun running => ?_, fun halted => ?_, fun f errored => ?_⟩
  · obtain ⟨i, rest, -, ran⟩ | ⟨f, -, ran, -⟩ := step_decodes running
    · rw [ran]; exact exec_next i _
    · exact ⟨_, ran⟩
  · simp [step, halted]
  · simp [step, errored]

/-- Settles O15: a fault and an instruction alike leave the launch constants. -/
theorem launchConstantsNeverChange : Obligations.LaunchConstantsNeverChange := by
  intro s t stepped
  obtain ⟨-, ⟨f, -, -, -, -, cb, db, params⟩ | ⟨i, rest, -, kept⟩⟩ := step_cases stepped
  · exact ⟨cb, db, params⟩
  · obtain ⟨-, -, cb, db, params⟩ := kept.hidden
    exact ⟨cb, db, params⟩

/-! ## The end of a run -/

theorem step_haltWord (running : s.status = .running) (fits : (s.reg .pc).toNat ≤ 4094)
    (word : s.wordHere = 0x0000#16) : step s = .next (svcHalt ((s.withFetched 0x0000#16 s.dr).advance oneWord)) :=
  step_oneWord running fits word (i := .sys 0x00#8) rfl rfl

/-- An instruction decoded at the pc has its first word there. -/
theorem wordHere_of_decodeHere {rest : List Byte} (decoded : s.decodeHere = .instr i rest) :
    (s.reg .pc).toNat ≤ 4094 ∧ s.wordHere = encodeFirst i := by
  by_cases fits : (s.reg .pc).toNat ≤ 4094
  case neg => rw [decodeHere_beyond (by omega)] at decoded; cases decoded
  have bytes := (encodeOfDecode _ _ _ _ decoded).2
  obtain ⟨tail, begins⟩ : ∃ tail, encode i = encodeFirst i :: tail := by
    unfold encode
    split <;> exact ⟨_, rfl⟩
  rw [s.bytesFrom_word fits, begins] at bytes
  simp only [bytesOfWords, List.cons_append, List.cons.injEq] at bytes
  obtain ⟨first, second, -⟩ := bytes
  rw [← wordOfBytes_bytes s.params.bigEndian s.wordHere, first, second, wordOfBytes_bytes]
  exact ⟨fits, rfl⟩

theorem Flags.eq_of_bits {f g : Flags} (test : f.test = g.test) (overflow : f.overflow = g.overflow)
    (nan : f.nan = g.nan) (error : f.error = g.error) : f = g := by
  cases f
  cases g
  rw [Flags.mk.injEq]
  exact ⟨test, overflow, nan, error⟩

/-- The flags `sys` leaves when its service completes. -/
theorem Kept.flags_of_sys {code : BitVec 8} (kept : Kept (.sys code) s t) : t.flags = s.flags :=
  Flags.eq_of_bits (kept.test rfl rfl rfl) (kept.overflow rfl rfl) (kept.nan rfl) kept.error

/-- Settles O14: of the instructions that complete, `sys halt` alone leaves the status `Halted`, and its word is
0x0000. -/
theorem onlyHaltHalts : Obligations.OnlyHaltHalts := by
  intro s t stepped
  have running := running_of_step stepped
  have halts : t.status = .halted →
      ((s.reg .pc).toNat ≤ 4094 ∧ s.wordHere = 0x0000#16) ∧ t.flags = s.flags := by
    intro halted
    obtain ⟨-, ⟨f, taken⟩ | ⟨i, rest, decoded, kept⟩⟩ := step_cases stepped
    · cases halted.symm.trans taken.status
    · obtain same | ⟨rfl, -⟩ := kept.status
      · cases halted.symm.trans (same.trans running)
      · exact ⟨wordHere_of_decodeHere decoded, kept.flags_of_sys⟩
  refine ⟨⟨fun halted => (halts halted).1, fun ⟨fits, word⟩ => ?_⟩, fun halted => (halts halted).2⟩
  cases (step_haltWord running fits word).symm.trans stepped
  rfl

/-! ## What a single instruction reaches -/

/-- Settles O16: an instruction that completes leaves the outside alone unless it is `sys`, and its faults add no
console item. -/
theorem onlySysReachesDevices : Obligations.OnlySysReachesDevices := by
  intro i s t notSys done
  obtain ⟨f, rfl, cause⟩ | kept := exec_summary done
  · refine .inr ⟨f, ?_, cause notSys⟩
    obtain ⟨a, rfl⟩ | ⟨-, rfl⟩ := cause notSys <;> simp [State.outside, FaultReport.consoleItems]
  · exact .inl (kept.outside notSys)

/-- Settles O17: a fault changes no memory, and what completes keeps memory by its class. -/
theorem onlyStoresWriteMemory : Obligations.OnlyStoresWriteMemory := by
  intro i s t done
  obtain ⟨f, rfl, -⟩ | kept := exec_summary done
  · exact ⟨fun _ => rfl, fun _ _ _ _ => rfl⟩
  · exact ⟨kept.mem, kept.memSys⟩

/-- Settles O18: a fault sets the error bit alone, and what completes keeps the flags by its class. -/
theorem flagWriters : Obligations.FlagWriters := by
  intro i s t done
  obtain ⟨f, rfl, -⟩ | kept := exec_summary done
  · exact ⟨fun _ _ _ => rfl, fun _ _ => rfl, fun _ => rfl, .inr ⟨rfl, rfl⟩⟩
  · exact ⟨kept.test, kept.overflow, kept.nan, .inl kept.error⟩

end Sys2Proof.Machine
end

section
/-! Launch (70_reset_and_hazards.md section 1): the state of any launch parameters, the bytes an image leaves in memory,
and the statements. -/

namespace Sys2Proof.Machine

variable {m : List Host.Cell} {a : Nat} {bytes : List Byte}

/-! ## The state at launch -/

/-- A launch that is not refused: the parameters, and what the spec fixes itself. -/
theorem launch_cases {l : LaunchParams} {s : State} (launched : launch l = some s) :
    ∃ m, placeImage [] l.image = some m ∧
      s = { regs := l.regs, flags := { test := false, overflow := false, nan := false, error := false }, ir := l.ir,
            dr := l.dr, cb := l.cb, db := l.db, mem := m, frameBuffer := l.frame, screen := l.frame,
            status := .running, console := [], fileEffects := [], draws := 0, params := l.params } := by
  unfold launch at launched
  split at launched
  case h_1 => cases launched
  case h_2 m placed => exact ⟨m, placed, (Option.some.inj launched).symm⟩

/-- Settles O1: every value but memory is the parameter's or the spec's. -/
theorem launchStateValues : Obligations.LaunchStateValues := by
  refine ⟨fun l s launched => ?_, rfl, rfl, rfl, rfl, fun _ => rfl⟩
  obtain ⟨m, -, rfl⟩ := launch_cases launched
  exact ⟨rfl, rfl, rfl, rfl, rfl, rfl, rfl, rfl⟩

/-! ## The bytes of an image -/

/-- Placing bytes keeps memory canonical. -/
theorem wf_placeBytes (wf : Memory.wf m = true) (fits : a + bytes.length ≤ 4096) :
    Memory.wf (placeBytes m a bytes) = true := by
  induction bytes generalizing m a with
  | nil => exact wf
  | cons b rest ih =>
    rw [List.length_cons] at fits
    exact ih (Sparse.wf_write wf (show a < 4096 by omega)) (by omega)

/-- What memory holds once bytes are placed: the bytes from their address on, elsewhere what it held. -/
theorem read_placeBytes (wf : Memory.wf m = true) (fits : a + bytes.length ≤ 4096) (k : Nat) :
    Sparse.read (placeBytes m a bytes) k =
      if a ≤ k then (bytes[k - a]?).getD (Sparse.read m k) else Sparse.read m k := by
  induction bytes generalizing m a with
  | nil => simp [placeBytes]
  | cons b rest ih =>
    rw [List.length_cons] at fits
    rw [placeBytes, ih (Sparse.wf_write wf (show a < 4096 by omega)) (by omega), Sparse.read_write_of_wf wf]
    obtain below | rfl | above : k < a ∨ k = a ∨ a < k := Nat.lt_trichotomy k a
    · simp [show ¬ a + 1 ≤ k by omega, show ¬ a ≤ k by omega, show k ≠ a by omega]
    · simp [show ¬ k + 1 ≤ k by omega]
    · obtain ⟨n, hn⟩ : ∃ n, k - a = n + 1 := ⟨k - a - 1, by omega⟩
      simp [show a + 1 ≤ k by omega, show a ≤ k by omega, show k ≠ a by omega, hn,
        show k - (a + 1) = n by omega]

/-! ## The default layout of a program -/

theorem placeImage_ofProgram (code data : List Byte) :
    placeImage [] (LaunchParams.ofProgram code data).image =
      if code.length + data.length ≤ 4096 then some (placeBytes [] 0 (code ++ data)) else none := by
  simp [LaunchParams.ofProgram, placeImage, memSize]

/-- A length that fits memory is a word. -/
theorem toNat_ofNat_of_fits {n : Nat} (fits : n ≤ 4096) : (BitVec.ofNat 16 n).toNat = n :=
  Nat.mod_eq_of_lt (by omega)

/-- Settles O2: the image of a program is one run of bytes from address 0 on, so it fits exactly if its length does, and
the rest of memory is the empty array's 0. -/
theorem launchPlacesProgram : Obligations.LaunchPlacesProgram := by
  intro code data
  have placed := placeImage_ofProgram code data
  refine ⟨fun fits => ?_, fun tooLong => ?_⟩
  · rw [if_pos fits] at placed
    have inMemory : 0 + (code ++ data).length ≤ 4096 := by simpa using fits
    refine ⟨_, by rw [launch, placed], wf_placeBytes rfl inMemory, fun a => ?_, rfl, ?_, ?_, ?_⟩
    · rw [State.byteAt, read_placeBytes rfl inMemory]
      simp [Sparse.read]
    · exact toNat_ofNat_of_fits (by omega)
    · exact toNat_ofNat_of_fits fits
    · exact toNat_ofNat_of_fits fits
  · rw [if_neg (by omega)] at placed
    rw [launch, placed]

end Sys2Proof.Machine
end

section
/-! Memory (20_memory.md sections 1 and 5): reads after writes, the byte order of a word, a store seen by the next
fetch, and the statements. -/

namespace Sys2Proof.Machine

variable {s t : State} {addr v : Word}

/-! ## A word and a byte read back -/

/-- The bytes of a word just written. -/
theorem State.byteAt_setWord_first (wf : Memory.wf s.mem = true) {a : Nat} (h : a ≤ 4094) (v : Word) :
    (s.setWord a v).byteAt a = firstByte s.params.bigEndian v := by
  simp [State.byteAt_setWord wf h]

theorem State.byteAt_setWord_second (wf : Memory.wf s.mem = true) {a : Nat} (h : a ≤ 4094) (v : Word) :
    (s.setWord a v).byteAt (a + 1) = secondByte s.params.bigEndian v := by
  simp [State.byteAt_setWord wf h]

theorem State.byteAt_setWord_ne (wf : Memory.wf s.mem = true) {a b : Nat} (h : a ≤ 4094) (v : Word) (first : b ≠ a)
    (second : b ≠ a + 1) : (s.setWord a v).byteAt b = s.byteAt b := by
  simp [State.byteAt_setWord wf h, first, second]

theorem State.wordAt_setWord_same (wf : Memory.wf s.mem = true) {a : Nat} (h : a ≤ 4094) (v : Word) :
    (s.setWord a v).wordAt a = v := by
  rw [State.wordAt, State.byteAt_setWord_first wf h, State.byteAt_setWord_second wf h]
  exact wordOfBytes_bytes _ v

/-- A word apart from the one written keeps its value. -/
theorem State.wordAt_setWord_apart (wf : Memory.wf s.mem = true) {a b : Nat} (h : a ≤ 4094) (v : Word)
    (apart : b + 1 < a ∨ a + 1 < b) : (s.setWord a v).wordAt b = s.wordAt b := by
  rw [State.wordAt, State.byteAt_setWord_ne wf h v (by omega) (by omega),
    State.byteAt_setWord_ne wf h v (by omega) (by omega)]
  rfl

theorem loByte_eq_setWidth (v : Word) : loByte v = v.setWidth 8 := (BitVec.setWidth_eq_extractLsb' (by decide)).symm

/-- Settles O19: the four accesses, in range and out of it. -/
theorem memoryReadAfterWrite : Obligations.MemoryReadAfterWrite := by
  intro s addr v wf
  refine ⟨fun fits => ?_, fun fits => ?_, fun beyond => ?_, fun beyond => ?_⟩
  · refine ⟨_, State.writeWord_ok fits, ?_, State.wf_setWord wf fits v,
      fun a first second => State.byteAt_setWord_ne wf fits v first second, rfl⟩
    rw [State.readWord_eq_wordAt fits, State.wordAt_setWord_same wf fits]
  · have inMemory : addr.toNat < 4096 := by omega
    refine ⟨_, State.writeByte_ok inMemory, ?_, State.wf_setByte wf inMemory _, fun a other => ?_, rfl⟩
    · rw [State.readByte_ok inMemory, State.byteAt_setByte wf, if_pos rfl, loByte_eq_setWidth]
    · rw [State.byteAt_setByte wf, if_neg other]
  · exact ⟨State.readWord_error beyond, State.writeWord_error beyond⟩
  · exact ⟨State.readByte_error beyond, State.writeByte_error beyond⟩

/-! ## The byte order -/

/-- The word that overlaps a written word in its second byte. -/
theorem State.readWord_after_setWord (wf : Memory.wf s.mem = true) (fits : addr.toNat ≤ 4093) (v : Word) :
    (s.setWord addr.toNat v).readWord (addr + 1#16) =
      .ok (wordOfBytes s.params.bigEndian (secondByte s.params.bigEndian v) (s.byteAt (addr.toNat + 2))) := by
  have next : (addr + 1#16).toNat = addr.toNat + 1 := by bv_omega
  rw [State.readWord_ok (by omega), next, State.byteAt_setWord_second wf (by omega),
    State.byteAt_setWord_ne wf (by omega) v (by omega) (by omega)]
  rfl

/-- Settles O20: the two bytes a word write leaves, by the byte order, and the word that begins at the second. -/
theorem byteOrderOfWords : Obligations.ByteOrderOfWords := by
  intro s t addr v wf written
  obtain ⟨fits, rfl⟩ := State.writeWord_cases written
  have first := State.byteAt_setWord_first wf fits v
  have second := State.byteAt_setWord_second wf fits v
  have overlap := fun fits => State.readWord_after_setWord (s := s) (addr := addr) wf fits v
  have readFirst : (s.setWord addr.toNat v).readByte addr = .ok (firstByte s.params.bigEndian v) :=
    first ▸ State.readByte_ok (by omega)
  refine ⟨fun order => ?_, fun order => ?_⟩
  all_goals
    rw [order] at second overlap readFirst
    exact ⟨readFirst, second, overlap⟩

/-! ## A store seen by the next fetch -/

theorem exec_sw (r : Reg) (addr : Word) (s : State) :
    exec (.sw r addr) s = finish s ((s.advance twoWord).writeWord addr (s.operand 4 r)) := by
  rw [← State.reg_advance_operand]
  rfl

/-- Settles O21: the `sw` leaves the word of the instruction where its own advance puts the pc. -/
theorem storeIsSeenByNextFetch : Obligations.StoreIsSeenByNextFetch := by
  intro s r i wf running notPc fits decoded single
  have stored := exec_sw r (s.reg .pc + 4#16) s
  rw [State.operand_ne s 4 notPc, State.writeWord_ok fits, finish_ok] at stored
  have here : ((s.advance twoWord).setWord (s.reg .pc + 4#16).toNat (s.reg r)).reg .pc = s.reg .pc + 4#16 := by
    rw [State.reg_setWord, State.reg_advance_operand, State.operand_pc]
    rfl
  refine ⟨_, stored, here, step_oneWord running (here ▸ fits) ?_ decoded single⟩
  rw [here]
  exact State.wordAt_setWord_same (s := s.advance twoWord) wf fits (s.reg r)

end Sys2Proof.Machine
end

section
/-! MISC and TEST (40_misc.md, 43_test.md): the effect of an instruction that writes one register or one comparison's
outcome, and the statements. -/

namespace Sys2Proof.Machine

variable {s : State} {i : Instr}

/-! ## Effects of shared shapes -/

/-- One register written after the advance is the whole effect. -/
theorem moves_of_setReg {n : Word} {r : Reg} {v : Word} (done : exec i s = .next ((s.advance n).setReg r v)) :
    Moves i s n [(r, v)] [] :=
  ⟨_, done, regsBecome_setReg rfl, bytesBecome_refl rfl, rfl, rfl, rfl, rfl, rfl, rfl, rfl, rfl⟩

theorem exec_mov (r q : Reg) (s : State) :
    exec (.mov r q) s = .next ((s.advance oneWord).setReg r (s.operand 2 q)) := by
  rw [← State.reg_advance_operand]
  rfl

theorem exec_seti (r : Reg) (v : Nibble) (s : State) :
    exec (.seti r v) s = .next ((s.advance oneWord).setReg r (BitVec.ofNat 16 v.toNat)) := by
  rw [← u16_natCast, ← sint_imm4, u16_sint]
  rfl

/-- Settles O22: one register write each, with the operand read after the advance. -/
theorem movAndSetiResults : Obligations.MovAndSetiResults :=
  fun s r q v => ⟨moves_of_setReg (exec_mov r q s), moves_of_setReg (exec_seti r v s)⟩

/-! ## `inc` and `dec` -/

theorem u16_add_nibble (a : Word) (v : Nibble) : u16 (sint a + v.toNat) = a + imm4 v := by
  rw [← sint_imm4, u16_add]

theorem u16_sub_nibble (a : Word) (v : Nibble) : u16 (sint a - v.toNat) = a - imm4 v := by
  rw [← sint_imm4, u16_sub]

/-- The state `inc` and `dec` leave, told from the exact result. -/
def State.incDec (s : State) (r : Reg) (result : Int) : State :=
  ((s.advance oneWord).setReg r (u16 result)).writeIncDecFlags (u16 result) result

theorem completes_of_incDec {r : Reg} {result : Int} (done : exec i s = .next (s.incDec r result)) :
    Completes i s 2 [(r, u16 result)] []
      { s.flags with
        overflow := decide (¬ fits16 result)
        test := if s.params.incDecWriteTest then decide (u16 result ≠ 0) else s.flags.test } s.outside 0 := by
  refine ⟨_, done, regsBecome_setReg rfl, bytesBecome_refl rfl, ?_, rfl, rfl, rfl, rfl, rfl, rfl, rfl⟩
  rw [← outOfRange16_eq]
  rfl

theorem exec_inc (r : Reg) (v : Nibble) (s : State) :
    exec (.inc r v) s = .next (s.incDec r (sint (s.operand 2 r) + v.toNat)) := by
  rw [State.incDec, u16_add_nibble, ← State.reg_advance_operand]
  rfl

theorem exec_dec (r : Reg) (v : Nibble) (s : State) :
    exec (.dec r v) s = .next (s.incDec r (sint (s.operand 2 r) - v.toNat)) := by
  rw [State.incDec, u16_sub_nibble, ← State.reg_advance_operand]
  rfl

/-- Settles O24: both write the exact result modulo 65536 and the flags that go with it. -/
theorem incAndDecResults : Obligations.IncAndDecResults :=
  fun s r v => ⟨completes_of_incDec (exec_inc r v s), completes_of_incDec (exec_dec r v s)⟩

/-! ## Comparisons -/

/-- The test bit written after the advance is the whole effect. -/
theorem tests_of_writeTest {outcome : Bool} (done : exec i s = .next ((s.advance oneWord).writeTest outcome)) :
    Tests i s outcome :=
  ⟨_, done, regsBecome_advance rfl, bytesBecome_refl rfl, rfl, rfl, rfl, rfl, rfl, rfl, rfl, rfl⟩

theorem tests_of_testRegister {rel : Word → Word → Bool} {r q : Reg} {outcome : Bool}
    (done : exec i s = testRegister rel r q s) (means : rel (s.operand 2 r) (s.operand 2 q) = outcome) :
    Tests i s outcome := by
  refine tests_of_writeTest (done.trans ?_)
  rw [← means, ← State.reg_advance_operand, ← State.reg_advance_operand]
  rfl

theorem tests_of_testImmediate {rel : Word → Word → Bool} {r : Reg} {v : Nibble} {outcome : Bool}
    (done : exec i s = testImmediate rel r v s) (means : rel (s.operand 2 r) (imm4 v) = outcome) :
    Tests i s outcome := by
  refine tests_of_writeTest (done.trans ?_)
  rw [← means, ← State.reg_advance_operand]
  rfl

theorem sint_eq_iff {a b : Word} : sint a = sint b ↔ a = b := ⟨sint_injective, congrArg sint⟩

/-- Words are equal exactly if their signed readings are. -/
theorem relEq_eq (a b : Word) : relEq a b = decide (sint a = sint b) := by simp [relEq, sint_eq_iff]

theorem relNeq_eq (a b : Word) : relNeq a b = decide (sint a ≠ sint b) := by simp [relNeq, sint_eq_iff]

/-- Settles O39: each comparison writes its relation of the signed readings into the test bit. -/
theorem compareRegisters : Obligations.CompareRegisters :=
  fun _ _ _ => ⟨tests_of_testRegister rfl (relEq_eq _ _), tests_of_testRegister rfl (relNeq_eq _ _),
    tests_of_testRegister rfl rfl, tests_of_testRegister rfl rfl, tests_of_testRegister rfl rfl,
    tests_of_testRegister rfl rfl⟩

/-- Settles O40: as the register comparisons, with a right side whose signed reading is the immediate's value. -/
theorem compareImmediates : Obligations.CompareImmediates := by
  intro s r v a b
  have value : b = sint (imm4 v) := (sint_imm4 v).symm
  rw [value]
  exact ⟨tests_of_testImmediate rfl (relEq_eq _ _), tests_of_testImmediate rfl (relNeq_eq _ _),
    tests_of_testImmediate rfl rfl, tests_of_testImmediate rfl rfl, tests_of_testImmediate rfl rfl,
    tests_of_testImmediate rfl rfl⟩

end Sys2Proof.Machine
end

section
/-! The ALU instructions (41_alu.md): the model's `AluOp` is the table of R121 in the integers, the effect of an ALU
instruction in a register, and the statements. -/

namespace Sys2Proof.Machine

variable {s t : State} {i : Instr} {op : AluOp} {a b : Word}

/-! ## The rows of the table -/

/-- A right shift of the bits divides the unsigned reading. -/
theorem ushiftRight_eq_u16 (a : Word) (n : Nat) : a >>> n = u16 (a.toNat / 2 ^ n) := by
  rw [show ((a.toNat : Int) / 2 ^ n) = ((a.toNat / 2 ^ n : Nat) : Int) by push_cast; rfl, u16_natCast]
  apply BitVec.eq_of_toNat_eq
  rw [BitVec.toNat_ushiftRight, Nat.shiftRight_eq_div_pow, BitVec.toNat_ofNat]
  exact (Nat.mod_eq_of_lt ((Nat.div_le_self _ _).trans_lt a.isLt)).symm

/-- An arithmetic right shift divides the signed reading, rounding down. -/
theorem sshiftRight_eq_u16 (a : Word) (n : Nat) : a.sshiftRight n = u16 (sint a / 2 ^ n) := by
  rw [← u16_sint (a.sshiftRight n), sint, BitVec.toInt_sshiftRight, Int.shiftRight_eq_div_pow]
  push_cast
  rfl

theorem shiftLeft_eq_u16 (a : Word) (n : Nat) : a <<< n = u16 (a.toNat * 2 ^ n) := by
  rw [show ((a.toNat : Int) * 2 ^ n) = ((a.toNat * 2 ^ n : Nat) : Int) by push_cast; rfl, u16_natCast]
  apply BitVec.eq_of_toNat_eq
  rw [BitVec.toNat_shiftLeft, Nat.shiftLeft_eq, BitVec.toNat_ofNat]

theorem msb_eq_sint (a : Word) : a.msb = decide (sint a < 0) := BitVec.msb_eq_toInt

theorem complement_eq_u16 (a : Word) : ~~~a = u16 (-1 - sint a) := by
  have split : -1 - sint a = -sint a + -1 := by omega
  rw [BitVec.not_eq_neg_add, split, u16, BitVec.ofInt_add, ← u16, u16_neg, BitVec.sub_eq_add_neg]
  rfl

theorem u16_min (a b : Word) : u16 (min (sint a) (sint b)) = if sint a ≤ sint b then a else b := by
  rw [min_def]
  split <;> exact u16_sint _

theorem u16_max (a b : Word) : u16 (max (sint a) (sint b)) = if sint a ≥ sint b then a else b := by
  rw [max_comm, max_def]
  split <;> exact u16_sint _

/-- The model's `AluOp` is the table's row, but for a division by zero. -/
theorem aluOp_eq_table (p : Params) (div0 : Word) (op : AluOp) (a b : Word) (divisor : op.divides = true → b ≠ 0) :
    aluOp p div0 op a b = { res := (aluTable p op a b).1, ovf := (aluTable p op a b).2, nan := false } := by
  cases op with
  | add => simp [aluOp, aluTable, aluAdd, u16_add, outOfRange16_eq]
  | sub => simp [aluOp, aluTable, aluSub, u16_sub, outOfRange16_eq]
  | mul => simp [aluOp, aluTable, aluMul, outOfRange16_eq]
  | div =>
    have nonzero : ¬ b = 0#16 := divisor rfl
    simp [aluOp, aluTable, aluDiv, nonzero, outOfRange16_eq]
  | mod =>
    have nonzero : ¬ b = 0#16 := divisor rfl
    simp [aluOp, aluTable, aluMod, plainResult, nonzero, Int.tmod_def]
  | and | or | xor => rfl
  | shl => simp [aluOp, aluTable, aluShl, plainResult, shiftLeft_eq_u16]
  | shr => simp [aluOp, aluTable, aluShr, plainResult, ushiftRight_eq_u16, sshiftRight_eq_u16, msb_eq_sint]
  | min => simp [aluOp, aluTable, aluMin, plainResult, u16_min]
  | max => simp [aluOp, aluTable, aluMax, plainResult, u16_max]
  | not => simp [aluOp, aluTable, plainResult, ← complement_eq_u16, ← BitVec.xor_allOnes, BitVec.allOnes]
  | lnot => rfl
  | neg =>
    have value : u16 (0 - sint a) = 0 - a := u16_sub 0 a
    simp only [aluOp, aluTable, aluNeg, value]

/-- A division by zero leaves the draw, with nan. -/
theorem aluOp_byZero (p : Params) (div0 a : Word) (divides : op.divides = true) :
    aluOp p div0 op a 0 = { res := div0, ovf := false, nan := true } := by
  cases op <;> first | rfl | cases divides

/-- The model's `AluOp` with the machine's parameters and its draw. -/
theorem State.alu_eq_table (s : State) (a : Word) (divisor : op.divides = true → b ≠ 0) :
    s.alu op a b = { res := (aluTable s.params op a b).1, ovf := (aluTable s.params op a b).2, nan := false } :=
  aluOp_eq_table _ _ _ _ _ divisor

theorem State.alu_byZero (s : State) (a : Word) (divides : op.divides = true) (zero : b = 0) :
    s.alu op a b = { res := Config.div0Result s.draws a, ovf := false, nan := true } :=
  zero ▸ aluOp_byZero _ _ _ divides

/-! ## The effect of an ALU instruction in a register -/

/-- The flags of an ALU result, and the draw of a division by zero, written last complete an effect. -/
theorem completes_of_writeAluFlags {u : State} {n : Word} {result : AluResult} {regs : List (Reg × Word)}
    {bytes : List (Nat × Byte)} (done : exec i s = .next (u.writeAluFlags result)) (registers : RegsBecome s u n regs)
    (stored : BytesBecome s u bytes) (kept : Local s u) (draws : u.draws = s.draws) :
    Completes i s n regs bytes (s.aluFlags result.res result.ovf result.nan) s.outside
      (if result.nan then 1 else 0) := by
  refine ⟨_, done, registers, stored, ?_, kept.outside, ?_, kept.hidden⟩
  · simp [State.writeAluFlags, State.aluFlags, kept.error]
  · cases nan : result.nan <;> simp [nan, draws]

/-- The state an ALU instruction of `n` bytes leaves, told from its result. -/
def State.computed (s : State) (n : Word) (r : Reg) (result : AluResult) : State :=
  ((s.advance n).setReg r result.res).writeAluFlags result

/-- The register, the three flags and the draw of a division by zero are the whole effect. -/
theorem completes_of_computed {n : Word} {r : Reg} {result : AluResult}
    (done : exec i s = .next (s.computed n r result)) :
    Completes i s n [(r, result.res)] [] (s.aluFlags result.res result.ovf result.nan) s.outside
      (if result.nan then 1 else 0) :=
  completes_of_writeAluFlags done (regsBecome_setReg rfl) (bytesBecome_refl rfl)
    ((Local.advance s n).trans (Local.setReg _ r _)) rfl

section
variable {n : Word} {r : Reg} (done : exec i s = .next (s.computed n r (s.alu op a b)))
include done

theorem computes_of_table (divisor : op.divides = true → b ≠ 0) :
    Computes i s n r (aluTable s.params op a b).1 (aluTable s.params op a b).2 := by
  rw [s.alu_eq_table a divisor] at done
  exact completes_of_computed done

theorem completes_byZero (divides : op.divides = true) (zero : b = 0) :
    ∃ v, Completes i s n [(r, v)] [] (s.aluFlags v false true) s.outside 1 := by
  rw [s.alu_byZero a divides zero] at done
  exact ⟨_, completes_of_computed done⟩
end

theorem aluBinary_eq (op : AluOp) (r q : Reg) (s : State) :
    aluBinary op r q s = .next (s.computed oneWord r (s.alu op (s.operand 2 r) (s.operand 2 q))) := by
  rw [← State.reg_advance_operand, ← State.reg_advance_operand]
  rfl

theorem aluUnary_eq (op : AluOp) (r : Reg) (s : State) :
    aluUnary op r s = .next (s.computed oneWord r (s.alu op (s.operand 2 r) 0)) := by
  rw [← State.reg_advance_operand]
  rfl

/-- A binary register form whose operation does not divide by zero. -/
theorem computes_binary {r q : Reg} (means : exec i s = aluBinary op r q s)
    (divisor : op.divides = true → s.operand 2 q ≠ 0) :
    Computes i s 2 r (aluTable s.params op (s.operand 2 r) (s.operand 2 q)).1
      (aluTable s.params op (s.operand 2 r) (s.operand 2 q)).2 :=
  computes_of_table (means.trans (aluBinary_eq op r q s)) divisor

/-- A unary register form; no unary operation divides. -/
theorem computes_unary {r : Reg} (means : exec i s = aluUnary op r s) (whole : op.divides = false) :
    Computes i s 2 r (aluTable s.params op (s.operand 2 r) 0).1 (aluTable s.params op (s.operand 2 r) 0).2 :=
  computes_of_table (means.trans (aluUnary_eq op r s)) (by simp [whole])

/-- Settles O25: the rows of the table. -/
theorem addSubMulResults : Obligations.AddSubMulResults :=
  fun _ _ _ => ⟨computes_binary (op := .add) rfl nofun, computes_binary (op := .sub) rfl nofun,
    computes_binary (op := .mul) rfl nofun⟩

/-! ## Division -/

/-- Of the quotients of words, only that of -32768 by -1 lies outside the signed range. -/
theorem not_fits16_tdiv_iff (divisor : b ≠ 0) :
    ¬ fits16 ((sint a).tdiv (sint b)) ↔ a = 0x8000#16 ∧ b = 0xFFFF#16 := by
  constructor
  case mpr =>
    rintro ⟨rfl, rfl⟩
    decide
  intro outside
  have dividendRange := sint_range a
  have size : ((sint a).tdiv (sint b)).natAbs = (sint a).natAbs / (sint b).natAbs := Int.natAbs_tdiv _ _
  have bound : (sint a).natAbs / (sint b).natAbs ≤ (sint a).natAbs := Nat.div_le_self _ _
  have nonzero : (sint b).natAbs ≠ 0 := fun h => divisor (sint_injective (Int.natAbs_eq_zero.1 h))
  have dividend : (sint a).natAbs = 32768 ∧ (sint a).natAbs / (sint b).natAbs = 32768 := by omega
  have unit : (sint b).natAbs = 1 := by
    by_contra other
    have half : (sint a).natAbs / (sint b).natAbs ≤ (sint a).natAbs / 2 :=
      Nat.div_le_div_left (by omega) (by omega)
    omega
  have low : sint a = -32768 := by omega
  obtain one | minusOne : sint b = 1 ∨ sint b = -1 := by omega
  · rw [low, one] at outside
    exact absurd (by decide) outside
  · exact ⟨sint_injective low, sint_injective minusOne⟩

/-- Settles O26: the rows of the table; the quotient overflows in one case alone. -/
theorem divAndModResults : Obligations.DivAndModResults := by
  intro s r q a b divisor
  refine ⟨?_, computes_binary (op := .mod) rfl fun _ => divisor⟩
  rw [← decide_eq_decide.2 (not_fits16_tdiv_iff divisor)]
  exact computes_binary (op := .div) rfl fun _ => divisor

/-- Settles O27: both leave the draw. -/
theorem divAndModByZero : Obligations.DivAndModByZero :=
  fun s r q zero => ⟨completes_byZero (op := .div) (aluBinary_eq .div r q s) rfl zero,
    completes_byZero (op := .mod) (aluBinary_eq .mod r q s) rfl zero⟩

/-- The register a computation leaves. -/
theorem reg_of_computes {n : Word} {r : Reg} {res : Word} {ovf : Bool} (computes : Computes i s n r res ovf)
    (done : exec i s = .next t) : t.reg r = res := by
  obtain ⟨u, answered, registers, -⟩ := computes
  cases done.symm.trans answered
  rw [registers, lookup_cons_getD, if_pos rfl]

theorem tmod_nonpos {m n : Int} (h : m ≤ 0) : m.tmod n ≤ 0 := by
  have := Int.tmod_nonneg n (show 0 ≤ -m by omega)
  rw [Int.neg_tmod] at this
  omega

theorem natAbs_tmod_lt {m n : Int} (h : n ≠ 0) : (m.tmod n).natAbs < n.natAbs := by
  rw [Int.natAbs_tmod]
  exact Nat.mod_lt _ (by omega)

/-- Settles O28: truncating division in the integers, carried to words; the remainder is a signed word as it is smaller
than the divisor. -/
theorem divModIdentity : Obligations.DivModIdentity := by
  intro s t u r q divisor divided reduced
  obtain ⟨quotient, remainder⟩ := divAndModResults s r q divisor
  rw [reg_of_computes quotient divided, reg_of_computes remainder reduced]
  generalize s.operand 2 r = a
  generalize s.operand 2 q = b at divisor
  have nonzero : sint b ≠ 0 := fun h => divisor (sint_injective h)
  have smaller := natAbs_tmod_lt (m := sint a) nonzero
  have range := sint_range b
  rw [sint_u16 (n := (sint a).tmod (sint b)) ⟨by omega, by omega⟩]
  refine ⟨?_, smaller, Int.tmod_nonneg _, tmod_nonpos⟩
  calc a = u16 (sint b * (sint a).tdiv (sint b) + (sint a).tmod (sint b)) := by
        rw [Int.mul_tdiv_add_tmod, u16_sint]
    _ = u16 (sint b) * u16 ((sint a).tdiv (sint b)) + u16 ((sint a).tmod (sint b)) := by
        simp only [u16, BitVec.ofInt_add, BitVec.ofInt_mul]
    _ = b * u16 ((sint a).tdiv (sint b)) + u16 ((sint a).tmod (sint b)) := by rw [u16_sint]

/-! ## Bits, shifts and the rest -/

/-- Settles O29: the rows of the table, whose results are the words' own bitwise operations. -/
theorem bitwiseOperations : Obligations.BitwiseOperations := by
  intro s r q a b
  refine ⟨a &&& b, a ||| b, a ^^^ b, ~~~a, fun k inWord => ?_, computes_binary (op := .and) rfl nofun,
    computes_binary (op := .or) rfl nofun, computes_binary (op := .xor) rfl nofun, ?_⟩
  · simp [inWord]
  · rw [complement_eq_u16]
    exact computes_unary (op := .not) rfl rfl

/-- Settles O30: the rows of the table, that of `shr` by the parameter. -/
theorem shiftResults : Obligations.ShiftResults := by
  intro s r q a n
  have right := computes_binary (i := .shr r q) (s := s) (op := .shr) rfl nofun
  refine ⟨computes_binary (op := .shl) rfl nofun, fun logical => ?_, fun arithmetic => ?_⟩
  · simpa only [aluTable, logical, Bool.false_eq_true, if_false] using right
  · simpa only [aluTable, arithmetic, if_true] using right

/-- Settles O31: the rows of the table; the one word whose negation overflows is the least. -/
theorem minMaxLnotNeg : Obligations.MinMaxLnotNeg := by
  intro s r q a b
  refine ⟨computes_binary (op := .min) rfl nofun, computes_binary (op := .max) rfl nofun,
    computes_unary (op := .lnot) rfl rfl, ?_⟩
  have least : sint a = -32768 ↔ a = 0x8000#16 := sint_eq_iff (b := 0x8000#16)
  rw [decide_eq_decide.2 least]
  exact computes_unary (op := .neg) rfl rfl

/-! ## `imm` -/

theorem exec_imm_binary (binary : op.isBinary = true) (r : Reg) (value : Word) (s : State) :
    exec (.imm op r value) s = .next (s.computed twoWord r (s.alu op (s.operand 4 r) value)) := by
  rw [← State.reg_advance_operand]
  exact if_pos binary

theorem exec_imm_unary (unary : op.isBinary = false) (r : Reg) (value : Word) (s : State) :
    exec (.imm op r value) s = .next (s.raise (.illegalInstruction (encodeFirst (.imm op r value)))) :=
  if_neg (by simp [unary])

/-- Settles O32: a binary `imm` is an ALU instruction with the data word as its right operand. -/
theorem immApplies : Obligations.ImmApplies := by
  intro s op r value res
  refine ⟨fun binary divisor => ?_, fun binary divides zero => ?_, fun unary => ?_⟩
  · exact computes_of_table (exec_imm_binary binary r value s) divisor
  · exact completes_byZero (exec_imm_binary binary r value s) divides zero
  · exact ⟨_, exec_imm_unary unary r value s, faultTaken_raise s _⟩

end Sys2Proof.Machine
end

section
/-! The STACK instructions (42_stack.md): words written side by side, the effect of each instruction and its faults,
and the statements. -/

namespace Sys2Proof.Machine

variable {s t u : State} {i : Instr} {n v w top : Word} {p r q : Reg} {a b : Nat}

/-! ## Word writes as operations on the state -/

/-- A state that differs in memory alone, with the same bytes, is the same state. -/
theorem State.eq_of_bytes (same : u = { t with mem := u.mem }) (wf : Memory.wf t.mem = true)
    (wf' : Memory.wf u.mem = true) (bytes : ∀ b, u.byteAt b = t.byteAt b) : u = t := by
  rw [same, show u.mem = t.mem from Sparse.ext_from wf' wf bytes]

theorem State.setWord_setWord_same (wf : Memory.wf s.mem = true) (h : a ≤ 4094) (v w : Word) :
    (s.setWord a v).setWord a w = s.setWord a w := by
  refine State.eq_of_bytes rfl (State.wf_setWord wf h w) (State.wf_setWord (State.wf_setWord wf h v) h w) fun b => ?_
  simp only [State.byteAt_setWord (State.wf_setWord wf h v) h, State.byteAt_setWord wf h, State.setWord_params]
  split <;> [rfl; split] <;> rfl

/-- Writes of words that do not overlap commute. -/
theorem State.setWord_comm (wf : Memory.wf s.mem = true) (ha : a ≤ 4094) (hb : b ≤ 4094) (apart : a + 1 < b)
    (v w : Word) : (s.setWord b v).setWord a w = (s.setWord a w).setWord b v := by
  have wfa := State.wf_setWord wf ha w
  have wfb := State.wf_setWord wf hb v
  refine State.eq_of_bytes rfl (State.wf_setWord wfa hb v) (State.wf_setWord wfb ha w) fun k => ?_
  simp only [State.byteAt_setWord wfa hb, State.byteAt_setWord wfb ha, State.byteAt_setWord wf ha,
    State.byteAt_setWord wf hb, State.setWord_params]
  by_cases low : k ≤ a + 1
  · simp [show k ≠ b by omega, show k ≠ b + 1 by omega]
  · simp [show k ≠ a by omega, show k ≠ a + 1 by omega]

/-- Writing back the word that is there changes nothing. -/
theorem State.setWord_wordAt (wf : Memory.wf s.mem = true) (h : a ≤ 4094) : s.setWord a (s.wordAt a) = s := by
  refine State.eq_of_bytes rfl wf (State.wf_setWord wf h _) fun b => ?_
  rw [State.byteAt_setWord wf h, State.wordAt, firstByte_wordOfBytes, secondByte_wordOfBytes]
  split <;> [subst b; (split <;> [subst b; skip])] <;> rfl

/-- Words written side by side, from an address on. -/
def State.setWords (s : State) (a : Nat) : List Word → State
  | [] => s
  | v :: rest => (s.setWord a v).setWords (a + 2) rest

/-- The bytes of words that lie side by side, with their indices. -/
def State.wordsBytes (s : State) (a : Nat) : List Word → List (Nat × Byte)
  | [] => []
  | v :: rest => s.wordBytes a v ++ s.wordsBytes (a + 2) rest

theorem State.setWords_setWord (wf : Memory.wf s.mem = true) (ha : a ≤ 4094) (apart : a + 1 < b) (w : Word)
    {vs : List Word} (fits : b + 2 * vs.length ≤ 4096) :
    (s.setWords b vs).setWord a w = (s.setWord a w).setWords b vs := by
  induction vs generalizing s b with
  | nil => rfl
  | cons v rest ih =>
    rw [List.length_cons] at fits
    rw [State.setWords, State.setWords, ih (State.wf_setWord wf (by omega) v) (by omega) (by omega),
      State.setWord_comm wf ha (by omega) apart]

/-- Words written over as many words leave no trace of them. -/
theorem State.setWords_setWords (wf : Memory.wf s.mem = true) {vs ws : List Word} (same : vs.length = ws.length)
    (fits : a + 2 * vs.length ≤ 4096) : (s.setWords a vs).setWords a ws = s.setWords a ws := by
  induction vs generalizing s a ws with
  | nil =>
    cases ws with
    | nil => rfl
    | cons => cases same
  | cons v rest ih =>
    cases ws with
    | nil => cases same
    | cons w rest' =>
      simp only [List.length_cons] at same fits
      have first : a ≤ 4094 := by omega
      simp only [State.setWords]
      rw [State.setWords_setWord (State.wf_setWord wf first v) first (by omega) w (by omega),
        State.setWord_setWord_same wf first, ih (State.wf_setWord wf first w) (by omega) (by omega)]

/-! ## The bytes two writes change -/

theorem State.lookup_wordBytes_apart (s : State) (v : Word) {k : Nat} (apart : k < a ∨ a + 1 < k) :
    (s.wordBytes a v).lookup k = none := by
  have h1 : (k == a) = false := by simp; omega
  have h2 : (k == a + 1) = false := by simp; omega
  simp [State.wordBytes, List.lookup, h1, h2]

theorem State.lookup_wordsBytes_below (s : State) (vs : List Word) {k : Nat} (below : k < a) :
    (s.wordsBytes a vs).lookup k = none := by
  induction vs generalizing a with
  | nil => rfl
  | cons v rest ih =>
    rw [State.wordsBytes, List.lookup_append, s.lookup_wordBytes_apart v (.inl below), ih (by omega)]
    rfl

/-- Two changes of bytes apart from each other are one change. -/
theorem BytesBecome.append {first second : List (Nat × Byte)} (h : BytesBecome s t first)
    (h' : BytesBecome t u second) (apart : ∀ k, first.lookup k = none ∨ second.lookup k = none) :
    BytesBecome s u (first ++ second) := by
  intro k
  rw [h' k, h k, List.lookup_append]
  obtain absent | absent := apart k
  · simp [absent]
  · simp [absent]

theorem State.wordsBytes_of_params (h : t.params = s.params) (vs : List Word) :
    t.wordsBytes a vs = s.wordsBytes a vs := by
  induction vs generalizing a with
  | nil => rfl
  | cons v rest ih => rw [State.wordsBytes, State.wordsBytes, ih, State.wordBytes, State.wordBytes, h]

theorem bytesBecome_setWords (wf : Memory.wf s.mem = true) {vs : List Word} (fits : a + 2 * vs.length ≤ 4096) :
    BytesBecome s (s.setWords a vs) (s.wordsBytes a vs) := by
  induction vs generalizing s a with
  | nil => exact bytesBecome_refl rfl
  | cons v rest ih =>
    rw [List.length_cons] at fits
    have first : a ≤ 4094 := by omega
    have others := ih (State.wf_setWord wf first v) (show a + 2 + 2 * rest.length ≤ 4096 by omega)
    rw [State.wordsBytes_of_params (t := s.setWord a v) (s := s) rfl] at others
    refine (bytesBecome_setWord wf first v rfl).append others fun k => ?_
    by_cases low : k < a + 2
    · exact .inr (s.lookup_wordsBytes_below rest low)
    · exact .inl (s.lookup_wordBytes_apart v (.inr (by omega)))

/-! ## Addresses of the stack -/

/-- The slots above a top that lies far enough below the end of memory. -/
theorem toNat_top_add_two (fits : top.toNat ≤ 4094) : (top + 2#16).toNat = top.toNat + 2 := by bv_omega

theorem toNat_top_add_four (fits : top.toNat ≤ 4094) : (top + 4#16).toNat = top.toNat + 4 := by bv_omega

/-! ## `push` and `pushi` -/

theorem exec_push (r p : Reg) (s : State) :
    exec (.push r p) s = finish s ((s.advance oneWord).pushWord p (s.operand 2 r)) := by
  rw [← State.reg_advance_operand]
  rfl

/-- The state a push of `v` by an instruction of `n` bytes leaves. -/
def State.pushed (s : State) (n : Word) (p : Reg) (v : Word) : State :=
  ((s.advance n).setWord (s.operand n p - 2).toNat v).setReg p (s.operand n p - 2)

theorem pushWord_ok (fits : (s.operand n p - 2).toNat ≤ 4094) (v : Word) :
    (s.advance n).pushWord p v = .ok (s.pushed n p v) := by
  rw [State.pushWord, State.reg_advance_operand]
  show (s.advance n).writeWord (s.operand n p - 2) v >>= _ = _
  rw [State.writeWord_ok fits]
  rfl

theorem pushWord_error (beyond : 4094 < (s.operand n p - 2).toNat) (v : Word) :
    (s.advance n).pushWord p v = .error (.addressFault (s.operand n p - 2)) := by
  rw [State.pushWord, State.reg_advance_operand]
  show (s.advance n).writeWord (s.operand n p - 2) v >>= _ = _
  rw [State.writeWord_error beyond]
  rfl

theorem moves_of_push (done : exec i s = finish s ((s.advance n).pushWord p v)) (wf : Memory.wf s.mem = true)
    (fits : (s.operand n p - 2).toNat ≤ 4094) :
    Moves i s n [(p, s.operand n p - 2)] (s.wordBytes (s.operand n p - 2).toNat v) := by
  rw [pushWord_ok fits, finish_ok] at done
  exact ⟨_, done, regsBecome_setReg rfl, bytesBecome_setWord wf fits v rfl, rfl, rfl, rfl, rfl, rfl, rfl, rfl, rfl⟩

theorem faults_of_push (done : exec i s = finish s ((s.advance n).pushWord p v))
    (beyond : 4094 < (s.operand n p - 2).toNat) : Faults i s (.addressFault (s.operand n p - 2)) :=
  faults_of_finish done (pushWord_error beyond v)

/-- Settles O33: both are one push, of a register read after the advance or of the data word. -/
theorem pushAndPushi : Obligations.PushAndPushi :=
  fun s r p _ => ⟨moves_of_push (exec_push r p s), faults_of_push (exec_push r p s), moves_of_push (n := 4) rfl,
    faults_of_push (n := 4) rfl⟩

/-! ## `pop` and `drop` -/

theorem exec_pop (r p : Reg) (s : State) :
    exec (.pop r p) s = finish s ((s.advance oneWord).readWord (s.operand 2 p) >>= fun v =>
      pure (((s.advance oneWord).setReg p (s.operand 2 p + 2)).setReg r v)) := by
  rw [← State.reg_advance_operand]
  rfl

theorem exec_pop_ok (fits : (s.operand 2 p).toNat ≤ 4094) :
    exec (.pop r p) s = .next (((s.advance oneWord).setReg p (s.operand 2 p + 2)).setReg r
      (s.wordAt (s.operand 2 p).toNat)) := by
  rw [exec_pop, State.readWord_eq_wordAt fits]
  rfl

theorem exec_drop (p : Reg) (s : State) :
    exec (.drop p) s = .next ((s.advance oneWord).setReg p (s.operand 2 p + 2)) := by
  rw [← State.reg_advance_operand]
  rfl

/-- Settles O34: `pop` writes the pointer, then the destination; `drop` the pointer alone. -/
theorem popAndDrop : Obligations.PopAndDrop := by
  intro s r p top
  refine ⟨fun fits => ?_, fun beyond => ?_, moves_of_setReg (exec_drop p s)⟩
  · exact ⟨_, exec_pop_ok fits, regsBecome_setReg_setReg rfl, bytesBecome_refl rfl, rfl, rfl, rfl, rfl, rfl, rfl, rfl,
      rfl⟩
  · exact faults_of_finish (exec_pop r p s) (by rw [State.readWord_error beyond]; rfl)

/-! ## `dup` and `over` -/

/-- The word at an address, pushed. -/
def State.readThenPush (s : State) (p : Reg) (addr : Word) : Except FaultReport State :=
  (s.advance oneWord).readWord addr >>= (s.advance oneWord).pushWord p

theorem exec_dup (p : Reg) (s : State) : exec (.dup p) s = finish s (s.readThenPush p (s.operand 2 p)) := by
  rw [← State.reg_advance_operand]
  rfl

theorem exec_over (p : Reg) (s : State) : exec (.overWord p) s = finish s (s.readThenPush p (s.operand 2 p + 2)) := by
  rw [← State.reg_advance_operand]
  rfl

section
variable {addr : Word} (done : exec i s = finish s (s.readThenPush p addr))
include done

theorem exec_readThenPush_ok (fits : addr.toNat ≤ 4094) :
    exec i s = finish s ((s.advance oneWord).pushWord p (s.wordAt addr.toNat)) := by
  rw [done, State.readThenPush, State.readWord_eq_wordAt fits]
  rfl

/-- The read faults before the write does. -/
theorem faults_readThenPush (beyond : 4094 < addr.toNat) : Faults i s (.addressFault addr) :=
  faults_of_finish done (by rw [State.readThenPush, State.readWord_error beyond]; rfl)
end

/-- Settles O35: a read, whose fault comes first, and a push of the word read. -/
theorem dupAndOver : Obligations.DupAndOver := by
  intro s p top slot
  have dup := exec_dup p s
  have second := exec_over p s
  exact ⟨fun wf fits => moves_of_push (exec_readThenPush_ok dup fits) wf, faults_readThenPush dup,
    fun fits => faults_of_push (exec_readThenPush_ok dup fits),
    fun wf fits => moves_of_push (exec_readThenPush_ok second fits) wf, faults_readThenPush second,
    fun fits => faults_of_push (exec_readThenPush_ok second fits)⟩

/-! ## `swap` and `rot` -/

/-- The accesses of `swap`. -/
def State.swapAt (t : State) (top : Word) : Except FaultReport State := do
  let v0 ← t.readWord top
  let v1 ← t.readWord (top + 2#16)
  let t ← t.writeWord top v1
  t.writeWord (top + 2#16) v0

/-- The accesses of `rot`. -/
def State.rotAt (t : State) (top : Word) : Except FaultReport State := do
  let v0 ← t.readWord top
  let v1 ← t.readWord (top + 2#16)
  let v2 ← t.readWord (top + 4#16)
  let t ← t.writeWord top v2
  let t ← t.writeWord (top + 2#16) v0
  t.writeWord (top + 4#16) v1

theorem exec_swap (p : Reg) (s : State) :
    exec (.swap p) s = finish s ((s.advance oneWord).swapAt (s.operand 2 p)) := by
  rw [← State.reg_advance_operand]
  rfl

theorem exec_rot (p : Reg) (s : State) :
    exec (.rot p) s = finish s ((s.advance oneWord).rotAt (s.operand 2 p)) := by
  rw [← State.reg_advance_operand]
  rfl

/-- The two words from an index on, exchanged. -/
def State.swapWords (t : State) (a : Nat) : State := t.setWords a [t.wordAt (a + 2), t.wordAt a]

/-- The three words from an index on, the third of them first. -/
def State.rotWords (t : State) (a : Nat) : State := t.setWords a [t.wordAt (a + 4), t.wordAt a, t.wordAt (a + 2)]

theorem State.swapAt_ok (fits : top.toNat ≤ 4092) :
    t.swapAt top = .ok (t.swapWords top.toNat) := by
  have next := toNat_top_add_two (top := top) (by omega)
  have first : top.toNat ≤ 4094 := by omega
  have second : (top + 2#16).toNat ≤ 4094 := by omega
  simp only [State.swapAt, except_ok_bind, State.readWord_eq_wordAt first, State.readWord_eq_wordAt second,
    State.writeWord_ok first,
    State.writeWord_ok second, State.swapWords, State.setWords, next]

theorem State.rotAt_ok (fits : top.toNat ≤ 4090) :
    t.rotAt top = .ok (t.rotWords top.toNat) := by
  have next := toNat_top_add_two (top := top) (by omega)
  have last := toNat_top_add_four (top := top) (by omega)
  have first : top.toNat ≤ 4094 := by omega
  have second : (top + 2#16).toNat ≤ 4094 := by omega
  have third : (top + 4#16).toNat ≤ 4094 := by omega
  simp only [State.rotAt, except_ok_bind, State.readWord_eq_wordAt first, State.readWord_eq_wordAt second,
    State.readWord_eq_wordAt third, State.writeWord_ok first, State.writeWord_ok second, State.writeWord_ok third,
    State.rotWords, State.setWords, next, last, Nat.add_assoc, Nat.reduceAdd]

theorem State.swapAt_topBeyond (beyond : 4094 < top.toNat) : t.swapAt top = .error (.addressFault top) := by
  simp [State.swapAt, State.readWord_error beyond]

theorem State.rotAt_topBeyond (beyond : 4094 < top.toNat) : t.rotAt top = .error (.addressFault top) := by
  simp [State.rotAt, State.readWord_error beyond]

section
variable (fits : top.toNat ≤ 4094) (beyond : 4092 < top.toNat)
include fits beyond

theorem second_slot_beyond : 4094 < (top + 2#16).toNat := by
  have next := toNat_top_add_two fits
  omega

theorem State.swapAt_secondBeyond : t.swapAt top = .error (.addressFault (top + 2#16)) := by
  simp [State.swapAt, State.readWord_eq_wordAt fits, State.readWord_error (second_slot_beyond fits beyond)]

theorem State.rotAt_secondBeyond : t.rotAt top = .error (.addressFault (top + 2#16)) := by
  simp [State.rotAt, State.readWord_eq_wordAt fits, State.readWord_error (second_slot_beyond fits beyond)]
end

theorem State.rotAt_thirdBeyond (fits : top.toNat ≤ 4092) (beyond : 4090 < top.toNat) :
    t.rotAt top = .error (.addressFault (top + 4#16)) := by
  have next := toNat_top_add_two (top := top) (by omega)
  have last := toNat_top_add_four (top := top) (by omega)
  have first : top.toNat ≤ 4094 := by omega
  have second : (top + 2#16).toNat ≤ 4094 := by omega
  have third : 4094 < (top + 4#16).toNat := by omega
  simp only [State.rotAt, except_ok_bind, State.readWord_eq_wordAt first, State.readWord_eq_wordAt second,
    State.readWord_error third, except_error_bind]

theorem exec_swap_ok (fits : (s.operand 2 p).toNat ≤ 4092) :
    exec (.swap p) s = .next ((s.advance oneWord).swapWords (s.operand 2 p).toNat) := by
  rw [exec_swap, State.swapAt_ok fits, finish_ok]

theorem exec_rot_ok (fits : (s.operand 2 p).toNat ≤ 4090) :
    exec (.rot p) s = .next ((s.advance oneWord).rotWords (s.operand 2 p).toNat) := by
  rw [exec_rot, State.rotAt_ok fits, finish_ok]

/-- Settles O36: all words are read before any is written, and the words written lie side by side. -/
theorem swapAndRot : Obligations.SwapAndRot := by
  intro s p top a
  refine ⟨fun wf fits => ?_,
    fun beyond fits => faults_of_finish (exec_swap p s) (State.swapAt_secondBeyond fits beyond),
    fun beyond => faults_of_finish (exec_swap p s) (State.swapAt_topBeyond beyond), fun wf fits => ?_,
    fun beyond fits => faults_of_finish (exec_rot p s) (State.rotAt_thirdBeyond fits beyond),
    fun beyond fits => faults_of_finish (exec_rot p s) (State.rotAt_secondBeyond fits beyond),
    fun beyond => faults_of_finish (exec_rot p s) (State.rotAt_topBeyond beyond)⟩
  · have bytes := bytesBecome_setWords (s := s.advance oneWord) (vs := [s.wordAt (a + 2), s.wordAt a]) wf
      (show a + 2 * 2 ≤ 4096 by omega)
    exact ⟨_, exec_swap_ok fits, regsBecome_advance rfl, bytes, rfl, rfl, rfl, rfl, rfl, rfl, rfl, rfl⟩
  · have bytes := bytesBecome_setWords (s := s.advance oneWord)
      (vs := [s.wordAt (a + 4), s.wordAt a, s.wordAt (a + 2)]) wf (show a + 2 * 3 ≤ 4096 by omega)
    exact ⟨_, exec_rot_ok fits, regsBecome_advance rfl, bytes, rfl, rfl, rfl, rfl, rfl, rfl, rfl, rfl⟩

/-! ## `sop` -/

section
variable {op : AluOp}

theorem exec_sop_binary (binary : op.isBinary = true) (p : Reg) (s : State) :
    exec (.sop op p) s = finish s ((s.advance oneWord).sopBinary op p) :=
  congrArg (finish s) (if_pos binary)

theorem exec_sop_unary (unary : op.isBinary = false) (p : Reg) (s : State) :
    exec (.sop op p) s = finish s ((s.advance oneWord).sopUnary op p) :=
  congrArg (finish s) (if_neg (by simp [unary]))

theorem sopBinary_eq (op : AluOp) (p : Reg) (s : State) : (s.advance oneWord).sopBinary op p = (do
    let b ← (s.advance oneWord).readWord (s.operand 2 p)
    let a ← (s.advance oneWord).readWord (s.operand 2 p + 2#16)
    let u ← (s.advance oneWord).writeWord (s.operand 2 p + 2#16) (s.alu op a b).res
    pure ((u.setReg p (s.operand 2 p + 2#16)).writeAluFlags (s.alu op a b))) := by
  rw [← State.reg_advance_operand]
  rfl

theorem sopUnary_eq (op : AluOp) (p : Reg) (s : State) : (s.advance oneWord).sopUnary op p = (do
    let a ← (s.advance oneWord).readWord (s.operand 2 p)
    let u ← (s.advance oneWord).writeWord (s.operand 2 p) (s.alu op a 0).res
    pure (u.writeAluFlags (s.alu op a 0))) := by
  rw [← State.reg_advance_operand]
  rfl

/-- A binary `sop` in range: the second word is the left operand, and its place takes the result. -/
theorem completes_sopBinary (binary : op.isBinary = true) (wf : Memory.wf s.mem = true)
    (fits : (s.operand 2 p).toNat ≤ 4092) {result : AluResult}
    (computed : s.alu op (s.wordAt ((s.operand 2 p).toNat + 2)) (s.wordAt (s.operand 2 p).toNat) = result) :
    Completes (.sop op p) s 2 [(p, s.operand 2 p + 2)] (s.wordBytes ((s.operand 2 p).toNat + 2) result.res)
      (s.aluFlags result.res result.ovf result.nan) s.outside (if result.nan then 1 else 0) := by
  have next := toNat_top_add_two (top := s.operand 2 p) (by omega)
  have first : (s.operand 2 p).toNat ≤ 4094 := by omega
  have second : (s.operand 2 p + 2#16).toNat ≤ 4094 := by omega
  have done := exec_sop_binary binary p s
  rw [sopBinary_eq, State.readWord_eq_wordAt first, except_ok_bind, State.readWord_eq_wordAt second, except_ok_bind,
    State.writeWord_ok second, except_ok_bind, next] at done
  subst computed
  exact completes_of_writeAluFlags done (regsBecome_setReg rfl) (bytesBecome_setWord wf (by omega) _ rfl)
    (((Local.advance s oneWord).trans (Local.setWord _ _ (by omega))).trans (Local.setReg _ p _)) rfl

theorem completes_sopUnary (unary : op.isBinary = false) (wf : Memory.wf s.mem = true)
    (fits : (s.operand 2 p).toNat ≤ 4094) {result : AluResult}
    (computed : s.alu op (s.wordAt (s.operand 2 p).toNat) 0 = result) :
    Completes (.sop op p) s 2 [] (s.wordBytes (s.operand 2 p).toNat result.res)
      (s.aluFlags result.res result.ovf result.nan) s.outside (if result.nan then 1 else 0) := by
  have done := exec_sop_unary unary p s
  rw [sopUnary_eq, State.readWord_eq_wordAt fits, except_ok_bind, State.writeWord_ok fits, except_ok_bind] at done
  subst computed
  exact completes_of_writeAluFlags done (regsBecome_advance rfl) (bytesBecome_setWord wf fits _ rfl)
    ((Local.advance s oneWord).trans (Local.setWord _ _ fits)) rfl

theorem faults_sop_second (binary : op.isBinary = true) (beyond : 4092 < (s.operand 2 p).toNat)
    (fits : (s.operand 2 p).toNat ≤ 4094) : Faults (.sop op p) s (.addressFault (s.operand 2 p + 2)) := by
  refine faults_of_finish (exec_sop_binary binary p s) ?_
  rw [sopBinary_eq, State.readWord_eq_wordAt fits, except_ok_bind,
    State.readWord_error (second_slot_beyond fits beyond)]
  rfl

theorem faults_sop_top (beyond : 4094 < (s.operand 2 p).toNat) :
    Faults (.sop op p) s (.addressFault (s.operand 2 p)) := by
  cases form : op.isBinary with
  | true =>
    refine faults_of_finish (exec_sop_binary form p s) ?_
    rw [sopBinary_eq, State.readWord_error beyond, except_error_bind]
  | false =>
    refine faults_of_finish (exec_sop_unary form p s) ?_
    rw [sopUnary_eq, State.readWord_error beyond, except_error_bind]

/-- No unary operation divides. -/
theorem AluOp.isBinary_of_divides (divides : op.divides = true) : op.isBinary = true := by
  cases op <;> first | rfl | cases divides
end

/-- Settles O37: the accesses of either form, with the result of the table or the draw of a division by zero. -/
theorem sopAppliesToStack : Obligations.SopAppliesToStack := by
  intro s op p top a b res res1
  refine ⟨fun binary wf fits divisor => ?_, fun binary wf fits divides zero => ?_, faults_sop_second,
    fun unary wf fits => ?_, faults_sop_top⟩
  · have done := completes_sopBinary binary wf fits (s.alu_eq_table a divisor)
    exact done
  · have done := completes_sopBinary binary wf fits (s.alu_byZero a divides zero)
    exact ⟨_, done⟩
  · have whole : op.divides = true → (0 : Word) ≠ 0 := fun divides => by
      cases unary.symm.trans (AluOp.isBinary_of_divides divides)
    have done := completes_sopUnary unary wf fits (s.alu_eq_table b whole)
    exact done

/-! ## Round trips -/

/-- Writing back two words, or three, that are there changes nothing. -/
theorem State.setWords_two (wf : Memory.wf s.mem = true) (fits : a ≤ 4092) :
    s.setWords a [s.wordAt a, s.wordAt (a + 2)] = s := by
  rw [State.setWords, State.setWord_wordAt wf (by omega), State.setWords, State.setWord_wordAt wf (by omega),
    State.setWords]

theorem State.setWords_three (wf : Memory.wf s.mem = true) (fits : a ≤ 4090) :
    s.setWords a [s.wordAt a, s.wordAt (a + 2), s.wordAt (a + 4)] = s := by
  rw [State.setWords, State.setWord_wordAt wf (by omega)]
  exact State.setWords_two wf (by omega)

theorem State.wf_setWords (wf : Memory.wf s.mem = true) {vs : List Word} (fits : a + 2 * vs.length ≤ 4096) :
    Memory.wf (s.setWords a vs).mem = true := by
  induction vs generalizing s a with
  | nil => exact wf
  | cons v rest ih =>
    rw [List.length_cons] at fits
    exact ih (State.wf_setWord wf (by omega) v) (by omega)

/-- The first of the words written side by side. -/
theorem State.wordAt_setWords_first (wf : Memory.wf s.mem = true) {vs : List Word}
    (fits : a + 2 * (vs.length + 1) ≤ 4096) : (s.setWords a (v :: vs)).wordAt a = v := by
  rw [State.setWords, ← State.setWords_setWord wf (by omega) (by omega) v (by omega)]
  exact State.wordAt_setWord_same (State.wf_setWords wf (by omega)) (by omega) v

section
variable {x y z : Word}

theorem State.swapWords_setWords (wf : Memory.wf s.mem = true) (fits : a ≤ 4092) :
    (s.setWords a [x, y]).swapWords a = s.setWords a [y, x] := by
  have first : (s.setWords a [x, y]).wordAt a = x := State.wordAt_setWords_first wf (by simp; omega)
  have second : (s.setWords a [x, y]).wordAt (a + 2) = y :=
    State.wordAt_setWords_first (State.wf_setWord wf (by omega) x) (by simp; omega)
  rw [State.swapWords, first, second]
  exact State.setWords_setWords wf rfl (show a + 2 * 2 ≤ 4096 by omega)

theorem State.rotWords_setWords (wf : Memory.wf s.mem = true) (fits : a ≤ 4090) :
    (s.setWords a [x, y, z]).rotWords a = s.setWords a [z, x, y] := by
  have wf1 := State.wf_setWord wf (show a ≤ 4094 by omega) x
  have wf2 := State.wf_setWord wf1 (show a + 2 ≤ 4094 by omega) y
  have first : (s.setWords a [x, y, z]).wordAt a = x := State.wordAt_setWords_first wf (by simp; omega)
  have second : (s.setWords a [x, y, z]).wordAt (a + 2) = y := State.wordAt_setWords_first wf1 (by simp; omega)
  have third : (s.setWords a [x, y, z]).wordAt (a + 4) = z := by
    rw [State.setWords, State.setWords]
    exact State.wordAt_setWords_first wf2 (by simp; omega)
  rw [State.rotWords, first, second, third]
  exact State.setWords_setWords wf rfl (show a + 2 * 3 ≤ 4096 by omega)
end

theorem State.swapWords_swapWords (wf : Memory.wf s.mem = true) (fits : a ≤ 4092) :
    (s.swapWords a).swapWords a = s :=
  (State.swapWords_setWords wf fits).trans (State.setWords_two wf fits)

theorem State.rotWords_rotWords_rotWords (wf : Memory.wf s.mem = true) (fits : a ≤ 4090) :
    ((s.rotWords a).rotWords a).rotWords a = s :=
  calc ((s.rotWords a).rotWords a).rotWords a
      = (s.setWords a [s.wordAt (a + 2), s.wordAt (a + 4), s.wordAt a]).rotWords a :=
        congrArg (State.rotWords · a) (State.rotWords_setWords wf fits)
    _ = s.setWords a [s.wordAt a, s.wordAt (a + 2), s.wordAt (a + 4)] := State.rotWords_setWords wf fits
    _ = s := State.setWords_three wf fits

/-- Memory and the pc are apart. -/
theorem State.advance_setWords (s : State) (n : Word) (a : Nat) (vs : List Word) :
    (s.setWords a vs).advance n = (s.advance n).setWords a vs := by
  induction vs generalizing s a with
  | nil => rfl
  | cons v rest ih => exact ih (s.setWord a v) (a + 2)

theorem State.reg_setWords (s : State) (a : Nat) (vs : List Word) (q : Reg) : (s.setWords a vs).reg q = s.reg q := by
  induction vs generalizing s a with
  | nil => rfl
  | cons v rest ih => exact ih (s.setWord a v) (a + 2)

theorem State.reg_advance_ne (s : State) (n : Word) (h : q ≠ .pc) : (s.advance n).reg q = s.reg q :=
  State.reg_setReg_ne s _ h

section
variable (pointer : p ≠ .pc)
include pointer

/-- A `swap` whose pointer is not the pc, as a next state to which another instruction can be applied. -/
theorem exec_swap_of_ne (fits : (s.reg p).toNat ≤ 4092) :
    exec (.swap p) s = .next ((s.advance oneWord).swapWords (s.reg p).toNat) := by
  have top := State.operand_ne s 2 pointer
  rw [exec_swap_ok (top ▸ fits), top]

theorem exec_rot_of_ne (fits : (s.reg p).toNat ≤ 4090) :
    exec (.rot p) s = .next ((s.advance oneWord).rotWords (s.reg p).toNat) := by
  have top := State.operand_ne s 2 pointer
  rw [exec_rot_ok (top ▸ fits), top]

theorem swap_swap (wf : Memory.wf s.mem = true) (fits : (s.reg p).toNat ≤ 4092) :
    ∃ t, exec (.swap p) s = .next t ∧ exec (.swap p) t = .next ((s.advance oneWord).advance oneWord) := by
  refine ⟨_, exec_swap_of_ne pointer fits, ?_⟩
  have same : ((s.advance oneWord).swapWords (s.reg p).toNat).reg p = s.reg p :=
    (State.reg_setWords _ _ _ p).trans (State.reg_advance_ne s _ pointer)
  rw [exec_swap_of_ne pointer (same.symm ▸ fits), same]
  have moved : ((s.advance oneWord).swapWords (s.reg p).toNat).advance oneWord =
      ((s.advance oneWord).advance oneWord).swapWords (s.reg p).toNat := State.advance_setWords _ _ _ _
  rw [moved, State.swapWords_swapWords (s := (s.advance oneWord).advance oneWord) wf fits]

theorem rot_rot_rot (wf : Memory.wf s.mem = true) (fits : (s.reg p).toNat ≤ 4090) :
    ∃ t u, exec (.rot p) s = .next t ∧ exec (.rot p) t = .next u ∧
      exec (.rot p) u = .next (((s.advance oneWord).advance oneWord).advance oneWord) := by
  have kept (x : State) : ((x.advance oneWord).rotWords (s.reg p).toNat).reg p = x.reg p :=
    (State.reg_setWords _ _ _ p).trans (State.reg_advance_ne x _ pointer)
  have moved (x : State) :
      (x.rotWords (s.reg p).toNat).advance oneWord = (x.advance oneWord).rotWords (s.reg p).toNat :=
    State.advance_setWords _ _ _ _
  refine ⟨_, _, exec_rot_of_ne pointer fits, exec_rot_of_ne pointer ((kept s).symm ▸ fits), ?_⟩
  rw [kept s, exec_rot_of_ne pointer (by rw [kept, kept]; exact fits), kept, kept]
  have wf' : Memory.wf (((s.advance oneWord).advance oneWord).advance oneWord).mem = true := by simpa using wf
  rw [moved, moved, moved, State.rotWords_rotWords_rotWords wf' fits]
end

/-- Settles O38: the words written back are those that were there, and the words a `push` and a `pop` address are
one. -/
theorem stackRoundTrips : Obligations.StackRoundTrips := by
  intro s r q p pointer wf
  refine ⟨fun fits => ?_, fun fits => ?_, fun other fits => ?_⟩
  · obtain ⟨t, once, twice⟩ := swap_swap pointer wf fits
    refine ⟨t, _, once, twice, by simp, fun x notPc => ?_⟩
    rw [State.reg_advance_ne _ _ notPc, State.reg_advance_ne _ _ notPc]
  · obtain ⟨t, u, once, twice, thrice⟩ := rot_rot_rot pointer wf fits
    refine ⟨t, u, _, once, twice, thrice, by simp, fun x notPc => ?_⟩
    rw [State.reg_advance_ne _ _ notPc, State.reg_advance_ne _ _ notPc, State.reg_advance_ne _ _ notPc]
  · have top := State.operand_ne s 2 pointer
    have slot : (s.operand 2 p - 2).toNat ≤ 4094 := top ▸ fits
    have pushed := exec_push r p s
    rw [show oneWord = 2 from rfl, pushWord_ok slot, finish_ok] at pushed
    have popTop : (s.pushed 2 p (s.operand 2 r)).operand 2 p = s.operand 2 p - 2 :=
      (State.operand_ne _ 2 pointer).trans (State.reg_setReg_same _ p _)
    have word : (s.pushed 2 p (s.operand 2 r)).wordAt (s.operand 2 p - 2).toNat = s.operand 2 r :=
      State.wordAt_setWord_same (s := s.advance 2) wf slot _
    have popped := exec_pop_ok (r := q) (popTop.symm ▸ slot)
    rw [popTop, word, BitVec.sub_add_cancel, top] at popped
    refine ⟨_, _, pushed, popped, State.reg_setReg_same _ q _, ?_, fun x notPc notDest => ?_⟩
    · rw [State.reg_setReg_ne _ _ other.symm, State.reg_setReg_same]
    · rw [State.reg_setReg_ne _ _ notDest]
      by_cases isPointer : x = p
      · rw [isPointer, State.reg_setReg_same]
      · rw [State.reg_setReg_ne _ _ isPointer, State.reg_advance_ne _ _ notPc, State.pushed,
          State.reg_setReg_ne _ _ isPointer, State.reg_setWord, State.reg_advance_ne _ _ notPc]

end Sys2Proof.Machine
end

section
/-! The loads and stores (44_load_store_register.md, 45_load_store.md): each width and direction once, for any address,
then the address of each form, and the statements. -/

namespace Sys2Proof.Machine

variable {s : State} {i : Instr} {n addr : Word} {r a o : Reg}

/-! ## The value of a byte load -/

theorem extendByte_eq (p : Params) (b : Byte) :
    extendByte p b = if p.lbSignExtend then u16 b.toInt else u16 b.toNat := by
  unfold extendByte
  split
  · rfl
  · rw [u16_natCast, BitVec.ofNat_toNat]

/-! ## One load or store -/

section
variable (done : exec i s = loadWordInto s (s.advance n) r addr)
include done

theorem moves_loadWord (fits : addr.toNat ≤ 4094) : Moves i s n [(r, s.wordAt addr.toNat)] [] := by
  refine moves_of_setReg (done.trans ?_)
  rw [loadWordInto, State.readWord_eq_wordAt fits]
  rfl

theorem faults_loadWord (beyond : 4094 < addr.toNat) : Faults i s (.addressFault addr) :=
  faults_of_finish done (by rw [State.readWord_error beyond]; rfl)
end

section
variable (done : exec i s = loadByteInto s (s.advance n) r addr)
include done

theorem moves_loadByte (fits : addr.toNat ≤ 4095) : Moves i s n
    [(r, if s.params.lbSignExtend then u16 (s.byteAt addr.toNat).toInt else u16 (s.byteAt addr.toNat).toNat)] [] := by
  refine moves_of_setReg (done.trans ?_)
  rw [← extendByte_eq, loadByteInto, State.loadByte, State.readByte_ok (by omega)]
  rfl

theorem faults_loadByte (beyond : 4095 < addr.toNat) : Faults i s (.addressFault addr) :=
  faults_of_finish done (by rw [State.loadByte, State.readByte_error (by omega)]; rfl)
end

section
variable (done : exec i s = storeWordFrom s (s.advance n) r addr)
include done

theorem moves_storeWord (wf : Memory.wf s.mem = true) (fits : addr.toNat ≤ 4094) :
    Moves i s n [] (s.wordBytes addr.toNat (s.operand n r)) := by
  rw [storeWordFrom, State.writeWord_ok fits, finish_ok, State.reg_advance_operand] at done
  exact ⟨_, done, regsBecome_advance rfl, bytesBecome_setWord wf fits _ rfl, rfl, rfl, rfl, rfl, rfl, rfl, rfl, rfl⟩

theorem faults_storeWord (beyond : 4094 < addr.toNat) : Faults i s (.addressFault addr) :=
  faults_of_finish done (State.writeWord_error beyond)
end

section
variable (done : exec i s = storeByteFrom s (s.advance n) r addr)
include done

theorem moves_storeByte (wf : Memory.wf s.mem = true) (fits : addr.toNat ≤ 4095) :
    Moves i s n [] [(addr.toNat, (s.operand n r).setWidth 8)] := by
  rw [storeByteFrom, State.writeByte_ok (by omega), finish_ok, State.reg_advance_operand, loByte_eq_setWidth] at done
  exact ⟨_, done, regsBecome_advance rfl, bytesBecome_setByte wf _ rfl, rfl, rfl, rfl, rfl, rfl, rfl, rfl, rfl⟩

theorem faults_storeByte (beyond : 4095 < addr.toNat) : Faults i s (.addressFault addr) :=
  faults_of_finish done (State.writeByte_error (by omega))
end

/-! ## The address of each form -/

theorem State.regAddr_advance (s : State) (n : Word) (a o : Reg) :
    (s.advance n).regAddr a o = s.operand n a + s.operand n o := by
  rw [State.regAddr, State.reg_advance_operand, State.reg_advance_operand]

theorem State.offsetAddr_advance (s : State) (n word : Word) (o : Reg) :
    (s.advance n).offsetAddr word o = word + s.operand n o := by
  rw [State.offsetAddr, State.reg_advance_operand]

theorem exec_lwr (r a o : Reg) (s : State) :
    exec (.lwr r a o) s = loadWordInto s (s.advance oneWord) r (s.operand 2 a + s.operand 2 o) := by
  rw [← State.regAddr_advance]
  rfl

theorem exec_lbr (r a o : Reg) (s : State) :
    exec (.lbr r a o) s = loadByteInto s (s.advance oneWord) r (s.operand 2 a + s.operand 2 o) := by
  rw [← State.regAddr_advance]
  rfl

theorem exec_swr (r a o : Reg) (s : State) :
    exec (.swr r a o) s = storeWordFrom s (s.advance oneWord) r (s.operand 2 a + s.operand 2 o) := by
  rw [← State.regAddr_advance]
  rfl

theorem exec_sbr (r a o : Reg) (s : State) :
    exec (.sbr r a o) s = storeByteFrom s (s.advance oneWord) r (s.operand 2 a + s.operand 2 o) := by
  rw [← State.regAddr_advance]
  rfl

theorem exec_lwo (r o : Reg) (word : Word) (s : State) :
    exec (.lwo r word o) s = loadWordInto s (s.advance twoWord) r (word + s.operand 4 o) := by
  rw [← State.offsetAddr_advance]
  rfl

theorem exec_lbo (r o : Reg) (word : Word) (s : State) :
    exec (.lbo r word o) s = loadByteInto s (s.advance twoWord) r (word + s.operand 4 o) := by
  rw [← State.offsetAddr_advance]
  rfl

theorem exec_swo (r o : Reg) (word : Word) (s : State) :
    exec (.swo r word o) s = storeWordFrom s (s.advance twoWord) r (word + s.operand 4 o) := by
  rw [← State.offsetAddr_advance]
  rfl

theorem exec_sbo (r o : Reg) (word : Word) (s : State) :
    exec (.sbo r word o) s = storeByteFrom s (s.advance twoWord) r (word + s.operand 4 o) := by
  rw [← State.offsetAddr_advance]
  rfl

/-! ## The statements -/

/-- Settles O41: a word load and a byte load at the sum of two registers. -/
theorem registerLoads : Obligations.RegisterLoads := by
  intro s r a o addr
  have byte := exec_lbr r a o s
  refine ⟨moves_loadWord (exec_lwr r a o s), faults_loadWord (exec_lwr r a o s), fun fits zeros => ?_,
    fun fits signs => ?_, faults_loadByte byte⟩
  · have loaded := moves_loadByte byte fits
    rw [if_neg (by simp [zeros])] at loaded
    exact loaded
  · have loaded := moves_loadByte byte fits
    rw [if_pos signs] at loaded
    exact loaded

/-- Settles O42: a word store and a byte store at the sum of two registers. -/
theorem registerStores : Obligations.RegisterStores :=
  fun s r a o => ⟨moves_storeWord (exec_swr r a o s), faults_storeWord (exec_swr r a o s),
    moves_storeByte (exec_sbr r a o s), faults_storeByte (exec_sbr r a o s)⟩

/-- Settles O43: a word load and a byte load at the data word, alone or with an offset. -/
theorem absoluteLoads : Obligations.AbsoluteLoads :=
  fun s r o word => ⟨moves_loadWord (n := twoWord) rfl, faults_loadWord (n := twoWord) rfl,
    moves_loadWord (exec_lwo r o word s), faults_loadWord (exec_lwo r o word s),
    moves_loadByte (n := twoWord) rfl, faults_loadByte (n := twoWord) rfl,
    moves_loadByte (exec_lbo r o word s), faults_loadByte (exec_lbo r o word s)⟩

/-- Settles O44: a word store and a byte store at the data word, alone or with an offset. -/
theorem absoluteStores : Obligations.AbsoluteStores :=
  fun s r o word => ⟨moves_storeWord (n := twoWord) rfl, faults_storeWord (n := twoWord) rfl,
    moves_storeWord (exec_swo r o word s), faults_storeWord (exec_swo r o word s),
    moves_storeByte (n := twoWord) rfl, faults_storeByte (n := twoWord) rfl,
    moves_storeByte (exec_sbo r o word s), faults_storeByte (exec_sbo r o word s)⟩

end Sys2Proof.Machine
end

section
/-! The services of `sys` (48_io_and_syscalls.md): which service a code runs, sequences of bytes and strings in memory,
the effect of each service, and the statements. -/

namespace Sys2Proof.Machine

variable {s t : State} {i : Instr} {code : BitVec 8} {v : Service} {addr : Word} {n : Nat} {bytes stored : List Byte}

/-! ## The service of a code -/

theorem serviceOf_printed (printed : printedService code = some v) (p : Params) : serviceOf p code = some v := by
  rw [serviceOf, printed]

/-- `sys` with a code that names a service performs it with the pc advanced. -/
theorem exec_sys (named : serviceOf s.params code = some v) :
    exec (.sys code) s = finish s (v.perform (s.advance oneWord)) := by
  show execSys code s = _
  rw [execSys, named]

theorem exec_sys_printed (printed : printedService code = some v) (s : State) :
    exec (.sys code) s = finish s (v.perform (s.advance oneWord)) :=
  exec_sys (serviceOf_printed printed s.params)

theorem exec_sys_unknown (unknown : serviceOf s.params code = none) :
    exec (.sys code) s = .next (s.raise (.unknownSyscall code)) := by
  show execSys code s = _
  rw [execSys, unknown]

theorem printedService_eq_none : ∀ code : BitVec 8,
    ((0x09 ≤ code.toNat ∧ code.toNat ≤ 0x10) ∨ (0x15 ≤ code.toNat ∧ code ≠ 0xF0#8)) →
      printedService code = none := by
  decide

/-- Settles O60: a code outside the printed ones and the two parameters names no service. -/
theorem unknownSystemCode : Obligations.UnknownSystemCode := by
  intro s code notFbds notFbsync unprinted
  have unknown : serviceOf s.params code = none := by
    simp [serviceOf, printedService_eq_none code unprinted, notFbds, notFbsync]
  exact ⟨_, exec_sys_unknown unknown, faultTaken_raise s _⟩

/-! ## Services that touch no memory -/

/-- Settles O51: `halt` writes the status, `wint` appends to the console. -/
theorem haltEndsAndWriteIntAppends : Obligations.HaltEndsAndWriteIntAppends := fun s =>
  ⟨⟨_, exec_sys_printed (v := .halt) rfl s, regsBecome_advance rfl, bytesBecome_refl rfl,
      rfl, rfl, rfl, rfl, rfl, rfl, rfl, rfl⟩,
    ⟨_, exec_sys_printed (v := .wint) rfl s, regsBecome_advance rfl, bytesBecome_refl rfl,
      rfl, rfl, rfl, rfl, rfl, rfl, rfl, rfl⟩⟩

/-- An instruction that advances the pc and does nothing else. -/
theorem moves_of_advance {n : Word} (done : exec i s = .next (s.advance n)) : Moves i s n [] [] :=
  ⟨_, done, regsBecome_advance rfl, bytesBecome_refl rfl, rfl, rfl, rfl, rfl, rfl, rfl, rfl, rfl⟩

/-- Settles O52: `sleep` performs nothing. -/
theorem sleepMovesPcAlone : Obligations.SleepMovesPcAlone :=
  fun s => moves_of_advance (exec_sys_printed (v := .sleep) rfl s)

/-- A value left in `rv` with one draw is the whole effect. -/
theorem completes_of_drawn {x : Word} (done : exec i s = .next ((s.advance oneWord).setReg .rv x).drawn) :
    Completes i s 2 [(.rv, x)] [] s.flags s.outside 1 :=
  ⟨_, done, regsBecome_setReg rfl, bytesBecome_refl rfl, rfl, rfl, rfl, rfl, rfl, rfl, rfl, rfl⟩

/-- A draw between two words that are in order lies between them. -/
theorem randomBetween_bounds {lo hi : Word} (ordered : sint lo ≤ sint hi) (d : Nat) :
    sint lo ≤ sint (randomBetween (sint lo) (sint hi) d) ∧
      sint (randomBetween (sint lo) (sint hi) d) ≤ sint hi := by
  have range := sint_range lo
  have range' := sint_range hi
  have drawn : d % ((sint hi - sint lo).toNat + 1) < (sint hi - sint lo).toNat + 1 := Nat.mod_lt _ (by omega)
  rw [randomBetween, if_pos ordered, sint_u16 ⟨by omega, by omega⟩]
  omega

/-- Settles O53: both leave a draw in `rv`, that of `rnd` brought between the bounds. -/
theorem readIntAndRandom : Obligations.ReadIntAndRandom := fun s =>
  ⟨⟨_, completes_of_drawn (exec_sys_printed (v := .rint) rfl s)⟩,
    ⟨_, completes_of_drawn (exec_sys_printed (v := .rnd) rfl s), fun ordered => randomBetween_bounds ordered _⟩⟩

/-! ## Sequences of bytes (R244) -/

theorem firstBeyond_of_beyond (beyond : 4096 ≤ addr.toNat) : firstBeyond addr = addr := if_neg (by omega)

/-- Within memory, the first address beyond is that of the rest of the sequence. -/
theorem firstBeyond_next (inside : addr.toNat < 4096) : firstBeyond (addr + 1) = firstBeyond addr := by
  have next : (addr + 1).toNat = addr.toNat + 1 := by bv_omega
  rw [firstBeyond, firstBeyond, if_pos inside, next]
  split
  · rfl
  · exact BitVec.eq_of_toNat_eq (next.trans (show addr.toNat + 1 = 4096 by omega))

theorem spanInRange_succ : spanInRange addr (n + 1) ↔ addr.toNat < 4096 ∧ spanInRange (addr + 1) n := by
  unfold spanInRange
  by_cases inside : addr.toNat < 4096
  · have next : (addr + 1).toNat = addr.toNat + 1 := by bv_omega
    omega
  · omega

theorem readBytes_ok (span : spanInRange addr n) :
    s.readBytes n addr = .ok ((List.range n).map fun k => s.byteAt (addr.toNat + k)) := by
  induction n generalizing addr with
  | zero => rfl
  | succ n ih =>
    obtain ⟨inside, rest⟩ := spanInRange_succ.1 span
    have shifted : ∀ k, n ≠ 0 → (addr + 1).toNat + k = addr.toNat + (k + 1) := fun k more => by
      obtain none | fits := rest
      · exact absurd none more
      · bv_omega
    rw [State.readBytes, State.readByte_ok inside, except_ok_bind, ih rest, except_ok_bind,
      List.range_succ_eq_map, List.map_cons, List.map_map]
    refine congrArg (fun tail => Except.ok (s.byteAt addr.toNat :: tail)) (List.map_congr_left fun k inRange => ?_)
    have more := List.mem_range.1 inRange
    rw [shifted k (by omega)]
    rfl

theorem readBytes_error (beyond : ¬ spanInRange addr n) :
    s.readBytes n addr = .error (.addressFault (firstBeyond addr)) := by
  induction n generalizing addr with
  | zero => exact absurd (.inl rfl) beyond
  | succ n ih =>
    rw [State.readBytes]
    by_cases inside : addr.toNat < 4096
    · have rest : ¬ spanInRange (addr + 1) n := fun rest => beyond (spanInRange_succ.2 ⟨inside, rest⟩)
      rw [State.readByte_ok inside, except_ok_bind, ih rest, except_error_bind, firstBeyond_next inside]
    · rw [State.readByte_error (by omega), except_error_bind, firstBeyond_of_beyond (by omega)]

theorem writeBytes_error (beyond : ¬ spanInRange addr bytes.length) :
    s.writeBytes addr bytes = .error (.addressFault (firstBeyond addr)) := by
  induction bytes generalizing s addr with
  | nil => exact absurd (.inl rfl) beyond
  | cons b rest ih =>
    rw [State.writeBytes]
    by_cases inside : addr.toNat < 4096
    · have others : ¬ spanInRange (addr + 1) rest.length := fun h => beyond (spanInRange_succ.2 ⟨inside, h⟩)
      rw [State.writeByte_ok inside, except_ok_bind, ih others, firstBeyond_next inside]
    · rw [State.writeByte_error (by omega), except_error_bind, firstBeyond_of_beyond (by omega)]

theorem lookup_bytesAt_below {a k : Nat} (below : k < a) (bytes : List Byte) : (bytesAt a bytes).lookup k = none := by
  induction bytes generalizing a with
  | nil => rfl
  | cons b rest ih =>
    have other : (k == a) = false := by simp; omega
    simp [bytesAt, List.lookup, other, ih (show k < a + 1 by omega)]

/-- A sequence of bytes in range is stored whole. -/
theorem writeBytes_ok (wf : Memory.wf s.mem = true) (span : spanInRange addr bytes.length) :
    ∃ t, s.writeBytes addr bytes = .ok t ∧ BytesBecome s t (bytesAt addr.toNat bytes) := by
  induction bytes generalizing s addr with
  | nil => exact ⟨s, rfl, bytesBecome_refl rfl⟩
  | cons b rest ih =>
    obtain ⟨inside, others⟩ := spanInRange_succ.1 span
    have next : (addr + 1).toNat = addr.toNat + 1 := by bv_omega
    obtain ⟨t, written, changed⟩ := ih (State.wf_setByte wf inside b) others
    refine ⟨t, ?_, ?_⟩
    · rw [State.writeBytes, State.writeByte_ok inside, except_ok_bind, loByte_setWidth, written]
    · rw [next] at changed
      refine (bytesBecome_setByte wf b rfl).append changed fun k => ?_
      by_cases first : k = addr.toNat
      · exact .inr (lookup_bytesAt_below (by omega) rest)
      · have other : (k == addr.toNat) = false := by simpa using first
        exact .inl (by simp [List.lookup, other])

/-! ## Delivering bytes -/

section
variable (done : exec i s = finish s ((s.advance oneWord).deliver bytes stored))
include done

/-- Bytes delivered: stored from `a0` on, their number in `rv`, one draw. -/
theorem completes_of_deliver (wf : Memory.wf s.mem = true) (span : spanInRange (s.reg .a0) stored.length) :
    Completes i s 2 [(.rv, BitVec.ofNat 16 bytes.length)] (bytesAt (s.reg .a0).toNat stored) s.flags s.outside 1 := by
  obtain ⟨t, written, changed⟩ := writeBytes_ok (s := s.advance oneWord) wf span
  have delivered : (s.advance oneWord).deliver bytes stored =
      .ok (t.setReg .rv (BitVec.ofNat 16 bytes.length)).drawn := by
    rw [State.deliver, show (s.advance oneWord).reg .a0 = s.reg .a0 from rfl, written]
    rfl
  obtain ⟨same, -⟩ := State.writeBytes_memoryOnly written
  rw [delivered, finish_ok] at done
  refine ⟨_, done, regsBecome_setReg ?_, changed, ?_, ?_, ?_, ?_⟩
  all_goals rw [same]
  · rfl
  · rfl
  · rfl
  · rfl
  · exact ⟨rfl, rfl, rfl, rfl, rfl⟩

theorem faults_of_deliver (beyond : ¬ spanInRange (s.reg .a0) stored.length) :
    Faults i s (.addressFault (firstBeyond (s.reg .a0))) := by
  refine faults_of_finish done ?_
  rw [State.deliver, show (s.advance oneWord).reg .a0 = s.reg .a0 from rfl, writeBytes_error beyond]
  rfl
end

/-- Settles O54: the host's answer cut to `a1` bytes, delivered, with a 0 after it under the parameter. -/
theorem readStringStoresAndCounts : Obligations.ReadStringStoresAndCounts := by
  intro s wf
  have bound : ((s.advance oneWord).consoleString (s.reg .a1).toNat).length ≤ (s.reg .a1).toNat :=
    List.length_take_le _ _
  have done := exec_sys_printed (code := 0x03#8) (v := .rstr) rfl s
  refine ⟨_, bound, completes_of_deliver done wf, faults_of_deliver done, fun room => .inr ?_⟩
  split
  · rw [List.length_append, List.length_singleton]
    omega
  · omega

/-! ## Strings -/

theorem stringAt_nil_iff : s.StringAt addr [] ↔ addr.toNat < 4096 ∧ s.byteAt addr.toNat = 0 := by
  simp [State.StringAt]

/-- A string that is not empty is its first byte and a string at the next address. -/
theorem stringAt_cons {b : Byte} (string : s.StringAt addr (b :: bytes)) :
    addr.toNat < 4096 ∧ s.byteAt addr.toNat = b ∧ b ≠ 0 ∧ s.StringAt (addr + 1) bytes := by
  obtain ⟨fits, nonzero, content, terminated⟩ := string
  rw [List.length_cons] at fits terminated
  have next : (addr + 1).toNat = addr.toNat + 1 := by bv_omega
  have first : s.byteAt addr.toNat = b := by simpa using (content 0 (by simp)).symm
  refine ⟨by omega, first, nonzero b (by simp), by omega, fun c inRest => nonzero c (by simp [inRest]),
    fun k inRest => ?_, ?_⟩
  · have byte := content (k + 1) (by simpa using inRest)
    rw [next, show addr.toNat + 1 + k = addr.toNat + (k + 1) by omega]
    simpa using byte
  · rw [next, Nat.add_right_comm]
    exact terminated

theorem readStringFuel_ok {fuel : Nat} (string : s.StringAt addr bytes) (enough : bytes.length < fuel) :
    s.readStringFuel fuel addr = .ok bytes := by
  induction bytes generalizing addr fuel with
  | nil =>
    obtain ⟨inside, zero⟩ := stringAt_nil_iff.1 string
    obtain ⟨fuel, rfl⟩ := Nat.exists_eq_succ_of_ne_zero (show fuel ≠ 0 by simp at enough; omega)
    rw [State.readStringFuel, State.readByte_ok inside, except_ok_bind, zero]
    rfl
  | cons b rest ih =>
    obtain ⟨inside, first, nonzero, others⟩ := stringAt_cons string
    rw [List.length_cons] at enough
    obtain ⟨fuel, rfl⟩ := Nat.exists_eq_succ_of_ne_zero (show fuel ≠ 0 by omega)
    rw [State.readStringFuel, State.readByte_ok inside, except_ok_bind, first, if_neg nonzero,
      ih others (by omega)]
    rfl

/-- A string in memory is shorter than the fuel. -/
theorem readString_ok (string : s.StringAt addr bytes) : s.readString addr = .ok bytes := by
  obtain ⟨fits, -⟩ := id string
  exact readStringFuel_ok string (by unfold memSize; omega)

theorem readStringFuel_error {fuel : Nat} (unterminated : s.Unterminated addr) (enough : 4096 ≤ addr.toNat + fuel) :
    s.readStringFuel fuel addr = .error (.addressFault (firstBeyond addr)) := by
  induction fuel generalizing addr with
  | zero => rw [State.readStringFuel, firstBeyond_of_beyond enough]
  | succ fuel ih =>
    rw [State.readStringFuel]
    by_cases inside : addr.toNat < 4096
    · have next : (addr + 1).toNat = addr.toNat + 1 := by bv_omega
      have nonzero := unterminated addr.toNat (Nat.le_refl _) inside
      rw [State.readByte_ok inside, except_ok_bind, if_neg nonzero,
        ih (fun a low => unterminated a (by omega)) (by omega), except_error_bind, firstBeyond_next inside]
    · rw [State.readByte_error (by omega), except_error_bind, firstBeyond_of_beyond (by omega)]

theorem readString_error (unterminated : s.Unterminated addr) :
    s.readString addr = .error (.addressFault (firstBeyond addr)) :=
  readStringFuel_error unterminated (by unfold memSize; omega)

theorem perform_wstr (s : State) : Service.wstr.perform (s.advance oneWord) =
    (s.advance oneWord).readString (s.reg .a0) >>= fun bytes =>
      pure ((s.advance oneWord).consoleOut (.str bytes)) := rfl

theorem perform_error (s : State) : Service.error.perform (s.advance oneWord) =
    (s.advance oneWord).readString (s.reg .a0) >>= fun message => .error (.programAbort message) := rfl

/-- Settles O55: both read the string first. -/
theorem writeStringAndError : Obligations.WriteStringAndError := by
  intro s
  have write := exec_sys_printed (code := 0x04#8) (v := .wstr) rfl s
  have abort := exec_sys_printed (code := 0xF0#8) (v := .error) rfl s
  rw [perform_wstr] at write
  rw [perform_error] at abort
  refine ⟨fun bytes string => ?_, fun unterminated => ?_⟩
  · have read : (s.advance oneWord).readString (s.reg .a0) = .ok bytes := readString_ok string
    refine ⟨?_, faults_of_finish abort (by rw [read, except_ok_bind])⟩
    rw [read, except_ok_bind] at write
    exact ⟨_, write, regsBecome_advance rfl, bytesBecome_refl rfl, rfl, rfl, rfl, rfl, rfl, rfl, rfl, rfl⟩
  · have read : (s.advance oneWord).readString (s.reg .a0) = .error (.addressFault (firstBeyond (s.reg .a0))) :=
      readString_error unterminated
    exact ⟨faults_of_finish write (by rw [read, except_error_bind]),
      faults_of_finish abort (by rw [read, except_error_bind])⟩

/-! ## Files -/

/-- `rfile` and `wfile` read the name first. -/
theorem readName_ok {name : List Byte} (string : s.StringAt (s.reg .a2) name) :
    (s.advance oneWord).readString (s.reg .a2) = .ok name := readString_ok string

theorem readName_error (unterminated : s.Unterminated (s.reg .a2)) :
    (s.advance oneWord).readString (s.reg .a2) = .error (.addressFault (firstBeyond (s.reg .a2))) :=
  readString_error unterminated

/-- What `rfile` does with the host's answer. -/
def State.receive (t : State) : Option (List Byte) → Except FaultReport State
  | none => .error (.hostError 0x05#8)
  | some bytes => t.deliver bytes bytes

theorem perform_rfile (s : State) : Service.rfile.perform (s.advance oneWord) =
    (s.advance oneWord).readString (s.reg .a2) >>= fun name =>
      (s.advance oneWord).receive ((s.advance oneWord).fileRead name (s.reg .a1).toNat) := by
  show svcRfile _ = _
  unfold svcRfile State.receive
  rfl

/-- Settles O56: the name, then the host's answer cut to `a1` bytes, delivered. -/
theorem readFileDeliversOrFaults : Obligations.ReadFileDeliversOrFaults := by
  intro s
  have done := exec_sys_printed (code := 0x05#8) (v := .rfile) rfl s
  rw [perform_rfile] at done
  refine ⟨fun unterminated => ?_, fun name wf string => ?_⟩
  · exact faults_of_finish done (by rw [readName_error unterminated, except_error_bind])
  · rw [readName_ok string, except_ok_bind] at done
    cases answer : (s.advance oneWord).fileRead name (s.reg .a1).toNat with
    | none => exact .inl (faults_of_finish done (by rw [answer]; rfl))
    | some bytes =>
      rw [answer] at done
      obtain ⟨whole, -, cut⟩ := Option.map_eq_some_iff.1 answer
      exact .inr ⟨bytes, cut ▸ List.length_take_le _ _, completes_of_deliver done wf, faults_of_deliver done⟩

theorem perform_wfile (s : State) : Service.wfile.perform (s.advance oneWord) =
    (s.advance oneWord).readString (s.reg .a2) >>= fun name =>
      (s.advance oneWord).readBytes (s.reg .a1).toNat (s.reg .a0) >>= fun contents =>
        if Config.fileWrite s.draws name contents then
          pure ((s.advance oneWord).fileWritten { name := name, contents := contents }).drawn
        else .error (.hostError 0x06#8) := rfl

/-- Settles O57: the name, then the data, then the host's answer. -/
theorem writeFileRecordsOrFaults : Obligations.WriteFileRecordsOrFaults := by
  intro s
  have done := exec_sys_printed (code := 0x06#8) (v := .wfile) rfl s
  rw [perform_wfile] at done
  refine ⟨fun unterminated => ?_, fun name string => ?_⟩
  · exact faults_of_finish done (by rw [readName_error unterminated, except_error_bind])
  · rw [readName_ok string, except_ok_bind] at done
    refine ⟨fun beyond => ?_, fun span => ?_⟩
    · exact faults_of_finish done (by rw [readBytes_error beyond, except_error_bind])
    · rw [readBytes_ok span, except_ok_bind] at done
      split at done
      · exact .inr ⟨_, done, regsBecome_advance rfl, bytesBecome_refl rfl, rfl, rfl, rfl, rfl, rfl, rfl, rfl, rfl⟩
      · exact .inl (faults_of_finish done rfl)

/-! ## The display -/

theorem onScreen_iff (x y : Int) : onScreen x y = true ↔ 0 ≤ x ∧ x ≤ 159 ∧ 0 ≤ y ∧ y ≤ 139 :=
  decide_eq_true_iff

/-- Different locations have different keys. -/
theorem pixelKey_injective {x y x' y' : Nat} (h : x < 160) (h' : x' < 160) (same : pixelKey x y = pixelKey x' y') :
    x = x' ∧ y = y' := by
  unfold pixelKey screenWidth at same
  omega

theorem pixelValue_eq (v : Word) : pixelValue v = if v.toNat ≤ 3 then BitVec.ofNat 2 v.toNat else 0 := by
  rw [pixelValue, BitVec.ofNat_toNat]
  exact if_congr Nat.lt_succ_iff rfl rfl

/-- A frame buffer written is the whole effect. -/
theorem completes_of_withFrame {frame : List (Nat × BitVec 2)}
    (done : exec i s = .next ((s.advance oneWord).withFrame frame)) :
    Completes i s 2 [] [] s.flags { s.outside with frameBuffer := frame } 0 :=
  ⟨_, done, regsBecome_advance rfl, bytesBecome_refl rfl, rfl, rfl, rfl, rfl, rfl, rfl, rfl, rfl⟩

section
variable {x y : Int}

theorem State.pixel_shown (shown : onScreen x y = true) : s.pixel x y = pixelOf s.frameBuffer x.toNat y.toNat :=
  if_pos shown

theorem State.pixel_off (off : ¬ onScreen x y = true) : s.pixel x y = 0 := if_neg off

theorem State.setPixel_shown (shown : onScreen x y = true) (c : BitVec 2) :
    s.setPixel x y c = s.withFrame (Sparse.write s.frameBuffer (pixelKey x.toNat y.toNat) c) := if_pos shown

theorem State.setPixel_off (off : ¬ onScreen x y = true) (c : BitVec 2) : s.setPixel x y c = s := if_neg off
end

/-- Settles O58: a pixel is read or written at its key, which no other location shares. -/
theorem frameBufferPixels : Obligations.FrameBufferPixels := by
  intro s x y shown c
  have display : onScreen x y = true ↔ shown := onScreen_iff x y
  have reset := exec_sys_printed (code := 0x11#8) (v := .fbreset) rfl s
  have read : exec (.sys 0x12#8) s = .next ((s.advance oneWord).setReg .rv ((s.pixel x y).setWidth 16)) :=
    exec_sys_printed (v := .fbstat) rfl s
  have write : exec (.sys 0x13#8) s = .next ((s.advance oneWord).setPixel x y (pixelValue (s.reg .a3))) :=
    exec_sys_printed (v := .fbset) rfl s
  refine ⟨⟨[], completes_of_withFrame reset, fun _ _ => rfl⟩, fun on => ?_, fun off => ?_, fun on wf => ?_,
    fun off => ?_⟩
  · rw [State.pixel_shown (display.2 on), ← BitVec.ofNat_toNat] at read
    exact moves_of_setReg read
  · rw [State.pixel_off (mt display.1 off)] at read
    exact moves_of_setReg read
  · rw [State.setPixel_shown (display.2 on), pixelValue_eq] at write
    refine ⟨_, completes_of_withFrame write, ?_, fun j k column row other => ?_⟩
    · exact (Sparse.read_write_of_wf wf).trans (if_pos rfl)
    · refine (Sparse.read_write_of_wf wf).trans (if_neg fun same => ?_)
      obtain ⟨-, right, -, -⟩ := on
      obtain ⟨sameColumn, sameRow⟩ := pixelKey_injective column (by omega) same
      exact other.elim (· sameColumn) (· sameRow)
  · rw [State.setPixel_off (mt display.1 off)] at write
    exact moves_of_advance write

/-- A frame buffer of draws is the whole effect. -/
theorem completes_of_anyFrame (done : exec i s = .next (s.advance oneWord).anyFrame) :
    ∃ frame, Completes i s 2 [] [] s.flags { s.outside with frameBuffer := frame } 1 ∧ Pixels.wf frame = true :=
  ⟨_, ⟨_, done, regsBecome_advance rfl, bytesBecome_refl rfl, rfl, rfl, rfl, rfl, rfl, rfl, rfl, rfl⟩,
    Pixels.wf_tabulate _⟩

/-- Parameters that are valid give `fbds` and `fbsync` codes of their own. -/
theorem serviceOf_of_validParams {p : Params} (valid : validParams p = true) :
    serviceOf p p.sysFbds = some .fbds ∧ serviceOf p p.sysFbsync = some .fbsync := by
  simp only [validParams, Bool.and_eq_true, decide_eq_true_eq, Option.isNone_iff_eq_none] at valid
  obtain ⟨⟨different, free⟩, free'⟩ := valid
  simp [serviceOf, free, free', different.symm]

/-- Settles O59: `fbss` and `fbds` draw a frame buffer, `fbsync` copies it. -/
theorem syncAndSprites : Obligations.SyncAndSprites := by
  refine fun s => ⟨completes_of_anyFrame (exec_sys_printed (v := .fbss) rfl s), fun valid => ?_⟩
  obtain ⟨sprites, sync⟩ := serviceOf_of_validParams valid
  exact ⟨completes_of_anyFrame (exec_sys sprites),
    ⟨_, exec_sys sync, regsBecome_advance rfl, bytesBecome_refl rfl, rfl, rfl, rfl, rfl, rfl, rfl, rfl, rfl⟩⟩

end Sys2Proof.Machine
end
